-- ==== Sys2Proof/Word.lean ====
section
/-! DEFINITION. The words of the machine and the small closed vocabularies its operands and results are drawn from:
bus masters, mailbox instances and registers, clock nodes and fields, audio-PLL states, revision classes, failure causes
and bus transactions. Nothing here computes: numeric codes and tables stand in Machine/Tables.lean. -/

namespace Sys2Proof

/-- A register, a bus datum or an `OPD32` descriptor: 32 bits (R41, R120). -/
abbrev Word := BitVec 32

/-- One byte of patch memory or of an operand blob (R76). -/
abbrev Byte := BitVec 8

/-- A frequency in hertz, a natural number (R14, R151). -/
abbrev Frequency := Nat

/-- The three bus masters (R2, R9). -/
inductive Agent where
  | hcpu | lcpu | bcpu
  deriving DecidableEq, Repr

/-- The two mailbox instances, `MAILBOX1` and `MAILBOX2` (R31). -/
inductive MbxInst where
  | mbx1 | mbx2
  deriving DecidableEq, Repr

/-- The six registers of a mailbox channel (R41). -/
inductive MbxReg where
  | ier | itr | icr | isr | misr | exr
  deriving DecidableEq, Repr

/-- The twelve clock nodes (R51), in the order of their numbers (R124). -/
inductive ClkNode where
  | hxt48 | hrc48 | clkDll1 | clkDll2 | clkSys | clkPeri | clkPeriDiv2 | hclk | pclk1 | pclk2 | clkUsb | clkAudPll
  deriving DecidableEq, Repr

/-- The twelve clock control fields `CLK.CFG` writes (R124). -/
inductive ClkField where
  | dll1En | dll1Stg | dll1OutDiv2 | dll2En | dll2Stg | dll2OutDiv2 | selSys | selPeri | selUsb | hdiv | pdiv1 | pdiv2
  deriving DecidableEq, Repr

/-- The fields of the audio PLL that stand in registers of the platform (R60 to R65). -/
inductive ApllField where
  | enBg | enAna | enDig | lfCfg | fcVco | calEn | calDone | calCnt | fcw | sdin | lockDet
  deriving DecidableEq, Repr

/-- Where a field stands: the byte address of its register and its lowest bit there. -/
structure FieldPlace where
  reg : Nat
  bit : Nat
  deriving DecidableEq, Repr

/-- The clock nodes a multiplexer other than `clk_usb` may name (R163, R164): none of them is itself a multiplexer. -/
inductive ClkLeaf where
  | hxt48 | hrc48 | dll1 | dll2
  deriving DecidableEq, Repr

/-- What the `clk_usb` multiplexer may name (R165). -/
inductive UsbSource where
  | clkSys
  | leaf (l : ClkLeaf)
  deriving DecidableEq, Repr

/-- The audio-PLL states, a closed chain; `TornDown` is no seventh value (R45). -/
inductive PllState where
  | uninitialized | bandgapEnabled | analogPllEnabled | digitalPllEnabled | openLoopCalibrating | closedLoopLocked
  deriving DecidableEq, Repr

/-- The phases of the installer (R47). -/
inductive InstallPhase where
  | idle | checked | recordWritten | headerWritten | zeroed | done
  deriving DecidableEq, Repr

/-- The events of the SDM pulse sequence, as the analog block sees them (R210). -/
inductive SdmEvent where
  | sdmReset | sdmRelease
  deriving DecidableEq, Repr

/-- The classification of a revision byte (R292). -/
inductive ChipRevision where
  | a3OrEarlier (id : Byte)
  | a4
  | b4
  | invalid (id : Byte)
  deriving DecidableEq, Repr

/-- The patch layout family a valid revision selects (R295). -/
inductive PatchType where
  | a3 | letterSeries
  deriving DecidableEq, Repr

/-- The decoded result of a lock read (R135). -/
inductive LockCore where
  | unlocked | hcpu | lcpu | bcpu
  deriving DecidableEq, Repr

/-- The causes of a fatal precondition violation (R334). -/
inductive FatalCause where
  | indexOutOfRange | doubleConstruct | pllIncompatible
  deriving DecidableEq, Repr

/-- The causes of a recoverable error (R334). -/
inductive ErrorCause where
  | invalidRevision | codeTooLarge | emptyRecord | emptyCode | timeout
  deriving DecidableEq, Repr

/-- The one non-fatal warning (R333). -/
inductive WarnCause where
  | pllNotLocked
  deriving DecidableEq, Repr

/-- Where a bus transaction is aimed. The block-relative forms are what the block sees once the interconnect has selected
it (R122); `absolute` is a byte address of the memory map, resolved with the OPEN bases (R97). The spec gives a byte address
no width: that it is a natural number with no upper bound is the model's choice (log entry 21). -/
inductive BusAddr where
  | mailbox (i : MbxInst) (c : Nat) (off : Nat)
  | chipId
  | absolute (a : Nat)
  deriving DecidableEq, Repr

/-- A bus transaction as a master issues it; the master's identity travels beside it (R122). `size` is its width in
bytes, and `data` matters to a write only. -/
structure BusTx where
  write : Bool
  size : Nat
  addr : BusAddr
  data : Word
  deriving DecidableEq, Repr

/-- An operation as it reaches the machine: an `OPD32` descriptor with the byte lists passed beside it (R120, R132), or a
bus transaction of a master. -/
inductive Encoded where
  | opd (w : Word) (record code : List Byte)
  | bus (a : Agent) (t : BusTx)
  deriving DecidableEq, Repr

/-- Why a descriptor or a transaction stands for no operation (R129, R92, R97, R128). -/
inductive DecodeError where
  /-- `fam` is 0 or 5 to 15. -/
  | badFamily
  /-- `op` names no row of its family. -/
  | badOp
  /-- `agent` is 0. -/
  | noAgent
  /-- A family of HCPU alone, from another agent (R11). -/
  | notHcpu
  /-- A field the operation does not use is not 0. -/
  | unusedField
  /-- `idx` exceeds the range of a node, a field, a table index or a sample rate. -/
  | indexRange
  /-- `imm16[15:8]` is not 0 for a revision byte. -/
  | byteRange
  /-- A `CLK.CFG` value does not fit its field. -/
  | valueRange
  /-- Byte lists beside a descriptor other than `REV.INSTALL`. -/
  | strayOperands
  /-- A transaction that is not 32 bits wide (R92). -/
  | busWidth
  /-- A transaction at an address that is not a multiple of 4 (R92). -/
  | busAlign
  /-- A transaction to an address in no block or at no register (R97). -/
  | busNoRegister
  /-- A write of `CHIPID` (R128). -/
  | busReserved
  deriving DecidableEq, Repr

end Sys2Proof
end

