-- ==== Sys2Proof/Config.lean ====
section
/-! DEFINITION. The OPEN part of the configuration record of R12: parameters the spec gives no value, and the free values. Each is an
`opaque` constant with no body: nothing in Lean can evaluate it, so whatever is proved holds for every value of it. The
fixed and decided parameters, and the OPEN ones the spec constrains (a channel count is 4 or 16, the two capacities differ,
the three frequencies are distinct, a register is one 32-bit word at a multiple of 4), stand in Machine/Tables.lean; the constrained ones
are computed there from the constants below in a way that reaches every admitted value and no other. The spec gives no width to
an address: DESIGN CHOICE (log entry 21), every address here is a natural number without an upper bound, but for
`LS_CODE_ADDR`, which R126 (d) makes a 32-bit word. -/

namespace Sys2Proof.Config

/-! ### Mailbox -/

/-- OPEN (R12, D3): whether instance `i` is the 16-channel kind. -/
opaque nchIs16 : MbxInst → Bool

/-- OPEN (R12, D2): the base of instance `i` in words; a register stands at a multiple of 4 (R92). No width: log entry 21. -/
opaque mbxBaseWord : MbxInst → Nat

/-! ### Clock tree -/

/-- OPEN (R12, N8): `CLK_BASE` in words; a register stands at a multiple of 4 (R92). No width: log entry 21. -/
opaque clkBaseWord : Nat

/-- OPEN (R12, N8): how many words above `CLK_BASE` the register of a clock field stands. -/
opaque clkFieldWord : ClkField → Nat

/-- OPEN (R12, N8): a number the lowest bit of a clock field is taken from. -/
opaque clkFieldBitRaw : ClkField → Nat

/-- OPEN (R12, N8): how many words above `CLK_BASE` the register of the ready bit of `hxt48` stands (R52). -/
opaque hxt48RdyWord : Nat

/-- OPEN (R12, N8): a number the place of the ready bit of `hxt48` in its register is taken from. -/
opaque hxt48RdyBitRaw : Nat

/-- OPEN (R12, N8): how many words above `CLK_BASE` the register of the ready bit of `hrc48` stands (R53). -/
opaque hrc48RdyWord : Nat

/-- OPEN (R12, N8): a number the place of the ready bit of `hrc48` in its register is taken from. -/
opaque hrc48RdyBitRaw : Nat

/-! ### Audio PLL -/

/-- OPEN (R96, N10): the address, in words, of the register an audio-PLL field stands in (R92). No width: log entry 21. -/
opaque apllFieldWord : ApllField → Nat

/-- OPEN (R96, N10): a number the lowest bit of an audio-PLL field is taken from. -/
opaque apllFieldBitRaw : ApllField → Nat

/-- OPEN (R12, D18): the bound of the wait for `cal_done`. No rule computes with it: expiry is a choice of `ENV` (R342). -/
opaque calTimeout : Nat

/-- OPEN (R194, R196): three unconstrained numbers the output frequencies are taken from. -/
opaque apllHzRaw : Fin 3 → BitVec 32

/-- OPEN (R194): the integer parts of `APLL_TABLE`. -/
opaque apllFcw : Fin 3 → BitVec 4

/-- OPEN (R194): the fractional parts of `APLL_TABLE`. -/
opaque apllSdin : Fin 3 → BitVec 20

/-- FREE VALUE (R17, R203, U16, U18): what `ENV` answers to the measurement that finds no answer waiting in the state's
`env` list, as a function of how many such answers were drawn before: `some n` is the completion of the window with count
`n`, `none` the expiry of the wait. -/
opaque calDraw : Nat → Option (BitVec 16)

/-! ### Chip ID -/

/-- OPEN (R12): the revision ID the silicon reports. -/
opaque revId : Byte

/-- OPEN (R12, N25). -/
opaque seriesId : Byte

/-- OPEN (R12, N25). -/
opaque companyId : Byte

/-- OPEN (R12, N25). -/
opaque packageId : Byte

/-- OPEN (R12, N14): the address of `CHIPID` in words (R92). No width: log entry 21. -/
opaque chipIdAddrWord : Nat

/-! ### Patch layouts and patch memory -/

/-- The two patch-memory layouts as one record (R296): addresses, capacities and the fixed entry count. The installer takes
it as an argument. `lsCode` is a 32-bit word (R126 (d)); the spec gives the other three addresses no width, and that they are
natural numbers is the model's choice (log entry 21). -/
structure PatchMap where
  a3Record : Nat
  a3Code : Nat
  a3CodeMax : Nat
  lsBuf : Nat
  lsCode : Word
  lsCodeMax : Nat
  lsEntryCount : Word
  deriving DecidableEq, Repr

/-- OPEN (R12, D26): `A3_RECORD_ADDR`. No width: log entry 21. -/
opaque a3RecordAddr : Nat

/-- OPEN (R12, D26): `A3_CODE_ADDR`. No width: log entry 21. -/
opaque a3CodeAddr : Nat

/-- OPEN (R12, D26): `A3_CODE_MAX`. -/
opaque a3CodeMax : Nat

/-- OPEN (R12, D26): `LS_BUF_ADDR`. No width: log entry 21. -/
opaque lsBufAddr : Nat

/-- OPEN (R12, D26): `LS_CODE_ADDR`, a 32-bit word (R126 (d)). -/
opaque lsCodeAddr : Word

/-- OPEN (R12, D26): the value `LS_CODE_MAX` takes where that differs from `A3_CODE_MAX`. -/
opaque lsCodeMaxRaw : Nat

/-- OPEN (R12, D26): `LS_ENTRY_COUNT`, a 32-bit header word (R302). -/
opaque lsEntryCount : Word

/-- FREE VALUE (R385, U15): the byte an address of patch memory holds from reset until something writes it, as a function of
the address, so that it is stable until written (log entry 5). -/
opaque memReset : Nat → Byte

end Sys2Proof.Config
end

