-- ==== Sys2Proof/Machine/Tables.lean ====
section
/-! DEFINITION. The fixed and decided constants and tables of the configuration (R12, R13, R123, R124, R334), each a named
definition so that one correction reaches every rule, and the constrained OPEN parameters computed from the constants of
Config.lean. -/

namespace Sys2Proof

/-- The 2-bit core ID of a bus master, its owner code in the mutex register (R9); 0 is no agent. -/
def Agent.code : Agent → BitVec 2
  | .hcpu => 1#2
  | .lcpu => 2#2
  | .bcpu => 3#2

/-- The `inst` bit of a descriptor (R121). -/
def MbxInst.bit : MbxInst → BitVec 1
  | .mbx1 => 0#1
  | .mbx2 => 1#1

/-- The number of a clock field in `idx` (R124). -/
def ClkField.code : ClkField → BitVec 5
  | .dll1En => 0#5
  | .dll1Stg => 1#5
  | .dll1OutDiv2 => 2#5
  | .dll2En => 3#5
  | .dll2Stg => 4#5
  | .dll2OutDiv2 => 5#5
  | .selSys => 6#5
  | .selPeri => 7#5
  | .selUsb => 8#5
  | .hdiv => 9#5
  | .pdiv1 => 10#5
  | .pdiv2 => 11#5

/-- The numeric codes of the fatal causes (R334). -/
def FatalCause.code : FatalCause → Byte
  | .indexOutOfRange => 0x01#8
  | .doubleConstruct => 0x02#8
  | .pllIncompatible => 0x03#8

/-- The numeric codes of the recoverable errors (R334). -/
def ErrorCause.code : ErrorCause → Byte
  | .invalidRevision => 0x11#8
  | .codeTooLarge => 0x12#8
  | .emptyRecord => 0x13#8
  | .emptyCode => 0x14#8
  | .timeout => 0x15#8

/-- The numeric code of the warning (R334). -/
def WarnCause.code : WarnCause → Byte
  | .pllNotLocked => 0x21#8

end Sys2Proof

namespace Sys2Proof.Config

/-! ### Mailbox -/

/-- Channels of instance `i`, in {4, 16} (R31). -/
def nch (i : MbxInst) : Nat := if nchIs16 i then 16 else 4

/-- The trigger bits of a channel, `NBIT` (R12). -/
def nbit : Nat := 16

/-- Register offsets inside a channel, decided (R12, D2). -/
def mbxOff : MbxReg → Nat
  | .ier => 0x00
  | .itr => 0x04
  | .icr => 0x08
  | .isr => 0x0C
  | .misr => 0x10
  | .exr => 0x14

/-- The channel stride, decided (R12, D2). -/
def mbxStride : Nat := 0x18

/-- `MBX_BASE[i]`, the byte address of instance `i` (R97): any multiple of 4 (R92). It has no width: log entry 21. -/
def mbxBase (i : MbxInst) : Nat := 4 * mbxBaseWord i

/-- The bit of `EX` in the exclusive register (R13, R37). -/
def exrExBit : Nat := 0

/-- The lowest bit of `ID` in the exclusive register (R13, R38). -/
def exrIdBit : Nat := 1

/-- The datum an unlock writes: 1 in the bit of `EX`, 0 elsewhere (R248). -/
def exrUnlock : Word := 1#32 <<< exrExBit

/-- The core whose interrupt input instance `i` drives, decided (R40, R352, D4). -/
def irqTarget : MbxInst → Agent
  | .mbx1 => .lcpu
  | .mbx2 => .hcpu

/-! ### Clock tree -/

/-- The nominal oscillator frequency of `hxt48` (R155). -/
def fHxt48 : Frequency := 48000000

/-- The nominal oscillator frequency of `hrc48` (R156). -/
def fHrc48 : Frequency := 48000000

/-- The DLL reference (R159). -/
def fDllRef : Frequency := 24000000

/-- The width in bits of a clock field (R54 to R57; `STAGE_W` 4, `HDIV_W` 8, `PDIV_W` 3 decided by D13). -/
def fieldWidth : ClkField → Nat
  | .dll1En => 1
  | .dll1Stg => 4
  | .dll1OutDiv2 => 1
  | .dll2En => 1
  | .dll2Stg => 4
  | .dll2OutDiv2 => 1
  | .selSys => 2
  | .selPeri => 1
  | .selUsb => 1
  | .hdiv => 8
  | .pdiv1 => 3
  | .pdiv2 => 3

/-- A field of a width in the register at a word address: the register is one 32-bit word (R92), so the lowest bit is any that
leaves the field inside it. -/
def fieldPlace (word raw width : Nat) : FieldPlace := { reg := 4 * word, bit := raw % (33 - width) }

/-- `CLK_BASE`, any multiple of 4 (R92). No rule reads where the clock fields live: they are reached by name (R75, log entry
17). -/
def clkBase : Nat := 4 * clkBaseWord

/-- Where a clock field lives (R12, N8). No rule reads it (log entry 17). -/
def clkFieldPos (f : ClkField) : FieldPlace := fieldPlace (clkBaseWord + clkFieldWord f) (clkFieldBitRaw f) (fieldWidth f)

/-- Where the ready bit of `hxt48` lives (R52). No rule reads it (log entry 17). -/
def hxt48RdyPos : FieldPlace := fieldPlace (clkBaseWord + hxt48RdyWord) hxt48RdyBitRaw 1

/-- Where the ready bit of `hrc48` lives (R53). No rule reads it (log entry 17). -/
def hrc48RdyPos : FieldPlace := fieldPlace (clkBaseWord + hrc48RdyWord) hrc48RdyBitRaw 1

/-- The table `MUX_SYS` (R163, D13); `none` is a selector value with no modelled source. -/
def muxSys (sel : BitVec 2) : Option ClkLeaf :=
  if sel = 0#2 then some .hrc48
  else if sel = 1#2 then some .hxt48
  else if sel = 3#2 then some .dll1
  else none

/-- The table `MUX_PERI` (R164, D13). -/
def muxPeri (sel : BitVec 1) : ClkLeaf :=
  if sel = 0#1 then .hrc48 else .hxt48

/-- The table `MUX_USB` (R165, D13). -/
def muxUsb (sel : BitVec 1) : UsbSource :=
  if sel = 0#1 then .clkSys else .leaf .dll2

/-! ### Audio PLL -/

/-- The width in bits of an audio-PLL field (R60 to R65). -/
def apllFieldWidth : ApllField → Nat
  | .enBg => 1
  | .enAna => 1
  | .enDig => 1
  | .lfCfg => 1
  | .fcVco => 5
  | .calEn => 1
  | .calDone => 1
  | .calCnt => 16
  | .fcw => 4
  | .sdin => 20
  | .lockDet => 1

/-- Where an audio-PLL field lives (R96, N10). No rule reads it: the fields are reached by name (R75, log entry 17). -/
def apllFieldPos (f : ApllField) : FieldPlace := fieldPlace (apllFieldWord f) (apllFieldBitRaw f) (apllFieldWidth f)

/-- The start code of the search, `FC_INIT` (R204). -/
def fcInit : BitVec 5 := 16#5

/-- The start step of the search, `STEP_INIT` (R204). -/
def stepInit : BitVec 4 := 8#4

/-- The target count, `CAL_TARGET` (R12, R205). -/
def calTarget : Nat := 1838

/-- The measurement window in cycles, `CAL_WINDOW` (R12, R203). No rule computes with it: the model is untimed (R412). -/
def calWindow : Nat := 2000

/-- The audio PLL reference (R12). No rule computes with it: the divider pairs are precomputed (R194). -/
def fApllRef : Frequency := 6000000

/-- The suggested output frequencies of R196 (general knowledge), named only to give `apllHz` an admitted value where the
raw triple is not one. -/
def apllHzSuggested (k : Fin 3) : Frequency :=
  if k = 0 then 49152000 else if k = 1 then 45158400 else 44100000

/-- The output frequencies of `APLL_TABLE` (R194): any three distinct frequencies of 32 bits, none of them 0 (R172). -/
def apllHz (k : Fin 3) : Frequency :=
  if apllHzRaw 0 ≠ apllHzRaw 1 ∧ apllHzRaw 0 ≠ apllHzRaw 2 ∧ apllHzRaw 1 ≠ apllHzRaw 2
    ∧ apllHzRaw 0 ≠ 0#32 ∧ apllHzRaw 1 ≠ 0#32 ∧ apllHzRaw 2 ≠ 0#32
  then (apllHzRaw k).toNat else apllHzSuggested k

/-- The eleven sample rates, decided (R197, D20). -/
def sampleRates : List Nat :=
  [8000, 11025, 12000, 16000, 22050, 24000, 32000, 44100, 48000, 88200, 96000]

/-- The sample rate at index `sr` (R197). -/
def sampleRate (sr : Fin 11) : Nat := sampleRates.getD sr.val 0

/-! ### Chip ID -/

/-- The lowest bit of the revision ID in `CHIPID` (R13, R70). -/
def chipIdRevisionBit : Nat := 0

/-- The lowest bit of the package ID in `CHIPID` (R13, R70). -/
def chipIdPackageBit : Nat := 8

/-- The lowest bit of the company ID in `CHIPID` (R13, R70). -/
def chipIdCompanyBit : Nat := 16

/-- The lowest bit of the series ID in `CHIPID` (R13, R70). -/
def chipIdSeriesBit : Nat := 24

/-- The constant of the part that `CHIPID` reads (R70). -/
def chipId : Word :=
  seriesId.setWidth 32 <<< chipIdSeriesBit ||| companyId.setWidth 32 <<< chipIdCompanyBit |||
    packageId.setWidth 32 <<< chipIdPackageBit ||| revId.setWidth 32 <<< chipIdRevisionBit

/-- `CHIPID_ADDR`, the byte address of `CHIPID` (R70): any multiple of 4 (R92). It has no width: log entry 21. -/
def chipIdAddr : Nat := 4 * chipIdAddrWord

/-- The largest revision ID classified `A3OrEarlier`; they begin at 0 (R13, R292). -/
def revIdA3Last : Byte := 0x03#8

/-- The revision ID of `A4` (R13, R292). -/
def revIdA4 : Byte := 0x07#8

/-- The revision ID of `B4` (R13, R292). -/
def revIdB4 : Byte := 0x0F#8

/-! ### Patch layouts -/

/-- `PATCH_MAGIC`, the bytes 'P', 'A', 'C', 'H' at ascending addresses as a little-endian word (R91, D9). -/
def patchMagic : Word := 0x48434150#32

/-- `LS_CODE_MAX`: any capacity other than `A3_CODE_MAX` (R12, R296). -/
def lsCodeMax : Nat := if lsCodeMaxRaw = a3CodeMax then a3CodeMax + 1 else lsCodeMaxRaw

/-- The part's layouts. -/
def patchMap : PatchMap :=
  { a3Record := a3RecordAddr, a3Code := a3CodeAddr, a3CodeMax := a3CodeMax,
    lsBuf := lsBufAddr, lsCode := lsCodeAddr, lsCodeMax := lsCodeMax, lsEntryCount := lsEntryCount }

end Sys2Proof.Config
end

