-- ==== Sys2Proof/Syntax.lean ====
section
/-! DEFINITION. The operations of the machine: one constructor of `Instr` per row of spec/opcode_table.json. The
operations of families CLK, APLL and REV carry no agent, since only HCPU issues them (R11, R129); those of family MBX carry
theirs. The bus forms are decoded mailbox transactions (R122): their operands are the master, the instance and the channel
the address names and, for a write, the 32-bit write data. -/

namespace Sys2Proof

/-- The operations (R123). -/
inductive Instr where
  -- family CLK
  | clkFreqHxt48
  | clkFreqHrc48
  | clkFreqClkDll1
  | clkFreqClkDll2
  | clkFreqClkSys
  | clkFreqClkPeri
  | clkFreqClkPeriDiv2
  | clkFreqHclk
  | clkFreqPclk1
  | clkFreqPclk2
  | clkFreqClkUsb
  | clkFreqClkAudPll
  | clkCfg (f : ClkField) (v : BitVec 16)
  | clkDump
  -- family APLL
  | apllTake
  | apllBgon
  | apllAnaon
  | apllDigon
  | apllLfcfg
  | apllCalstart
  | apllCalstep
  | apllCalrefine
  | apllSdmprog (k : Fin 3)
  | apllLockchk
  | apllFreqof (sr : Fin 11)
  | apllCheck (sr : Fin 11)
  | apllDrop
  | apllMeas (code : BitVec 5)
  -- family MBX
  | mbxRdier (a : Agent) (i : MbxInst) (c : BitVec 5)
  | mbxWrier (a : Agent) (i : MbxInst) (c : BitVec 5) (m : BitVec 16)
  | mbxTrig (a : Agent) (i : MbxInst) (c : BitVec 5) (m : BitVec 16)
  | mbxClr (a : Agent) (i : MbxInst) (c : BitVec 5) (m : BitVec 16)
  | mbxRaw (a : Agent) (i : MbxInst) (c : BitVec 5)
  | mbxPend (a : Agent) (i : MbxInst) (c : BitVec 5)
  | mbxLock (a : Agent) (i : MbxInst) (c : BitVec 5)
  | mbxUnlock (a : Agent) (i : MbxInst) (c : BitVec 5)
  -- family REV
  | revRdid
  | revClass (b : Byte)
  | revValid (b : Byte)
  | revLetter (b : Byte)
  | revPtype (b : Byte)
  | revInstall (record code : List Byte)
  -- the bus forms of family MBX
  | busRdier (a : Agent) (i : MbxInst) (c : BitVec 5)
  | busWrier (a : Agent) (i : MbxInst) (c : BitVec 5) (w : Word)
  | busTrig (a : Agent) (i : MbxInst) (c : BitVec 5) (w : Word)
  | busClr (a : Agent) (i : MbxInst) (c : BitVec 5) (w : Word)
  | busRaw (a : Agent) (i : MbxInst) (c : BitVec 5)
  | busPend (a : Agent) (i : MbxInst) (c : BitVec 5)
  | busLock (a : Agent) (i : MbxInst) (c : BitVec 5)
  | busUnlock (a : Agent) (i : MbxInst) (c : BitVec 5) (w : Word)
  | busRdItr (a : Agent) (i : MbxInst) (c : BitVec 5)
  | busRdIcr (a : Agent) (i : MbxInst) (c : BitVec 5)
  | busWrIsr (a : Agent) (i : MbxInst) (c : BitVec 5) (w : Word)
  | busWrMisr (a : Agent) (i : MbxInst) (c : BitVec 5) (w : Word)
  deriving DecidableEq, Repr

end Sys2Proof
end

