-- ==== Sys2Proof/WellFormed.lean ====
section
/-! DEFINITION. Which terms of `Instr` stand for an operation some agent can issue. Two checks are not in the operand types:
the value of `CLK.CFG` fits its field (R126 (e), R129), and a bus transaction reaches a channel number the widest instance
has (R31, R97). A channel at or past `NCH` of the addressed instance is well formed: it is a fatal violation or a refused
access when it is issued (R129, U12). -/

namespace Sys2Proof

/-- The bus channel check. -/
def Instr.busChannelOk (c : BitVec 5) : Bool := c.toNat < 16

/-- The well-formedness check of an operation. -/
def Instr.wf : Instr → Bool
  | .clkCfg f v => v.toNat < 2 ^ Config.fieldWidth f
  | .busRdier _ _ c => busChannelOk c
  | .busWrier _ _ c _ => busChannelOk c
  | .busTrig _ _ c _ => busChannelOk c
  | .busClr _ _ c _ => busChannelOk c
  | .busRaw _ _ c => busChannelOk c
  | .busPend _ _ c => busChannelOk c
  | .busLock _ _ c => busChannelOk c
  | .busUnlock _ _ c _ => busChannelOk c
  | .busRdItr _ _ c => busChannelOk c
  | .busRdIcr _ _ c => busChannelOk c
  | .busWrIsr _ _ c _ => busChannelOk c
  | .busWrMisr _ _ c _ => busChannelOk c
  | .clkFreqHxt48 | .clkFreqHrc48 | .clkFreqClkDll1 | .clkFreqClkDll2 | .clkFreqClkSys | .clkFreqClkPeri
  | .clkFreqClkPeriDiv2 | .clkFreqHclk | .clkFreqPclk1 | .clkFreqPclk2 | .clkFreqClkUsb | .clkFreqClkAudPll
  | .clkDump => true
  | .apllTake | .apllBgon | .apllAnaon | .apllDigon | .apllLfcfg | .apllCalstart | .apllCalstep | .apllCalrefine
  | .apllSdmprog _ | .apllLockchk | .apllFreqof _ | .apllCheck _ | .apllDrop | .apllMeas _ => true
  | .mbxRdier _ _ _ | .mbxWrier _ _ _ _ | .mbxTrig _ _ _ _ | .mbxClr _ _ _ _ | .mbxRaw _ _ _ | .mbxPend _ _ _
  | .mbxLock _ _ _ | .mbxUnlock _ _ _ => true
  | .revRdid | .revClass _ | .revValid _ | .revLetter _ | .revPtype _ | .revInstall _ _ => true

end Sys2Proof
end

