-- ==== Sys2Proof/Decode.lean ====
section
/-! DEFINITION. Decoding and encoding. `decodeOpd` reads an `OPD32` descriptor (R121, R123, R129), `decodeBus` a bus
transaction (R122, R97, R92, R128); both are total and reject by name. `encode` is written from the same tables. -/

namespace Sys2Proof

/-! ### Operand codes -/

/-- The bus master with a core ID (R9). -/
def Agent.ofCode (b : BitVec 2) : Option Agent :=
  if b = Agent.hcpu.code then some .hcpu else if b = Agent.lcpu.code then some .lcpu
  else if b = Agent.bcpu.code then some .bcpu else none

/-- The instance an `inst` bit names (R121). -/
def MbxInst.ofBit (b : BitVec 1) : MbxInst := if b = 0#1 then .mbx1 else .mbx2

/-- The clock fields in the order of their numbers (R124). -/
def ClkField.all : List ClkField :=
  [.dll1En, .dll1Stg, .dll1OutDiv2, .dll2En, .dll2Stg, .dll2OutDiv2, .selSys, .selPeri, .selUsb, .hdiv, .pdiv1, .pdiv2]

/-- The clock field with a number (R124). -/
def ClkField.ofCode (b : BitVec 5) : Option ClkField := ClkField.all[b.toNat]?

/-- The bus master that issues an operation: HCPU for the families CLK, APLL and REV (R11). -/
def Instr.agent : Instr → Agent
  | .mbxRdier a _ _ | .mbxWrier a _ _ _ | .mbxTrig a _ _ _ | .mbxClr a _ _ _ | .mbxRaw a _ _ | .mbxPend a _ _
  | .mbxLock a _ _ | .mbxUnlock a _ _ => a
  | .busRdier a _ _ | .busWrier a _ _ _ | .busTrig a _ _ _ | .busClr a _ _ _ | .busRaw a _ _ | .busPend a _ _
  | .busLock a _ _ | .busUnlock a _ _ _ | .busRdItr a _ _ | .busRdIcr a _ _ | .busWrIsr a _ _ _
  | .busWrMisr a _ _ _ => a
  | .clkFreqHxt48 | .clkFreqHrc48 | .clkFreqClkDll1 | .clkFreqClkDll2 | .clkFreqClkSys | .clkFreqClkPeri
  | .clkFreqClkPeriDiv2 | .clkFreqHclk | .clkFreqPclk1 | .clkFreqPclk2 | .clkFreqClkUsb | .clkFreqClkAudPll
  | .clkCfg _ _ | .clkDump => .hcpu
  | .apllTake | .apllBgon | .apllAnaon | .apllDigon | .apllLfcfg | .apllCalstart | .apllCalstep | .apllCalrefine
  | .apllSdmprog _ | .apllLockchk | .apllFreqof _ | .apllCheck _ | .apllDrop | .apllMeas _ => .hcpu
  | .revRdid | .revClass _ | .revValid _ | .revLetter _ | .revPtype _ | .revInstall _ _ => .hcpu

/-! ### The fields of an `OPD32` descriptor (R121) -/

/-- `fam`, bits [31:28]. -/
def opdFam (w : Word) : BitVec 4 := w.extractLsb' 28 4

/-- `op`, bits [27:24]. -/
def opdOp (w : Word) : BitVec 4 := w.extractLsb' 24 4

/-- `agent`, bits [23:22]. -/
def opdAgent (w : Word) : BitVec 2 := w.extractLsb' 22 2

/-- `inst`, bit [21]. -/
def opdInst (w : Word) : BitVec 1 := w.extractLsb' 21 1

/-- `idx`, bits [20:16]. -/
def opdIdx (w : Word) : BitVec 5 := w.extractLsb' 16 5

/-- `imm16`, bits [15:0]. -/
def opdImm (w : Word) : BitVec 16 := w.extractLsb' 0 16

/-- A descriptor put together from its fields (R121). -/
def opdWord (fam op : BitVec 4) (agent : BitVec 2) (inst : BitVec 1) (idx : BitVec 5) (imm : BitVec 16) : Word :=
  fam ++ op ++ agent ++ inst ++ idx ++ imm

/-! ### Decoding a descriptor -/

/-- `CLK.FREQ` by node number (R124). -/
def clkFreqTable : List Instr :=
  [.clkFreqHxt48, .clkFreqHrc48, .clkFreqClkDll1, .clkFreqClkDll2, .clkFreqClkSys, .clkFreqClkPeri,
   .clkFreqClkPeriDiv2, .clkFreqHclk, .clkFreqPclk1, .clkFreqPclk2, .clkFreqClkUsb, .clkFreqClkAudPll]

/-- Family CLK, opcodes 0x10 to 0x12 (R123). -/
def decodeClk (op : BitVec 4) (idx : BitVec 5) (imm : BitVec 16) : Except DecodeError Instr :=
  if op = 0#4 then
    if imm = 0#16 then
      match clkFreqTable[idx.toNat]? with
      | some i => .ok i
      | none => .error .indexRange
    else .error .unusedField
  else if op = 1#4 then
    match ClkField.ofCode idx with
    | some f => if imm.toNat < 2 ^ Config.fieldWidth f then .ok (.clkCfg f imm) else .error .valueRange
    | none => .error .indexRange
  else if op = 2#4 then
    if idx = 0#5 ∧ imm = 0#16 then .ok .clkDump else .error .unusedField
  else .error .badOp

/-- The operations of family APLL that take no operand, by `op` (R123). -/
def apllPlain (op : BitVec 4) : Option Instr :=
  if op = 0x0#4 then some .apllTake
  else if op = 0x1#4 then some .apllBgon
  else if op = 0x2#4 then some .apllAnaon
  else if op = 0x3#4 then some .apllDigon
  else if op = 0x4#4 then some .apllLfcfg
  else if op = 0x5#4 then some .apllCalstart
  else if op = 0x6#4 then some .apllCalstep
  else if op = 0x7#4 then some .apllCalrefine
  else if op = 0x9#4 then some .apllLockchk
  else if op = 0xC#4 then some .apllDrop
  else none

/-- Family APLL, opcodes 0x20 to 0x2D (R123). -/
def decodeApll (op : BitVec 4) (idx : BitVec 5) (imm : BitVec 16) : Except DecodeError Instr :=
  match apllPlain op with
  | some i => if idx = 0#5 ∧ imm = 0#16 then .ok i else .error .unusedField
  | none =>
    if op = 0x8#4 then
      if imm ≠ 0#16 then .error .unusedField
      else if h : idx.toNat < 3 then .ok (.apllSdmprog ⟨idx.toNat, h⟩) else .error .indexRange
    else if op = 0xA#4 then
      if imm ≠ 0#16 then .error .unusedField
      else if h : idx.toNat < 11 then .ok (.apllFreqof ⟨idx.toNat, h⟩) else .error .indexRange
    else if op = 0xB#4 then
      if imm ≠ 0#16 then .error .unusedField
      else if h : idx.toNat < 11 then .ok (.apllCheck ⟨idx.toNat, h⟩) else .error .indexRange
    else if op = 0xD#4 then
      if imm = 0#16 then .ok (.apllMeas idx) else .error .unusedField
    else .error .badOp

/-- The operations of family MBX that take no mask, by `op` (R123). -/
def mbxMaskless (op : BitVec 4) (a : Agent) (i : MbxInst) (c : BitVec 5) : Option Instr :=
  if op = 0x0#4 then some (.mbxRdier a i c)
  else if op = 0x4#4 then some (.mbxRaw a i c)
  else if op = 0x5#4 then some (.mbxPend a i c)
  else if op = 0x6#4 then some (.mbxLock a i c)
  else if op = 0x7#4 then some (.mbxUnlock a i c)
  else none

/-- Family MBX, opcodes 0x30 to 0x37 (R123). -/
def decodeMbx (op : BitVec 4) (a : Agent) (i : MbxInst) (c : BitVec 5) (imm : BitVec 16) : Except DecodeError Instr :=
  match mbxMaskless op a i c with
  | some j => if imm = 0#16 then .ok j else .error .unusedField
  | none =>
    if op = 0x1#4 then .ok (.mbxWrier a i c imm)
    else if op = 0x2#4 then .ok (.mbxTrig a i c imm)
    else if op = 0x3#4 then .ok (.mbxClr a i c imm)
    else .error .badOp

/-- The classification operations of family REV, by `op` (R123). -/
def revOfByte (op : BitVec 4) (b : Byte) : Option Instr :=
  if op = 0x1#4 then some (.revClass b)
  else if op = 0x2#4 then some (.revValid b)
  else if op = 0x3#4 then some (.revLetter b)
  else if op = 0x4#4 then some (.revPtype b)
  else none

/-- Family REV, opcodes 0x40 to 0x45 (R123, R126 (a)). -/
def decodeRev (op : BitVec 4) (idx : BitVec 5) (imm : BitVec 16) (record code : List Byte) : Except DecodeError Instr :=
  if idx ≠ 0#5 then .error .unusedField
  else
    match revOfByte op (imm.extractLsb' 0 8) with
    | some j => if imm.extractLsb' 8 8 = 0#8 then .ok j else .error .byteRange
    | none =>
      if op = 0x0#4 then if imm = 0#16 then .ok .revRdid else .error .unusedField
      else if op = 0x5#4 then if imm = 0#16 then .ok (.revInstall record code) else .error .unusedField
      else .error .badOp

/-- Decodes a descriptor with the byte lists beside it (R121, R123, R129). -/
def decodeOpd (w : Word) (record code : List Byte) : Except DecodeError Instr :=
  match Agent.ofCode (opdAgent w) with
  | none => .error .noAgent
  | some a =>
    if (record ≠ [] ∨ code ≠ []) ∧ ¬ (opdFam w = 4#4 ∧ opdOp w = 5#4) then .error .strayOperands
    else if opdFam w = 3#4 then decodeMbx (opdOp w) a (MbxInst.ofBit (opdInst w)) (opdIdx w) (opdImm w)
    else if opdFam w = 1#4 ∨ opdFam w = 2#4 ∨ opdFam w = 4#4 then
      if a ≠ .hcpu then .error .notHcpu
      else if opdInst w ≠ 0#1 then .error .unusedField
      else if opdFam w = 1#4 then decodeClk (opdOp w) (opdIdx w) (opdImm w)
      else if opdFam w = 2#4 then decodeApll (opdOp w) (opdIdx w) (opdImm w)
      else decodeRev (opdOp w) (opdIdx w) (opdImm w) record code
    else .error .badFamily

/-! ### Decoding a bus transaction -/

/-- The `MBXBUS` decode of `{W, off[4:0]}` (R122, R123, R128), the reserved accesses included. -/
def mbxBusInstr (op : BitVec 6) (a : Agent) (i : MbxInst) (c : BitVec 5) (data : Word) : Option Instr :=
  if op = 0x00#6 then some (.busRdier a i c)
  else if op = 0x20#6 then some (.busWrier a i c data)
  else if op = 0x24#6 then some (.busTrig a i c data)
  else if op = 0x28#6 then some (.busClr a i c data)
  else if op = 0x0C#6 then some (.busRaw a i c)
  else if op = 0x10#6 then some (.busPend a i c)
  else if op = 0x14#6 then some (.busLock a i c)
  else if op = 0x34#6 then some (.busUnlock a i c data)
  else if op = 0x04#6 then some (.busRdItr a i c)
  else if op = 0x08#6 then some (.busRdIcr a i c)
  else if op = 0x2C#6 then some (.busWrIsr a i c data)
  else if op = 0x30#6 then some (.busWrMisr a i c data)
  else none

/-- The byte address of register `k` of channel `c` of an instance at `base` (R97). -/
def busAddress (base c : Nat) (k : MbxReg) : Nat := base + c * Config.mbxStride + Config.mbxOff k

/-- Resolves a byte address of the memory map against given bases, channel counts and `CHIPID` address (R97): the channel
and the offset inside it, or nothing where the address is in no block. Addresses are natural numbers and do not wrap: the spec
gives them no width (log entry 21). -/
def resolveAbs (base n : MbxInst → Nat) (chip a : Nat) : Option BusAddr :=
  if base .mbx1 ≤ a ∧ a < base .mbx1 + n .mbx1 * Config.mbxStride then
    some (.mailbox .mbx1 ((a - base .mbx1) / Config.mbxStride) ((a - base .mbx1) % Config.mbxStride))
  else if base .mbx2 ≤ a ∧ a < base .mbx2 + n .mbx2 * Config.mbxStride then
    some (.mailbox .mbx2 ((a - base .mbx2) / Config.mbxStride) ((a - base .mbx2) % Config.mbxStride))
  else if a = chip then some .chipId
  else none

/-- A transaction to channel `c`, offset `off`, of instance `i`: misaligned offsets and those of no register are refused
(R92, R97, R122). -/
def decodeMailboxAt (a : Agent) (write : Bool) (i : MbxInst) (c off : Nat) (data : Word) : Except DecodeError Instr :=
  if off % 4 ≠ 0 then .error .busAlign
  else if 16 ≤ c ∨ 32 ≤ off then .error .busNoRegister
  else
    match mbxBusInstr ((if write then 1#1 else 0#1) ++ BitVec.ofNat 5 off) a i (BitVec.ofNat 5 c) data with
    | some j => .ok j
    | none => .error .busNoRegister

/-- A transaction to `CHIPID`: a read is `REV.RDID`, of HCPU alone (R11, R75); a write is a reserved access (R128). -/
def decodeChipIdAt (a : Agent) (write : Bool) : Except DecodeError Instr :=
  if write then .error .busReserved else if a = .hcpu then .ok .revRdid else .error .notHcpu

/-- Decodes a bus transaction of master `a` (R92, R97, R122). -/
def decodeBus (a : Agent) (t : BusTx) : Except DecodeError Instr :=
  if t.size ≠ 4 then .error .busWidth
  else
    match t.addr with
    | .mailbox i c off => decodeMailboxAt a t.write i c off t.data
    | .chipId => decodeChipIdAt a t.write
    | .absolute x =>
      if x % 4 ≠ 0 then .error .busAlign
      else
        match resolveAbs Config.mbxBase Config.nch Config.chipIdAddr x with
        | some (.mailbox i c off) => decodeMailboxAt a t.write i c off t.data
        | some .chipId => decodeChipIdAt a t.write
        | some (.absolute _) => .error .busNoRegister
        | none => .error .busNoRegister

/-- Decodes an operation as it reaches the machine. -/
def decode : Encoded → Except DecodeError Instr
  | .opd w record code => decodeOpd w record code
  | .bus a t => decodeBus a t

/-! ### Encoding -/

/-- The descriptor of an operation of HCPU alone, no byte list beside it. -/
def encodeHcpu (fam op : BitVec 4) (idx : BitVec 5) (imm : BitVec 16) : Encoded :=
  .opd (opdWord fam op Agent.hcpu.code 0#1 idx imm) [] []

/-- The descriptor of a mailbox operation. -/
def encodeMbx (op : BitVec 4) (a : Agent) (i : MbxInst) (c : BitVec 5) (m : BitVec 16) : Encoded :=
  .opd (opdWord 3#4 op a.code i.bit c m) [] []

/-- The transaction of a mailbox register access (R122). -/
def encodeBus (write : Bool) (k : MbxReg) (a : Agent) (i : MbxInst) (c : BitVec 5) (data : Word) : Encoded :=
  .bus a { write := write, size := 4, addr := .mailbox i c.toNat (Config.mbxOff k), data := data }

/-- The encoding of an operation, from the table of R123. -/
def encode : Instr → Encoded
  | .clkFreqHxt48 => encodeHcpu 1#4 0x0#4 0#5 0#16
  | .clkFreqHrc48 => encodeHcpu 1#4 0x0#4 1#5 0#16
  | .clkFreqClkDll1 => encodeHcpu 1#4 0x0#4 2#5 0#16
  | .clkFreqClkDll2 => encodeHcpu 1#4 0x0#4 3#5 0#16
  | .clkFreqClkSys => encodeHcpu 1#4 0x0#4 4#5 0#16
  | .clkFreqClkPeri => encodeHcpu 1#4 0x0#4 5#5 0#16
  | .clkFreqClkPeriDiv2 => encodeHcpu 1#4 0x0#4 6#5 0#16
  | .clkFreqHclk => encodeHcpu 1#4 0x0#4 7#5 0#16
  | .clkFreqPclk1 => encodeHcpu 1#4 0x0#4 8#5 0#16
  | .clkFreqPclk2 => encodeHcpu 1#4 0x0#4 9#5 0#16
  | .clkFreqClkUsb => encodeHcpu 1#4 0x0#4 10#5 0#16
  | .clkFreqClkAudPll => encodeHcpu 1#4 0x0#4 11#5 0#16
  | .clkCfg f v => encodeHcpu 1#4 0x1#4 f.code v
  | .clkDump => encodeHcpu 1#4 0x2#4 0#5 0#16
  | .apllTake => encodeHcpu 2#4 0x0#4 0#5 0#16
  | .apllBgon => encodeHcpu 2#4 0x1#4 0#5 0#16
  | .apllAnaon => encodeHcpu 2#4 0x2#4 0#5 0#16
  | .apllDigon => encodeHcpu 2#4 0x3#4 0#5 0#16
  | .apllLfcfg => encodeHcpu 2#4 0x4#4 0#5 0#16
  | .apllCalstart => encodeHcpu 2#4 0x5#4 0#5 0#16
  | .apllCalstep => encodeHcpu 2#4 0x6#4 0#5 0#16
  | .apllCalrefine => encodeHcpu 2#4 0x7#4 0#5 0#16
  | .apllSdmprog k => encodeHcpu 2#4 0x8#4 (BitVec.ofNat 5 k.val) 0#16
  | .apllLockchk => encodeHcpu 2#4 0x9#4 0#5 0#16
  | .apllFreqof sr => encodeHcpu 2#4 0xA#4 (BitVec.ofNat 5 sr.val) 0#16
  | .apllCheck sr => encodeHcpu 2#4 0xB#4 (BitVec.ofNat 5 sr.val) 0#16
  | .apllDrop => encodeHcpu 2#4 0xC#4 0#5 0#16
  | .apllMeas code => encodeHcpu 2#4 0xD#4 code 0#16
  | .mbxRdier a i c => encodeMbx 0x0#4 a i c 0#16
  | .mbxWrier a i c m => encodeMbx 0x1#4 a i c m
  | .mbxTrig a i c m => encodeMbx 0x2#4 a i c m
  | .mbxClr a i c m => encodeMbx 0x3#4 a i c m
  | .mbxRaw a i c => encodeMbx 0x4#4 a i c 0#16
  | .mbxPend a i c => encodeMbx 0x5#4 a i c 0#16
  | .mbxLock a i c => encodeMbx 0x6#4 a i c 0#16
  | .mbxUnlock a i c => encodeMbx 0x7#4 a i c 0#16
  | .revRdid => encodeHcpu 4#4 0x0#4 0#5 0#16
  | .revClass b => encodeHcpu 4#4 0x1#4 0#5 (b.setWidth 16)
  | .revValid b => encodeHcpu 4#4 0x2#4 0#5 (b.setWidth 16)
  | .revLetter b => encodeHcpu 4#4 0x3#4 0#5 (b.setWidth 16)
  | .revPtype b => encodeHcpu 4#4 0x4#4 0#5 (b.setWidth 16)
  | .revInstall record code => .opd (opdWord 4#4 0x5#4 Agent.hcpu.code 0#1 0#5 0#16) record code
  | .busRdier a i c => encodeBus false .ier a i c 0#32
  | .busWrier a i c w => encodeBus true .ier a i c w
  | .busTrig a i c w => encodeBus true .itr a i c w
  | .busClr a i c w => encodeBus true .icr a i c w
  | .busRaw a i c => encodeBus false .isr a i c 0#32
  | .busPend a i c => encodeBus false .misr a i c 0#32
  | .busLock a i c => encodeBus false .exr a i c 0#32
  | .busUnlock a i c w => encodeBus true .exr a i c w
  | .busRdItr a i c => encodeBus false .itr a i c 0#32
  | .busRdIcr a i c => encodeBus false .icr a i c 0#32
  | .busWrIsr a i c w => encodeBus true .isr a i c w
  | .busWrMisr a i c w => encodeBus true .misr a i c w

/-! ### The opcode table's words -/

/-- A bare `MBXBUS` value as a transaction. The six bits carry no master, instance, channel or data (R122); the model
gives a bare value HCPU, `MAILBOX1`, channel 0 and the data word 1, the data `MBX.UNLOCK` writes (R248). -/
def tableBusTx (w : Nat) : BusTx :=
  { write := w.testBit 5, size := 4, addr := .mailbox .mbx1 0 (w % 32), data := Config.exrUnlock }

/-- The operation the decoder reads from a row's bits: 32 bits are a descriptor with empty byte lists beside it, 8 bits an
`MBXBUS` value. -/
def decodeTableWord (nbits w : Nat) : Option Instr :=
  if nbits ≤ 8 then
    if w < 64 then (decodeBus .hcpu (tableBusTx w)).toOption else none
  else if nbits = 32 then
    if w < 2 ^ 32 then (decodeOpd (BitVec.ofNat 32 w) [] []).toOption else none
  else none

end Sys2Proof
end

