-- ==== Sys2Proof/Machine/State.lean ====
section
/-! DEFINITION. The state of the machine as plain data (R30), the outcomes' reasons, and the state right after reset
(R380 to R387). Beside the state the spec gives the blocks it holds what the spec calls the agents' side of a run: the
programs of the bus masters, the result each was last handed, the environment's steps, and who moves next (R9, R16, R17,
R20). -/

namespace Sys2Proof.Machine

/-- Why the machine stops with a fault. -/
inductive Fault where
  /-- Raised by a turn given to a bus master that a fatal precondition violation has stopped (R331, R20): that master executes
  nothing further, and the run cannot end normally. The violation itself is a next state in which the master is
  stopped, so that the other masters continue. Safe: nothing is claimed of what follows. -/
  | fatal (a : Agent) (cause : FatalCause)
  deriving DecidableEq, Repr

/-- Why the model gives a step no meaning. -/
inductive Refusal where
  /-- Raised by exec for an instruction that has no meaning yet. Safe. -/
  | notModelled (mnemonic : String)
  /-- Raised at issue for a descriptor or a transaction that stands for no operation (R129, R92, R97, R128). Safe. -/
  | illegal (e : DecodeError)
  /-- Raised at issue for an operation or event in the program of a bus master that is not the one it names (R121). Safe. -/
  | agentMismatch
  /-- Raised by the reserved register accesses of R128. Safe: no value and no effect is given. -/
  | reservedAccess
  /-- Raised by a bus transaction to a channel the addressed instance does not have (R97, U12). Safe. -/
  | noRegister
  /-- Raised by `CLK.FREQ` of `hclk`, `pclk1`, `pclk2` while `hdiv` is 0 (R167, U5). Safe. -/
  | zeroDivider
  /-- Raised by an audio-PLL operation whose required state does not hold (R192, U9). Safe. -/
  | outOfState
  /-- Raised by `REV.INSTALL` while the LCPU runs or an install is under way (R400, U7). Safe. -/
  | installWindow
  deriving DecidableEq, Repr

/-! ### The mailbox register file -/

/-- The stored registers of one mailbox channel: `IER` (R32), `ISR` (R33), `EX` (R37) and `ID` (R38). -/
structure Channel where
  ier : BitVec 16
  isr : BitVec 16
  ex : Bool
  id : BitVec 2
  deriving DecidableEq, Repr

/-- A channel at reset (R381). -/
def Channel.reset : Channel := { ier := 0#16, isr := 0#16, ex := true, id := 0#2 }

/-! ### Clock control fields -/

/-- The clock control fields (R52 to R57). -/
structure ClkRegs where
  hxt48Rdy : Bool
  hrc48Rdy : Bool
  dll1En : Bool
  dll1Stg : BitVec 4
  dll1OutDiv2 : Bool
  dll2En : Bool
  dll2Stg : BitVec 4
  dll2OutDiv2 : Bool
  selSys : BitVec 2
  selPeri : BitVec 1
  selUsb : BitVec 1
  hdiv : BitVec 8
  pdiv1 : BitVec 3
  pdiv2 : BitVec 3
  deriving DecidableEq, Repr

/-- DESIGN CHOICE, unsafe (log entry 1): the spec leaves all fourteen unspecified at reset (R382); the model holds them at 0. -/
def ClkRegs.reset : ClkRegs :=
  { hxt48Rdy := false, hrc48Rdy := false, dll1En := false, dll1Stg := 0#4, dll1OutDiv2 := false, dll2En := false,
    dll2Stg := 0#4, dll2OutDiv2 := false, selSys := 0#2, selPeri := 0#1, selUsb := 0#1, hdiv := 0#8, pdiv1 := 0#3,
    pdiv2 := 0#3 }

/-! ### Audio-PLL fields -/

/-- The audio-PLL sequencer registers and fields (R45, R46, R59 to R68). -/
structure ApllRegs where
  st : PllState
  code : BitVec 5
  step : BitVec 4
  taken : Bool
  enBg : Bool
  enAna : Bool
  enDig : Bool
  lfCfg : Bool
  fcVco : BitVec 5
  calEn : Bool
  calDone : Bool
  calCnt : BitVec 16
  fcw : BitVec 4
  sdin : BitVec 20
  sdmFcw : BitVec 4
  sdmSdin : BitVec 20
  lockDet : Bool
  lockWarn : Bool
  freqSel : Option (Fin 3)
  calFin : Bool
  deriving DecidableEq, Repr

/-- The audio-PLL registers at reset (R383, R386). DESIGN CHOICE, unsafe (log entry 1), for the elements the spec leaves
unspecified: `code`, `step`, `fc_vco`, `cal_cnt`, `fcw`, `sdin`, `sdm_fcw`, `sdm_sdin` and `lock_det` are held at 0. -/
def ApllRegs.reset : ApllRegs :=
  { st := .uninitialized, code := 0#5, step := 0#4, taken := false, enBg := false, enAna := false, enDig := false,
    lfCfg := false, fcVco := 0#5, calEn := false, calDone := false, calCnt := 0#16, fcw := 0#4, sdin := 0#20,
    sdmFcw := 0#4, sdmSdin := 0#20, lockDet := false, lockWarn := false, freqSel := none, calFin := false }

/-! ### Patch memory -/

/-- Patch memory (R76): the bytes that differ from what they held at reset, by strictly rising address (log entry 5). -/
abbrev Memory := List Host.Cell

/-- What an unlisted address reads as: the byte it held at reset, a free value stable until written (R385, R387, U15). -/
abbrev Memory.unlisted (a : Nat) : Byte := Config.memReset a

/-- The canonical form: addresses strictly rising, and no entry equal to what an unlisted address reads as. -/
abbrev Memory.wf (m : Memory) : Prop :=
  m.Pairwise (fun x y => x.1 < y.1) ∧ ∀ p ∈ m, p.2 ≠ Memory.unlisted p.1

/-! ### What the agents are handed and what they issue -/

/-- What `CLK.DUMP` reports of one node (R176). -/
inductive DumpLine where
  /-- The node's frequency. -/
  | freq (f : Frequency)
  /-- The node is absent. -/
  | disabled
  /-- The query is refused (`hdiv` is 0). -/
  | refused
  deriving DecidableEq, Repr

/-- What an operation hands back to the agent that issued it (R16). -/
inductive Result where
  /-- Nothing was handed back yet. -/
  | none
  /-- The operation completed and hands back nothing. -/
  | done
  /-- A register's value. -/
  | word (v : Word)
  /-- A calibration count. -/
  | count (n : BitVec 16)
  /-- The frequency of a clock node, or its absence. -/
  | freq (f : Option Frequency)
  /-- The report of `CLK.DUMP`. -/
  | dump (lines : List (ClkNode × DumpLine))
  /-- An index into `APLL_TABLE`. -/
  | index (k : Fin 3)
  /-- A bit or a truth value. -/
  | bit (b : Bool)
  /-- A classified revision. -/
  | revision (r : ChipRevision)
  /-- A patch type, or none. -/
  | patch (p : Option PatchType)
  /-- A decoded lock result. -/
  | lock (l : LockCore)
  /-- `Ok` of the installer. -/
  | ok
  /-- A recoverable error (R332). -/
  | error (c : ErrorCause)
  deriving DecidableEq, Repr

/-- The pseudo-operations (R134). Channel and bit numbers are unbounded here: the range check is part of the operation
(R335). -/
inductive Pseudo where
  | trigb (i : MbxInst) (c b : Nat)
  | en (i : MbxInst) (c : Nat) (m : BitVec 16)
  | dis (i : MbxInst) (c : Nat) (m : BitVec 16)
  | enb (i : MbxInst) (c b : Nat)
  | disb (i : MbxInst) (c b : Nat)
  | ispend (i : MbxInst) (c b : Nat)
  | clrb (i : MbxInst) (c b : Nat)
  | tryacq (i : MbxInst) (c : Nat)
  | status (i : MbxInst) (c : Nat)
  | cal
  | new (k : Fin 3)
  | read
  deriving DecidableEq, Repr

/-- One item of a bus master's program (R20). -/
inductive Item where
  /-- A descriptor with the byte lists passed beside it (R132). -/
  | opd (w : Word) (record code : List Byte)
  /-- A bus transaction of this master (R122). -/
  | bus (t : BusTx)
  /-- The event `RELEASE_LCPU` of HCPU (R81). -/
  | release
  /-- A pseudo-operation (R134). -/
  | pseudo (p : Pseudo)
  /-- The operations left of a pseudo-operation under way, one a turn (R134, R346). -/
  | ops (is : List Instr)
  /-- The unlock left of an `MBX.STATUS` whose read `v` took the mutex (R256). -/
  | statusRelease (i : MbxInst) (c : BitVec 5) (v : Word)
  deriving DecidableEq, Repr

/-- A bus master as the machine sees it: the rest of its program and its interrupt handler's program (R20, R355), the result
it was last handed (R16), and the fatal violation that stopped it, if one did (R331). -/
structure AgentState where
  prog : List Item
  handler : List Item
  result : Result
  stopped : Option FatalCause
  deriving DecidableEq, Repr

/-- A bus master with no program. -/
def AgentState.reset : AgentState := { prog := [], handler := [], result := .none, stopped := none }

/-- One step of the environment: a status input takes a value (R9, R133), the calibration window ends, which sets `cal_done` (R62;
the environment never clears it, R72), or the wait for `cal_done` expires (R342). -/
inductive EnvEvent where
  | hxt48Rdy (b : Bool)
  | hrc48Rdy (b : Bool)
  | calDone
  | calCnt (n : BitVec 16)
  | lockDet (b : Bool)
  | expire
  deriving DecidableEq, Repr

/-- Who moves next (R20): a bus master issues its next operation, a core enters its interrupt handler (R355), or the
environment takes its next step. -/
inductive Turn where
  | agent (a : Agent)
  | handler (a : Agent)
  | env
  deriving DecidableEq, Repr

/-- The state of the machine (R30). The last eight fields are the agents' and the model's own: `sdmTrace` is the trace of
events emitted to the analog block (R210), `env` the steps the environment has yet to take, `envGaps` those of its steps
that fall between the reads of one `CLK.DUMP` (R107), `turns` the interleaving of the run (R20), and `draws` how many free
answers were drawn (R17). -/
structure State where
  mbx1 : Vector Channel 16
  mbx2 : Vector Channel 16
  clk : ClkRegs
  audPllCache : Option Frequency
  apll : ApllRegs
  chipId : Word
  mem : Memory
  iphase : InstallPhase
  lcpuRun : Bool
  sdmTrace : List SdmEvent
  hcpu : AgentState
  lcpu : AgentState
  bcpu : AgentState
  env : List EnvEvent
  envGaps : List (List EnvEvent)
  turns : List Turn
  draws : Nat
  deriving DecidableEq, Repr

/-- The state a run starts in (R380 to R387), with no program and no step scheduled (log entry 3). -/
def State.reset : State :=
  { mbx1 := Vector.replicate 16 Channel.reset
    mbx2 := Vector.replicate 16 Channel.reset
    clk := ClkRegs.reset
    audPllCache := none
    apll := ApllRegs.reset
    chipId := Config.chipId
    mem := []
    iphase := .idle
    lcpuRun := false
    sdmTrace := []
    hcpu := AgentState.reset
    lcpu := AgentState.reset
    bcpu := AgentState.reset
    env := []
    envGaps := []
    turns := []
    draws := 0 }

end Sys2Proof.Machine
end

