-- ==== Sys2Proof/Machine/Operands.lean ====
section
/-! DEFINITION. How operands and values are assembled and taken apart: masks (R125), register values (R126), the lock result
(R135), the letter-series header (R302), the sample-rate families (R197) and the field-extraction primitive (R131). -/

namespace Sys2Proof.Machine

/-- The mask of a single-bit form, `1 << b` (R125). -/
def bitMask (b : Nat) : BitVec 16 := 1#16 <<< b

/-- The active field of a mailbox datum: data bits [31:16] are ignored (R127). -/
def low16 (w : Word) : BitVec 16 := w.extractLsb' 0 16

/-- The read value of a 16-bit field: bits [31:16] read 0 (R127). -/
def zext32 (v : BitVec 16) : Word := v.setWidth 32

/-- The value of the exclusive register, `{0^29, ID, EX}` (R126 (c)). -/
def exrValue (ch : Channel) : Word :=
  ch.id.setWidth 32 <<< Config.exrIdBit ||| (BitVec.ofBool ch.ex).setWidth 32 <<< Config.exrExBit

/-- `EX` of an exclusive-register value or datum (R126 (c)). -/
def exBit (v : Word) : Bool := v.getLsbD Config.exrExBit

/-- `ID` of an exclusive-register value (R126 (c)). -/
def idField (v : Word) : BitVec 2 := v.extractLsb' Config.exrIdBit 2

/-- The owner a 2-bit ID names (R38, R135). -/
def lockOwner (id : BitVec 2) : LockCore :=
  if id = Agent.hcpu.code then .hcpu else if id = Agent.lcpu.code then .lcpu
  else if id = Agent.bcpu.code then .bcpu else .unlocked

/-- Decodes the value a lock read returned: `EX` decides, then the owner (R135). -/
def lockCoreOf (v : Word) : LockCore :=
  if exBit v then .unlocked else lockOwner (idField v)

/-- The revision byte of a chip ID word (R126 (a)). -/
def revisionByte (w : Word) : Byte := w.extractLsb' Config.chipIdRevisionBit 8

/-- The package ID of a chip ID word (R126 (b)). -/
def packageOf (w : Word) : Byte := w.extractLsb' Config.chipIdPackageBit 8

/-- The company ID of a chip ID word (R126 (b)). -/
def companyOf (w : Word) : Byte := w.extractLsb' Config.chipIdCompanyBit 8

/-- The series ID of a chip ID word (R126 (b)). -/
def seriesOf (w : Word) : Byte := w.extractLsb' Config.chipIdSeriesBit 8

/-- The four bytes of a word in little-endian order (R91). -/
def le32 (w : Word) : List Byte :=
  [w.extractLsb' 0 8, w.extractLsb' 8 8, w.extractLsb' 16 8, w.extractLsb' 24 8]

/-- The 12-byte header of the letter-series layout (R302, R126 (d)). -/
def letterHeader (L : Config.PatchMap) : List Byte :=
  le32 Config.patchMagic ++ le32 L.lsEntryCount ++ le32 (L.lsCode ||| 1#32)

/-- The `APLL_TABLE` index that serves a sample rate (R197). -/
def rateFamily (sr : Fin 11) : Fin 3 := if Config.sampleRate sr % 11025 = 0 then 1 else 0

/-- The 256-bit value held as eight words, the first the least significant (R131). -/
def value256 : List Word → Nat
  | [] => 0
  | w :: ws => w.toNat + 2 ^ 32 * value256 ws

/-- Bit-field extraction over a multi-word value; nothing where the field has no admitted width or runs past bit 255
(R131, U14). -/
def field256 (ws : List Word) (start width : Nat) : Option Nat :=
  if 1 ≤ width ∧ width ≤ 32 ∧ start + width ≤ 256 then some (value256 ws / 2 ^ start % 2 ^ width) else none

end Sys2Proof.Machine
end

