-- ==== Sys2Proof/Machine/Flags.lean ====
section
/-! DEFINITION. The derived status the spec names (R72): the masked status of a channel, the interrupt lines, and the
deviation the calibration compares. None of it is stored. -/

namespace Sys2Proof.Machine

/-- The masked status `MISR = ISR & IER` (R34). -/
def Channel.misr (ch : Channel) : BitVec 16 := ch.isr &&& ch.ier

/-- The interrupt output of a channel (R40). -/
def Channel.irq (ch : Channel) : Bool := decide (ch.misr ≠ 0#16)

/-- Whether instance `i` has channel `c`, that is `c < NCH[i]` (R31); the first four channels exist in either kind. -/
def chanOk (i : MbxInst) (c : Nat) : Bool := decide (c < 4) || (decide (c < 16) && Config.nchIs16 i)

/-- The register file of an instance. -/
def State.inst (s : State) : MbxInst → Vector Channel 16
  | .mbx1 => s.mbx1
  | .mbx2 => s.mbx2

/-- The registers of channel `c` of instance `i` (R31). -/
def State.channel (s : State) (i : MbxInst) (c : Nat) : Channel := (s.inst i)[c]?.getD Channel.reset

/-- The interrupt level of an instance, the OR of its channels (R40). -/
def State.irq (s : State) (i : MbxInst) : Bool :=
  (List.range 16).any fun c => chanOk i c && (s.channel i c).irq

/-- Whether an interrupt level reaches core `a` (R352). -/
def State.irqTo (s : State) (a : Agent) : Bool :=
  [MbxInst.mbx1, MbxInst.mbx2].any fun i => decide (Config.irqTarget i = a) && s.irq i

/-- The absolute deviation of a count from the target (R208). -/
def deviation (n : BitVec 16) : Nat := (n.toNat - Config.calTarget) + (Config.calTarget - n.toNat)

/-- The smallest of a deviation and one that may not exist (R208). -/
def leastDeviation (d : Nat) : Option Nat → Nat
  | none => d
  | some e => min d e

end Sys2Proof.Machine
end

