-- ==== Sys2Proof/Machine/Ops.lean ====
section
/-! DEFINITION. The shared operations every meaning is built from: handing back a result, raising a fatal violation, an error
or the warning (R331 to R333), mailbox register transactions (R15, R41), patch memory (R76, R91, R95), the steps of the
environment (R9, R133), one calibration measurement (R203), and the entry of an interrupt handler (R355). -/

namespace Sys2Proof.Machine

/-- What a step answers. -/
abbrev Out := Host.Outcome State Fault Refusal

/-! ### Bus masters -/

/-- A bus master. -/
def State.agent (s : State) : Agent → AgentState
  | .hcpu => s.hcpu
  | .lcpu => s.lcpu
  | .bcpu => s.bcpu

/-- Replaces a bus master. -/
def State.setAgent (s : State) (a : Agent) (x : AgentState) : State :=
  match a with
  | .hcpu => { s with hcpu := x }
  | .lcpu => { s with lcpu := x }
  | .bcpu => { s with bcpu := x }

/-- Hands a result to a bus master (R16). -/
def State.withResult (s : State) (a : Agent) (r : Result) : State :=
  s.setAgent a { s.agent a with result := r }

/-- Replaces the rest of a bus master's program. -/
def State.withProg (s : State) (a : Agent) (p : List Item) : State :=
  s.setAgent a { s.agent a with prog := p }

/-- Puts an item before the rest of a bus master's program. -/
def State.pushItem (s : State) (a : Agent) (it : Item) : State := s.withProg a (it :: (s.agent a).prog)

/-- The operation completes and hands back `r`. -/
def answer (a : Agent) (r : Result) (s : State) : Out := .next (s.withResult a r)

/-! ### The three classes of failure -/

/-- `raise Fatal(cause)`: no state changes but that the issuing master stops; the others continue (R331). -/
def raiseFatal (a : Agent) (cause : FatalCause) (s : State) : Out :=
  .next (s.setAgent a { s.agent a with stopped := some cause })

/-- `raise Error(cause)`: the error is the operation's result and the master goes on (R332). -/
def raiseError (a : Agent) (cause : ErrorCause) (s : State) : Out := answer a (.error cause) s

/-- `warn(cause)`: the warning is recorded and the operation goes on (R333). -/
def warn (c : WarnCause) (s : State) : State :=
  match c with
  | .pllNotLocked => { s with apll := { s.apll with lockWarn := true } }

/-! ### The mailbox register file -/

/-- Replaces the register file of an instance. -/
def State.setInst (s : State) (i : MbxInst) (v : Vector Channel 16) : State :=
  match i with
  | .mbx1 => { s with mbx1 := v }
  | .mbx2 => { s with mbx2 := v }

/-- Replaces the registers of one channel. -/
def State.setChannel (s : State) (i : MbxInst) (c : Nat) (ch : Channel) : State :=
  s.setInst i ((s.inst i).setIfInBounds c ch)

/-- What a claiming read leaves: the mutex taken by the reader (R247). -/
def Channel.claim (ch : Channel) (a : Agent) : Channel := { ch with ex := false, id := a.code }

/-- What an unlock write leaves (R248). -/
def Channel.release (ch : Channel) : Channel := { ch with ex := true, id := 0#2 }

/-- `RegRead(a, i, c, k)`: the value read and the state after its side effect, or nothing for the reserved reads of `ITR`
and `ICR` (R41, R94, R128). -/
def regRead (a : Agent) (i : MbxInst) (c : Nat) (k : MbxReg) (s : State) : Option (Word × State) :=
  let ch := s.channel i c
  match k with
  | .ier => some (zext32 ch.ier, s)
  | .isr => some (zext32 ch.isr, s)
  | .misr => some (zext32 ch.misr, s)
  | .exr => some (exrValue ch, if ch.ex then s.setChannel i c (ch.claim a) else s)
  | .itr => none
  | .icr => none

/-- `RegWrite(a, i, c, k, w)`: the state after the write, or nothing for the reserved writes of `ISR` and `MISR` and of `EXR`
whose datum does not set `EX` (R41, R94, R128). No write depends on the master (R360). -/
def regWrite (i : MbxInst) (c : Nat) (k : MbxReg) (w : Word) (s : State) : Option State :=
  let ch := s.channel i c
  match k with
  | .ier => some (s.setChannel i c { ch with ier := low16 w })
  | .itr => some (s.setChannel i c { ch with isr := ch.isr ||| low16 w })
  | .icr => some (s.setChannel i c { ch with isr := ch.isr &&& ~~~(low16 w) })
  | .exr => if exBit w then some (s.setChannel i c ch.release) else none
  | .isr => none
  | .misr => none

/-- A mailbox operation that reads register `k`, after the index check (R249). -/
def mbxRead (a : Agent) (i : MbxInst) (c : Nat) (k : MbxReg) (s : State) : Out :=
  if chanOk i c then
    match regRead a i c k s with
    | some (v, s') => answer a (.word v) s'
    | none => .refused .reservedAccess
  else raiseFatal a .indexOutOfRange s

/-- A mailbox operation that writes register `k`, after the index check (R249). -/
def mbxWrite (a : Agent) (i : MbxInst) (c : Nat) (k : MbxReg) (w : Word) (s : State) : Out :=
  if chanOk i c then
    match regWrite i c k w s with
    | some s' => answer a .done s'
    | none => .refused .reservedAccess
  else raiseFatal a .indexOutOfRange s

/-- A bus read of register `k`: where the instance has no such channel the transaction reaches no register (R97, U12). -/
def busRead (a : Agent) (i : MbxInst) (c : Nat) (k : MbxReg) (s : State) : Out :=
  if chanOk i c then
    match regRead a i c k s with
    | some (v, s') => answer a (.word v) s'
    | none => .refused .reservedAccess
  else .refused .noRegister

/-- A bus write of register `k` (R97, U12). -/
def busWrite (a : Agent) (i : MbxInst) (c : Nat) (k : MbxReg) (w : Word) (s : State) : Out :=
  if chanOk i c then
    match regWrite i c k w s with
    | some s' => answer a .done s'
    | none => .refused .reservedAccess
  else .refused .noRegister

/-! ### Patch memory -/

/-- The byte an address holds: what was last written there, else what it held at reset (R76, R385). -/
def Memory.read : Memory → Nat → Byte
  | [], a => Memory.unlisted a
  | (x, b) :: m, a => if x = a then b else Memory.read m a

/-- Takes the entry of an address out. -/
def Memory.erase (m : Memory) (a : Nat) : Memory := m.filter fun p => decide (p.1 ≠ a)

/-- Lists a byte before the first higher address. -/
def Memory.insert : Memory → Nat → Byte → Memory
  | [], a, v => [(a, v)]
  | (x, b) :: m, a, v => if a < x then (a, v) :: (x, b) :: m else (x, b) :: Memory.insert m a v

/-- Writes one byte, keeping the canonical form: a byte equal to what an unlisted address reads as is not listed. -/
def Memory.write (m : Memory) (a : Nat) (v : Byte) : Memory :=
  if v = Memory.unlisted a then m.erase a else (m.erase a).insert a v

/-- `MemWrite(addr, n, v)`: the bytes in ascending address order (R15, R305). -/
def Memory.writeBytes : Memory → Nat → List Byte → Memory
  | m, _, [] => m
  | m, a, b :: bs => Memory.writeBytes (m.write a b) (a + 1) bs

/-- `MemRead(addr, n)` (R15). -/
def Memory.readBytes (m : Memory) (a n : Nat) : List Byte :=
  (List.range n).map fun k => m.read (a + k)

/-! ### The environment -/

/-- A step of the environment on the status inputs (R9, R52, R53, R63, R65). `cal_done` rises only while a measurement is
requested (R62) and is never cleared here (R72). An expiry outside a wait does nothing. -/
def applyEnv (e : EnvEvent) (s : State) : State :=
  match e with
  | .hxt48Rdy b => { s with clk := { s.clk with hxt48Rdy := b } }
  | .hrc48Rdy b => { s with clk := { s.clk with hrc48Rdy := b } }
  | .calDone => { s with apll := { s.apll with calDone := s.apll.calDone || s.apll.calEn } }
  | .calCnt n => { s with apll := { s.apll with calCnt := n } }
  | .lockDet b => { s with apll := { s.apll with lockDet := b } }
  | .expire => s

/-- Several steps of the environment in order. -/
def applyEnvs : List EnvEvent → State → State
  | [], s => s
  | e :: es, s => applyEnvs es (applyEnv e s)

/-- What the environment does between two reads of an operation that reads more than once (R107). -/
def envGap (s : State) : State :=
  match s.envGaps with
  | [] => s
  | g :: gs => applyEnvs g { s with envGaps := gs }

/-- A turn of the environment: its next step, if it has one. -/
def envTurn (s : State) : State :=
  match s.env with
  | [] => s
  | e :: es => applyEnv e { s with env := es }

/-! ### One calibration measurement -/

/-- The outcome of a measurement: a value and the state after it, or the expiry of the wait and the state it left. -/
inductive Measured (α : Type) where
  | got (x : α) (s : State)
  | expired (s : State)

/-- The wait for `cal_done` (R203, R342): the environment steps until it sets the flag or lets the wait expire. Where it has
no step left its answer is a free value (R17, U18). The first component says that the flag was seen. -/
def awaitCal : List EnvEvent → State → Bool × State
  | [], s =>
    match Config.calDraw s.draws with
    | some n => (true, { s with env := [], draws := s.draws + 1, apll := { s.apll with calDone := true, calCnt := n } })
    | none => (false, { s with env := [], draws := s.draws + 1 })
  | e :: es, s =>
    if e = .expire then (false, { s with env := es })
    else if (applyEnv e s).apll.calDone then (true, { applyEnv e s with env := es })
    else awaitCal es (applyEnv e s)

/-- One measurement at a tuning code (R203). An expired wait leaves the state as it is, `cal_en` set (R216). -/
def measure (code : BitVec 5) (s : State) : Measured (BitVec 16) :=
  let s1 := { s with apll := { s.apll with fcVco := code, calDone := false, calEn := true } }
  match awaitCal s1.env s1 with
  | (true, s2) => .got s2.apll.calCnt { s2 with apll := { s2.apll with calEn := false } }
  | (false, s2) => .expired s2

/-- The deviation at a neighbouring code; one outside 0 to 31 is not measured and is no candidate (R208, D17). -/
def measureNeighbour (present : Bool) (code : BitVec 5) (s : State) : Measured (Option Nat) :=
  if present then
    match measure code s with
    | .got n s' => .got (some (deviation n)) s'
    | .expired s' => .expired s'
  else .got none s

/-! ### Interrupt entry -/

/-- A core enters its interrupt handler: allowed only while a level reaches it, and only to a core that runs (R355, R81,
R331); otherwise nothing happens. The handler's operations come before the rest of the core's program; the return is the
end of the handler's program (R356). -/
def enterHandler (a : Agent) (s : State) : State :=
  if s.irqTo a ∧ (s.agent a).stopped = none ∧ (a = .lcpu → s.lcpuRun = true) then
    s.withProg a ((s.agent a).handler ++ (s.agent a).prog)
  else s

end Sys2Proof.Machine
end

