-- ==== Sys2Proof/Machine/AudioPll.lean ====
section
/-! DEFINITION. Family APLL: the audio-PLL manager and its calibration trim search (41_audio_pll.md). All of it is issued by
HCPU (R11). An operation whose requirement of R191 does not hold is refused (R192). -/

namespace Sys2Proof.Machine

/-- The operation's effect where its requirement holds, a refusal elsewhere (R192). -/
def requiring (p : Bool) (k : Out) : Out := if p then k else .refused .outOfState

/-- `APLL.TAKE`: the compare-and-swap on `taken` (R198). -/
def execApllTake (s : State) : Out :=
  if s.apll.taken then raiseFatal .hcpu .doubleConstruct s
  else
    requiring (s.apll.st = .uninitialized)
      (answer .hcpu .done { s with apll := { s.apll with taken := true } })

/-- `APLL.BGON` (R199). -/
def execApllBgon (s : State) : Out :=
  requiring (s.apll.st = .uninitialized && s.apll.taken)
    (answer .hcpu .done { s with apll := { s.apll with enBg := true, st := .bandgapEnabled } })

/-- `APLL.ANAON` (R200). -/
def execApllAnaon (s : State) : Out :=
  requiring (s.apll.st = .bandgapEnabled)
    (answer .hcpu .done { s with apll := { s.apll with enAna := true, st := .analogPllEnabled } })

/-- `APLL.DIGON` (R201). -/
def execApllDigon (s : State) : Out :=
  requiring (s.apll.st = .analogPllEnabled)
    (answer .hcpu .done { s with apll := { s.apll with enDig := true, st := .digitalPllEnabled } })

/-- `APLL.LFCFG` (R202). -/
def execApllLfcfg (s : State) : Out :=
  requiring (s.apll.st = .digitalPllEnabled && !s.apll.lfCfg)
    (answer .hcpu .done { s with apll := { s.apll with lfCfg := true } })

/-- `APLL.CALSTART` (R204). -/
def execApllCalstart (s : State) : Out :=
  requiring (s.apll.st = .digitalPllEnabled && s.apll.lfCfg)
    (answer .hcpu .done
      { s with apll := { s.apll with code := Config.fcInit, step := Config.stepInit, calFin := false,
                                     st := .openLoopCalibrating } })

/-- `APLL.MEAS code` (R203). -/
def execApllMeas (code : BitVec 5) (s : State) : Out :=
  requiring (s.apll.st = .openLoopCalibrating)
    (match measure code s with
     | .got n s' => answer .hcpu (.count n) s'
     | .expired s' => raiseError .hcpu .timeout s')

/-- Where the search moves on count `n` (R205, R206). -/
def nextCode (n : BitVec 16) (code : BitVec 5) (step : BitVec 4) : BitVec 5 :=
  if n.toNat < Config.calTarget then code + step.setWidth 5
  else if Config.calTarget < n.toNat then code - step.setWidth 5
  else code

/-- `APLL.CALSTEP`: one iteration of the binary search (R205). -/
def execApllCalstep (s : State) : Out :=
  requiring (s.apll.st = .openLoopCalibrating && s.apll.step != 0#4)
    (match measure s.apll.code s with
     | .got n s' =>
       answer .hcpu .done
         { s' with apll := { s'.apll with code := nextCode n s'.apll.code s'.apll.step, step := s'.apll.step >>> 1 } }
     | .expired s' => raiseError .hcpu .timeout s')

/-- The code the refinement chooses: ties go to the lower neighbour, then the higher, then the converged code (R208). -/
def refinedCode (c0 : BitVec 5) (dMid : Nat) (dLo dHi : Option Nat) : BitVec 5 :=
  let m := leastDeviation (leastDeviation dMid dLo) dHi
  if dLo = some m then c0 - 1#5 else if dHi = some m then c0 + 1#5 else c0

/-- `APLL.CALREFINE`: the neighbour refinement (R208). -/
def execApllCalrefine (s : State) : Out :=
  requiring (s.apll.st = .openLoopCalibrating && s.apll.step == 0#4 && !s.apll.calFin)
    (match measure s.apll.code s with
     | .expired s1 => raiseError .hcpu .timeout s1
     | .got n s1 =>
       match measureNeighbour (s.apll.code != 0#5) (s.apll.code - 1#5) s1 with
       | .expired s2 => raiseError .hcpu .timeout s2
       | .got dLo s2 =>
         match measureNeighbour (s.apll.code != 31#5) (s.apll.code + 1#5) s2 with
         | .expired s3 => raiseError .hcpu .timeout s3
         | .got dHi s3 =>
           answer .hcpu .done
             { s3 with apll := { s3.apll with code := refinedCode s.apll.code (deviation n) dLo dHi,
                                              fcVco := refinedCode s.apll.code (deviation n) dLo dHi,
                                              calFin := true } })

/-- `APLL.SDMPROG k`: programs the divider pair, pulses the SDM and latches the pair (R210). -/
def execApllSdmprog (k : Fin 3) (s : State) : Out :=
  requiring (s.apll.st = .openLoopCalibrating && s.apll.calFin && s.apll.freqSel == none)
    (answer .hcpu .done
      { s with
        apll := { s.apll with fcw := Config.apllFcw k, sdin := Config.apllSdin k, sdmFcw := Config.apllFcw k,
                              sdmSdin := Config.apllSdin k, freqSel := some k }
        sdmTrace := s.sdmTrace ++ [.sdmReset, .sdmRelease, .sdmReset] })

/-- Completion of bring-up for the frequency `k` (R212). -/
def completeBringUp (k : Fin 3) (s : State) : State :=
  { s with audPllCache := some (Config.apllHz k), apll := { s.apll with st := .closedLoopLocked } }

/-- `APLL.LOCKCHK`: a missing lock is only a warning (R211). -/
def execApllLockchk (s : State) : Out :=
  match s.apll.freqSel with
  | none => .refused .outOfState
  | some k =>
    requiring (s.apll.st = .openLoopCalibrating)
      (answer .hcpu (.bit s.apll.lockDet)
        (completeBringUp k (if s.apll.lockDet then s else warn .pllNotLocked s)))

/-- `APLL.FREQOF sr` (R197). -/
def execApllFreqof (sr : Fin 11) (s : State) : Out := answer .hcpu (.index (rateFamily sr)) s

/-- `APLL.CHECK sr` (R213). -/
def execApllCheck (sr : Fin 11) (s : State) : Out :=
  match s.apll.freqSel with
  | none => .refused .outOfState
  | some k =>
    requiring (s.apll.st = .closedLoopLocked)
      (if rateFamily sr = k then answer .hcpu .done s else raiseFatal .hcpu .pllIncompatible s)

/-- `APLL.DROP`: teardown (R215). -/
def execApllDrop (s : State) : Out :=
  requiring s.apll.taken
    (answer .hcpu .done
      { s with
        audPllCache := none
        apll := { s.apll with enDig := false, enAna := false, enBg := false, lfCfg := false, calEn := false,
                              calFin := false, freqSel := none, lockWarn := false, st := .uninitialized,
                              taken := false } })

end Sys2Proof.Machine
end

