-- ==== Sys2Proof/Machine/Clock.lean ====
section
/-! DEFINITION. Family CLK: the clock-tree resolver, the field write and the dump (40_clock_tree.md). All of it is issued by
HCPU (R11). -/

namespace Sys2Proof.Machine

/-! ### The frequency of each node -/

/-- An oscillator: a constant gated by its ready bit (R155, R156). -/
def gated (rdy : Bool) (f : Frequency) : Option Frequency := if rdy then some f else none

/-- DLL arithmetic (R159). -/
def dllFreq (en : Bool) (stg : BitVec 4) (outDiv2 : Bool) : Option Frequency :=
  if en then some (Config.fDllRef * (stg.toNat + 1) / (1 + (if outDiv2 then 1 else 0))) else none

/-- `hxt48` (R155). -/
def freqHxt48 (r : ClkRegs) : Option Frequency := gated r.hxt48Rdy Config.fHxt48

/-- `hrc48` (R156). -/
def freqHrc48 (r : ClkRegs) : Option Frequency := gated r.hrc48Rdy Config.fHrc48

/-- `clk_dll1` (R157). -/
def freqDll1 (r : ClkRegs) : Option Frequency := dllFreq r.dll1En r.dll1Stg r.dll1OutDiv2

/-- `clk_dll2` (R158). -/
def freqDll2 (r : ClkRegs) : Option Frequency := dllFreq r.dll2En r.dll2Stg r.dll2OutDiv2

/-- The node a multiplexer chose (R161). -/
def freqLeaf (r : ClkRegs) : ClkLeaf → Option Frequency
  | .hxt48 => freqHxt48 r
  | .hrc48 => freqHrc48 r
  | .dll1 => freqDll1 r
  | .dll2 => freqDll2 r

/-- `clk_sys` (R163). -/
def freqClkSys (r : ClkRegs) : Option Frequency :=
  match Config.muxSys r.selSys with
  | some l => freqLeaf r l
  | none => none

/-- `clk_peri` (R164). -/
def freqClkPeri (r : ClkRegs) : Option Frequency := freqLeaf r (Config.muxPeri r.selPeri)

/-- `clk_peri_div2` (R166). -/
def freqClkPeriDiv2 (r : ClkRegs) : Option Frequency := (freqClkPeri r).map (· / 2)

/-- `clk_usb` (R165). -/
def freqClkUsb (r : ClkRegs) : Option Frequency :=
  match Config.muxUsb r.selUsb with
  | .clkSys => freqClkSys r
  | .leaf l => freqLeaf r l

/-- `hclk`; the outer `none` is the refusal of a zero divider (R167). -/
def freqHclk (r : ClkRegs) : Option (Option Frequency) :=
  if r.hdiv = 0#8 then none else some ((freqClkSys r).map (· / r.hdiv.toNat))

/-- `pclk1` (R168). -/
def freqPclk1 (r : ClkRegs) : Option (Option Frequency) :=
  (freqHclk r).map fun f => f.map (· >>> r.pdiv1.toNat)

/-- `pclk2` (R169). -/
def freqPclk2 (r : ClkRegs) : Option (Option Frequency) :=
  (freqHclk r).map fun f => f.map (· >>> r.pdiv2.toNat)

/-- The query of a node by name: `none` is a refusal, `some none` an absent node (R150, R152). -/
def freqOf (n : ClkNode) (s : State) : Option (Option Frequency) :=
  match n with
  | .hxt48 => some (freqHxt48 s.clk)
  | .hrc48 => some (freqHrc48 s.clk)
  | .clkDll1 => some (freqDll1 s.clk)
  | .clkDll2 => some (freqDll2 s.clk)
  | .clkSys => some (freqClkSys s.clk)
  | .clkPeri => some (freqClkPeri s.clk)
  | .clkPeriDiv2 => some (freqClkPeriDiv2 s.clk)
  | .hclk => freqHclk s.clk
  | .pclk1 => freqPclk1 s.clk
  | .pclk2 => freqPclk2 s.clk
  | .clkUsb => some (freqClkUsb s.clk)
  | .clkAudPll => some s.audPllCache

/-- Hands a query's answer to HCPU (R150). -/
def answerFreq (q : Option (Option Frequency)) (s : State) : Out :=
  match q with
  | some f => answer .hcpu (.freq f) s
  | none => .refused .zeroDivider

/-! ### The field write and the dump -/

/-- Writes a named field, the value truncated to its width (R175, R126 (e)). -/
def setClkField (f : ClkField) (v : BitVec 16) (r : ClkRegs) : ClkRegs :=
  match f with
  | .dll1En => { r with dll1En := v.getLsbD 0 }
  | .dll1Stg => { r with dll1Stg := v.setWidth 4 }
  | .dll1OutDiv2 => { r with dll1OutDiv2 := v.getLsbD 0 }
  | .dll2En => { r with dll2En := v.getLsbD 0 }
  | .dll2Stg => { r with dll2Stg := v.setWidth 4 }
  | .dll2OutDiv2 => { r with dll2OutDiv2 := v.getLsbD 0 }
  | .selSys => { r with selSys := v.setWidth 2 }
  | .selPeri => { r with selPeri := v.setWidth 1 }
  | .selUsb => { r with selUsb := v.setWidth 1 }
  | .hdiv => { r with hdiv := v.setWidth 8 }
  | .pdiv1 => { r with pdiv1 := v.setWidth 3 }
  | .pdiv2 => { r with pdiv2 := v.setWidth 3 }

/-- The line `CLK.DUMP` reports for a query's answer (R176). -/
def dumpLine : Option (Option Frequency) → DumpLine
  | none => .refused
  | some none => .disabled
  | some (some f) => .freq f

/-- The nodes after the first, each queried after what the environment does in between (R176, R107). -/
def dumpRest : List ClkNode → State → List (ClkNode × DumpLine) × State
  | [], s => ([], s)
  | n :: ns, s =>
    let r := dumpRest ns (envGap s)
    ((n, dumpLine (freqOf n (envGap s))) :: r.1, r.2)

/-- The report of `CLK.DUMP` and the state the environment leaves (R176, R107). -/
def dump (s : State) : List (ClkNode × DumpLine) × State :=
  let r := dumpRest [.hrc48, .clkDll1, .clkDll2, .clkSys, .clkPeri, .clkPeriDiv2, .hclk, .pclk1, .pclk2, .clkUsb,
    .clkAudPll] s
  ((.hxt48, dumpLine (freqOf .hxt48 s)) :: r.1, r.2)

/-! ### The meanings -/

/-- `CLK.FREQ hxt48` (R155). -/
def execClkFreqHxt48 (s : State) : Out := answerFreq (some (freqHxt48 s.clk)) s

/-- `CLK.FREQ hrc48` (R156). -/
def execClkFreqHrc48 (s : State) : Out := answerFreq (some (freqHrc48 s.clk)) s

/-- `CLK.FREQ clk_dll1` (R157). -/
def execClkFreqClkDll1 (s : State) : Out := answerFreq (some (freqDll1 s.clk)) s

/-- `CLK.FREQ clk_dll2` (R158). -/
def execClkFreqClkDll2 (s : State) : Out := answerFreq (some (freqDll2 s.clk)) s

/-- `CLK.FREQ clk_sys` (R163). -/
def execClkFreqClkSys (s : State) : Out := answerFreq (some (freqClkSys s.clk)) s

/-- `CLK.FREQ clk_peri` (R164). -/
def execClkFreqClkPeri (s : State) : Out := answerFreq (some (freqClkPeri s.clk)) s

/-- `CLK.FREQ clk_peri_div2` (R166). -/
def execClkFreqClkPeriDiv2 (s : State) : Out := answerFreq (some (freqClkPeriDiv2 s.clk)) s

/-- `CLK.FREQ hclk` (R167). -/
def execClkFreqHclk (s : State) : Out := answerFreq (freqHclk s.clk) s

/-- `CLK.FREQ pclk1` (R168). -/
def execClkFreqPclk1 (s : State) : Out := answerFreq (freqPclk1 s.clk) s

/-- `CLK.FREQ pclk2` (R169). -/
def execClkFreqPclk2 (s : State) : Out := answerFreq (freqPclk2 s.clk) s

/-- `CLK.FREQ clk_usb` (R165). -/
def execClkFreqClkUsb (s : State) : Out := answerFreq (some (freqClkUsb s.clk)) s

/-- `CLK.FREQ clk_aud_pll` (R170). -/
def execClkFreqClkAudPll (s : State) : Out := answerFreq (some s.audPllCache) s

/-- `CLK.CFG field, value` (R175). -/
def execClkCfg (f : ClkField) (v : BitVec 16) (s : State) : Out :=
  answer .hcpu .done { s with clk := setClkField f v s.clk }

/-- `CLK.DUMP` (R176). -/
def execClkDump (s : State) : Out := answer .hcpu (.dump (dump s).1) (dump s).2

end Sys2Proof.Machine
end

