-- ==== Sys2Proof/Machine/Mailbox.lean ====
section
/-! DEFINITION. Family MBX: the mailbox operations (42_mailbox.md). Each is one register transaction after the index check
(R240, R249). -/

namespace Sys2Proof.Machine

/-- `MBX.RDIER i, c` (R241). -/
def execMbxRdier (a : Agent) (i : MbxInst) (c : BitVec 5) (s : State) : Out := mbxRead a i c.toNat .ier s

/-- `MBX.WRIER i, c, m` (R242). -/
def execMbxWrier (a : Agent) (i : MbxInst) (c : BitVec 5) (m : BitVec 16) (s : State) : Out :=
  mbxWrite a i c.toNat .ier (zext32 m) s

/-- `MBX.TRIG i, c, m` (R243). -/
def execMbxTrig (a : Agent) (i : MbxInst) (c : BitVec 5) (m : BitVec 16) (s : State) : Out :=
  mbxWrite a i c.toNat .itr (zext32 m) s

/-- `MBX.CLR i, c, m` (R245). -/
def execMbxClr (a : Agent) (i : MbxInst) (c : BitVec 5) (m : BitVec 16) (s : State) : Out :=
  mbxWrite a i c.toNat .icr (zext32 m) s

/-- `MBX.RAW i, c` (R244). -/
def execMbxRaw (a : Agent) (i : MbxInst) (c : BitVec 5) (s : State) : Out := mbxRead a i c.toNat .isr s

/-- `MBX.PEND i, c` (R246). -/
def execMbxPend (a : Agent) (i : MbxInst) (c : BitVec 5) (s : State) : Out := mbxRead a i c.toNat .misr s

/-- `MBX.LOCK i, c`: the test-and-set read (R247). -/
def execMbxLock (a : Agent) (i : MbxInst) (c : BitVec 5) (s : State) : Out := mbxRead a i c.toNat .exr s

/-- `MBX.UNLOCK i, c`: writes 0x00000001, the datum that sets `EX` alone (R248). -/
def execMbxUnlock (a : Agent) (i : MbxInst) (c : BitVec 5) (s : State) : Out := mbxWrite a i c.toNat .exr Config.exrUnlock s

end Sys2Proof.Machine
end

