-- ==== Sys2Proof/Machine/MailboxBus.lean ====
section
/-! DEFINITION. The bus forms of family MBX (R122, R123): the same register transactions as the block itself decodes them,
with the reserved accesses of R128. At this level a channel the instance lacks is no register (R97, U12). -/

namespace Sys2Proof.Machine

/-- Read at offset 0x00, `MBX.RDIER` (R241). -/
def execBusRdier (a : Agent) (i : MbxInst) (c : BitVec 5) (s : State) : Out := busRead a i c.toNat .ier s

/-- Write at offset 0x00, `MBX.WRIER`: data bits [31:16] are ignored (R242, R127). -/
def execBusWrier (a : Agent) (i : MbxInst) (c : BitVec 5) (w : Word) (s : State) : Out := busWrite a i c.toNat .ier w s

/-- Write at offset 0x04, `MBX.TRIG` (R243, R127). -/
def execBusTrig (a : Agent) (i : MbxInst) (c : BitVec 5) (w : Word) (s : State) : Out := busWrite a i c.toNat .itr w s

/-- Write at offset 0x08, `MBX.CLR` (R245, R127). -/
def execBusClr (a : Agent) (i : MbxInst) (c : BitVec 5) (w : Word) (s : State) : Out := busWrite a i c.toNat .icr w s

/-- Read at offset 0x0C, `MBX.RAW` (R244). -/
def execBusRaw (a : Agent) (i : MbxInst) (c : BitVec 5) (s : State) : Out := busRead a i c.toNat .isr s

/-- Read at offset 0x10, `MBX.PEND` (R246). -/
def execBusPend (a : Agent) (i : MbxInst) (c : BitVec 5) (s : State) : Out := busRead a i c.toNat .misr s

/-- Read at offset 0x14, `MBX.LOCK` (R247). -/
def execBusLock (a : Agent) (i : MbxInst) (c : BitVec 5) (s : State) : Out := busRead a i c.toNat .exr s

/-- Write at offset 0x14, `MBX.UNLOCK` where data bit 0 is 1, a reserved access where it is 0 (R248, R128). -/
def execBusUnlock (a : Agent) (i : MbxInst) (c : BitVec 5) (w : Word) (s : State) : Out := busWrite a i c.toNat .exr w s

/-- Read at offset 0x04: a reserved access (R128, U1). -/
def execBusRdItr (a : Agent) (i : MbxInst) (c : BitVec 5) (s : State) : Out := busRead a i c.toNat .itr s

/-- Read at offset 0x08: a reserved access (R128, U2). -/
def execBusRdIcr (a : Agent) (i : MbxInst) (c : BitVec 5) (s : State) : Out := busRead a i c.toNat .icr s

/-- Write at offset 0x0C: a reserved access (R128, U3). -/
def execBusWrIsr (a : Agent) (i : MbxInst) (c : BitVec 5) (w : Word) (s : State) : Out := busWrite a i c.toNat .isr w s

/-- Write at offset 0x10: a reserved access (R128, U3). -/
def execBusWrMisr (a : Agent) (i : MbxInst) (c : BitVec 5) (w : Word) (s : State) : Out := busWrite a i c.toNat .misr w s

end Sys2Proof.Machine
end

