-- ==== Sys2Proof/Machine/Revision.lean ====
section
/-! DEFINITION. Family REV: the chip-revision comparator and the patch installer (43_chip_revision.md). All of it is issued
by HCPU (R11). -/

namespace Sys2Proof.Machine

/-! ### The comparator -/

/-- The classification of a revision byte (R292). -/
def classify (b : Byte) : ChipRevision :=
  if b.toNat ≤ Config.revIdA3Last.toNat then .a3OrEarlier b
  else if b = Config.revIdA4 then .a4
  else if b = Config.revIdB4 then .b4
  else .invalid b

/-- Whether a revision is valid (R293). -/
def revisionValid : ChipRevision → Bool
  | .a3OrEarlier _ => true
  | .a4 => true
  | .b4 => true
  | .invalid _ => false

/-- Letter-series membership (R294). -/
def revisionLetter : ChipRevision → Bool
  | .a3OrEarlier _ => false
  | .a4 => true
  | .b4 => true
  | .invalid _ => false

/-- The associated patch type (R295). -/
def revisionPatch : ChipRevision → Option PatchType
  | .a3OrEarlier _ => some .a3
  | .a4 => some .letterSeries
  | .b4 => some .letterSeries
  | .invalid _ => none

/-! ### The installer, phase by phase -/

/-- The capacity of the selected code region (R300). -/
def codeCapacity (L : Config.PatchMap) : PatchType → Nat
  | .a3 => L.a3CodeMax
  | .letterSeries => L.lsCodeMax

/-- The address of the selected code region (R296). -/
def codeAddr (L : Config.PatchMap) : PatchType → Nat
  | .a3 => L.a3Code
  | .letterSeries => L.lsCode.toNat

/-- The first write: the record on the A3 path, the header on the letter-series path (R301, R302). -/
def installHead (L : Config.PatchMap) (p : PatchType) (record : List Byte) (s : State) : State :=
  match p with
  | .a3 => { s with mem := s.mem.writeBytes L.a3Record record, iphase := .recordWritten }
  | .letterSeries => { s with mem := s.mem.writeBytes L.lsBuf (letterHeader L), iphase := .headerWritten }

/-- The second write: zeroes the code region (R301, R302). -/
def installZero (L : Config.PatchMap) (p : PatchType) (s : State) : State :=
  { s with mem := s.mem.writeBytes (codeAddr L p) (List.replicate (codeCapacity L p) 0#8), iphase := .zeroed }

/-- The third write: copies the code blob (R301, R302). -/
def installCode (L : Config.PatchMap) (p : PatchType) (code : List Byte) (s : State) : State :=
  { s with mem := s.mem.writeBytes (codeAddr L p) code, iphase := .done }

/-- The writes of an install whose checks passed, in the order of R305, and the return to `Idle` (R303). -/
def installWrites (L : Config.PatchMap) (p : PatchType) (record code : List Byte) (s : State) : State :=
  { installCode L p code (installZero L p (installHead L p record { s with iphase := .checked })) with iphase := .idle }

/-- The installer on given layouts: the window (R306, R400), the checks in their order (R297 to R300), the writes. -/
def installWith (L : Config.PatchMap) (record code : List Byte) (s : State) : Out :=
  if s.lcpuRun = true ∨ s.iphase ≠ .idle then .refused .installWindow
  else if record = [] then raiseError .hcpu .emptyRecord s
  else if code = [] then raiseError .hcpu .emptyCode s
  else
    match revisionPatch (classify (revisionByte s.chipId)) with
    | none => raiseError .hcpu .invalidRevision s
    | some p =>
      if codeCapacity L p < code.length then raiseError .hcpu .codeTooLarge s
      else answer .hcpu .ok (installWrites L p record code s)

/-! ### The meanings -/

/-- `REV.RDID` (R291). -/
def execRevRdid (s : State) : Out := answer .hcpu (.word s.chipId) s

/-- `REV.CLASS b` (R292). -/
def execRevClass (b : Byte) (s : State) : Out := answer .hcpu (.revision (classify b)) s

/-- `REV.VALID b` (R293). -/
def execRevValid (b : Byte) (s : State) : Out := answer .hcpu (.bit (revisionValid (classify b))) s

/-- `REV.LETTER b` (R294). -/
def execRevLetter (b : Byte) (s : State) : Out := answer .hcpu (.bit (revisionLetter (classify b))) s

/-- `REV.PTYPE b` (R295). -/
def execRevPtype (b : Byte) (s : State) : Out := answer .hcpu (.patch (revisionPatch (classify b))) s

/-- `REV.INSTALL record, code` (R297). -/
def execRevInstall (record code : List Byte) (s : State) : Out := installWith Config.patchMap record code s

end Sys2Proof.Machine
end

