-- ==== Sys2Proof/Machine/Dispatch.lean ====
section
/-! DEFINITION. The meaning of each operation: one arm per constructor of `Instr`. -/

namespace Sys2Proof.Machine

def exec (i : Instr) (s : State) : Host.Outcome State Fault Refusal :=
  match i with
  | .clkFreqHxt48 => Sys2Proof.Machine.execClkFreqHxt48 s
  | .clkFreqHrc48 => Sys2Proof.Machine.execClkFreqHrc48 s
  | .clkFreqClkDll1 => Sys2Proof.Machine.execClkFreqClkDll1 s
  | .clkFreqClkDll2 => Sys2Proof.Machine.execClkFreqClkDll2 s
  | .clkFreqClkSys => Sys2Proof.Machine.execClkFreqClkSys s
  | .clkFreqClkPeri => Sys2Proof.Machine.execClkFreqClkPeri s
  | .clkFreqClkPeriDiv2 => Sys2Proof.Machine.execClkFreqClkPeriDiv2 s
  | .clkFreqHclk => Sys2Proof.Machine.execClkFreqHclk s
  | .clkFreqPclk1 => Sys2Proof.Machine.execClkFreqPclk1 s
  | .clkFreqPclk2 => Sys2Proof.Machine.execClkFreqPclk2 s
  | .clkFreqClkUsb => Sys2Proof.Machine.execClkFreqClkUsb s
  | .clkFreqClkAudPll => Sys2Proof.Machine.execClkFreqClkAudPll s
  | .clkCfg f v => Sys2Proof.Machine.execClkCfg f v s
  | .clkDump => Sys2Proof.Machine.execClkDump s
  | .apllTake => Sys2Proof.Machine.execApllTake s
  | .apllBgon => Sys2Proof.Machine.execApllBgon s
  | .apllAnaon => Sys2Proof.Machine.execApllAnaon s
  | .apllDigon => Sys2Proof.Machine.execApllDigon s
  | .apllLfcfg => Sys2Proof.Machine.execApllLfcfg s
  | .apllCalstart => Sys2Proof.Machine.execApllCalstart s
  | .apllCalstep => Sys2Proof.Machine.execApllCalstep s
  | .apllCalrefine => Sys2Proof.Machine.execApllCalrefine s
  | .apllSdmprog k => Sys2Proof.Machine.execApllSdmprog k s
  | .apllLockchk => Sys2Proof.Machine.execApllLockchk s
  | .apllFreqof sr => Sys2Proof.Machine.execApllFreqof sr s
  | .apllCheck sr => Sys2Proof.Machine.execApllCheck sr s
  | .apllDrop => Sys2Proof.Machine.execApllDrop s
  | .apllMeas code => Sys2Proof.Machine.execApllMeas code s
  | .mbxRdier a n c => Sys2Proof.Machine.execMbxRdier a n c s
  | .mbxWrier a n c m => Sys2Proof.Machine.execMbxWrier a n c m s
  | .mbxTrig a n c m => Sys2Proof.Machine.execMbxTrig a n c m s
  | .mbxClr a n c m => Sys2Proof.Machine.execMbxClr a n c m s
  | .mbxRaw a n c => Sys2Proof.Machine.execMbxRaw a n c s
  | .mbxPend a n c => Sys2Proof.Machine.execMbxPend a n c s
  | .mbxLock a n c => Sys2Proof.Machine.execMbxLock a n c s
  | .mbxUnlock a n c => Sys2Proof.Machine.execMbxUnlock a n c s
  | .revRdid => Sys2Proof.Machine.execRevRdid s
  | .revClass b => Sys2Proof.Machine.execRevClass b s
  | .revValid b => Sys2Proof.Machine.execRevValid b s
  | .revLetter b => Sys2Proof.Machine.execRevLetter b s
  | .revPtype b => Sys2Proof.Machine.execRevPtype b s
  | .revInstall record code => Sys2Proof.Machine.execRevInstall record code s
  | .busRdier a n c => Sys2Proof.Machine.execBusRdier a n c s
  | .busWrier a n c w => Sys2Proof.Machine.execBusWrier a n c w s
  | .busTrig a n c w => Sys2Proof.Machine.execBusTrig a n c w s
  | .busClr a n c w => Sys2Proof.Machine.execBusClr a n c w s
  | .busRaw a n c => Sys2Proof.Machine.execBusRaw a n c s
  | .busPend a n c => Sys2Proof.Machine.execBusPend a n c s
  | .busLock a n c => Sys2Proof.Machine.execBusLock a n c s
  | .busUnlock a n c w => Sys2Proof.Machine.execBusUnlock a n c w s
  | .busRdItr a n c => Sys2Proof.Machine.execBusRdItr a n c s
  | .busRdIcr a n c => Sys2Proof.Machine.execBusRdIcr a n c s
  | .busWrIsr a n c w => Sys2Proof.Machine.execBusWrIsr a n c w s
  | .busWrMisr a n c w => Sys2Proof.Machine.execBusWrMisr a n c w s

end Sys2Proof.Machine
end

