-- ==== Sys2Proof/Machine/Agents.lean ====
section
/-! DEFINITION. How a bus master moves: it takes the next item of its program, decodes it, and runs it (R16, R20). A
pseudo-operation runs its operations one a turn, so that other agents' operations may fall between them (R134); what is left
of it goes back to the head of the master's program. -/

namespace Sys2Proof.Machine

/-- The word a read handed to a bus master; 0 where its last result is no word. -/
def State.resultWord (s : State) (a : Agent) : Word :=
  match (s.agent a).result with
  | .word v => v
  | _ => 0#32

/-- Whether the operation just run ended in an error or stopped its master (R346). -/
def State.failed (s : State) (a : Agent) : Bool :=
  (s.agent a).stopped.isSome ||
    match (s.agent a).result with
    | .error _ => true
    | _ => false

/-- Runs what follows an operation that answered a next state; a failed operation ends the pseudo-operation (R346). -/
def andThen (a : Agent) (o : Out) (k : State → State) : Out :=
  match o with
  | .next s => .next (if s.failed a then s else k s)
  | .fault f => .fault f
  | .refused r => .refused r

/-- Runs the first of the operations left of a pseudo-operation and puts the others back (R134). An operation of another
master is refused (R129). -/
def runOps (a : Agent) (is : List Instr) (s : State) : Out :=
  match is with
  | [] => .next s
  | [i] => if i.agent = a then exec i s else .refused .agentMismatch
  | i :: j :: js =>
    if i.agent = a then andThen a (exec i s) fun t => t.pushItem a (.ops (j :: js)) else .refused .agentMismatch

/-- The channel and the bit a mailbox pseudo-operation names, for its range check (R134, R249). -/
def pseudoInRange : Pseudo → Bool
  | .trigb i c b => chanOk i c && decide (b < Config.nbit)
  | .en i c _ => chanOk i c
  | .dis i c _ => chanOk i c
  | .enb i c b => chanOk i c && decide (b < Config.nbit)
  | .disb i c b => chanOk i c && decide (b < Config.nbit)
  | .ispend i c b => chanOk i c && decide (b < Config.nbit)
  | .clrb i c b => chanOk i c && decide (b < Config.nbit)
  | .tryacq i c => chanOk i c
  | .status i c => chanOk i c
  | .cal => true
  | .new _ => true
  | .read => true

/-- The first half of `MBX.EN` and `MBX.DIS`: the read of `IER`, then the write of `f` of what it read is left (R251, R252). -/
def readModifyIer (a : Agent) (i : MbxInst) (c : BitVec 5) (f : BitVec 16 → BitVec 16) (s : State) : Out :=
  andThen a (exec (.mbxRdier a i c) s) fun t => t.pushItem a (.ops [.mbxWrier a i c (f (low16 (t.resultWord a)))])

/-- The operations of `APLL.CAL` (R134). -/
def calOps : List Instr :=
  [.apllCalstart, .apllCalstep, .apllCalstep, .apllCalstep, .apllCalstep, .apllCalrefine]

/-- The operations of `APLL.NEW k` (R134). -/
def newOps (k : Fin 3) : List Instr :=
  [.apllTake, .apllBgon, .apllAnaon, .apllDigon, .apllLfcfg] ++ calOps ++ [.apllSdmprog k, .apllLockchk]

/-- The first operation of a pseudo-operation whose range check passed, with what is left of it (R134, R251 to R256). -/
def startPseudo (a : Agent) (p : Pseudo) (s : State) : Out :=
  match p with
  | .trigb i c b => exec (.mbxTrig a i (BitVec.ofNat 5 c) (bitMask b)) s
  | .en i c m => readModifyIer a i (BitVec.ofNat 5 c) (fun e => e ||| m) s
  | .dis i c m => readModifyIer a i (BitVec.ofNat 5 c) (fun e => e &&& ~~~m) s
  | .enb i c b => readModifyIer a i (BitVec.ofNat 5 c) (fun e => e ||| bitMask b) s
  | .disb i c b => readModifyIer a i (BitVec.ofNat 5 c) (fun e => e &&& ~~~(bitMask b)) s
  | .ispend i c b =>
    andThen a (exec (.mbxPend a i (BitVec.ofNat 5 c)) s) fun t =>
      t.withResult a (.bit ((t.resultWord a).getLsbD b))
  | .clrb i c b => exec (.mbxClr a i (BitVec.ofNat 5 c) (bitMask b)) s
  | .tryacq i c =>
    andThen a (exec (.mbxLock a i (BitVec.ofNat 5 c)) s) fun t =>
      t.withResult a (.lock (lockCoreOf (t.resultWord a)))
  | .status i c =>
    andThen a (exec (.mbxLock a i (BitVec.ofNat 5 c)) s) fun t =>
      if exBit (t.resultWord a) then t.pushItem a (.statusRelease i (BitVec.ofNat 5 c) (t.resultWord a))
      else t.withResult a (.lock (lockCoreOf (t.resultWord a)))
  | .cal => runOps a calOps s
  | .new k => runOps a (newOps k) s
  | .read =>
    if a = .hcpu then
      andThen a (exec .revRdid s) fun t => t.pushItem a (.ops [.revClass (revisionByte (t.resultWord a))])
    else .refused .agentMismatch

/-- Runs an item of a bus master's program on the state it has been taken from. The master's identity is that of the program
the item stands in (R121, R122). -/
def runItem (a : Agent) (it : Item) (s : State) : Out :=
  match it with
  | .release => if a = .hcpu then .next { s with lcpuRun := true } else .refused .agentMismatch
  | .pseudo p => if pseudoInRange p then startPseudo a p s else raiseFatal a .indexOutOfRange s
  | .ops is => runOps a is s
  | .statusRelease i c v =>
    andThen a (exec (.mbxUnlock a i c) s) fun t => t.withResult a (.lock (lockCoreOf v))
  | .opd w record code =>
    match decode (.opd w record code) with
    | .error e => .refused (.illegal e)
    | .ok i => if i.agent = a then exec i s else .refused .agentMismatch
  | .bus t =>
    match decode (.bus a t) with
    | .error e => .refused (.illegal e)
    | .ok i => exec i s

/-- A turn of a bus master. A stopped master can take none (R331); a master whose program is at its end, and the LCPU while it
is held in reset (R81), let theirs pass. -/
def agentTurn (a : Agent) (s : State) : Out :=
  match (s.agent a).stopped with
  | some cause => .fault (.fatal a cause)
  | none =>
    if a = .lcpu ∧ s.lcpuRun = false then .next s
    else
      match (s.agent a).prog with
      | [] => .next s
      | it :: rest => runItem a it (s.withProg a rest)

/-- One turn of a run (R20). -/
def takeTurn (t : Turn) (s : State) : Out :=
  match t with
  | .agent a => agentTurn a s
  | .handler a => .next (enterHandler a s)
  | .env => .next (envTurn s)

/-- The bus master a row's word is issued by: the one its `agent` field names, HCPU where that is 0 or the word is an
`MBXBUS` value. -/
def fetchAgent (nbits w : Nat) : Agent :=
  if nbits ≤ 8 then .hcpu else (Agent.ofCode (opdAgent (BitVec.ofNat 32 w))).getD .hcpu

/-- The program item a row's word stands for, with empty byte lists beside a descriptor. -/
def fetchItem (nbits w : Nat) : Item :=
  if nbits ≤ 8 then .bus (tableBusTx w) else .opd (BitVec.ofNat 32 w) [] []

end Sys2Proof.Machine
end

