-- ==== Sys2Proof/Machine/Step.lean ====
section
/-! DEFINITION. One step of a run: the next turn of the interleaving is taken (R20). Where no turn is scheduled nobody moves
and the hardware keeps its state. `withFetchWord` places an operation as the next one to be issued. -/

namespace Sys2Proof.Machine

/-- One step of the machine. -/
def step (s : State) : Host.Outcome State Fault Refusal :=
  match s.turns with
  | [] => .next s
  | t :: ts => takeTurn t { s with turns := ts }

/-- Schedules bus master `a` to issue `it` next: the item heads its program, the next turn is its own, it is not stopped, and
the LCPU is out of reset where it is the master. -/
def State.scheduleItem (s : State) (a : Agent) (it : Item) : State :=
  { (s.setAgent a { s.agent a with prog := it :: (s.agent a).prog, stopped := none }) with
    turns := .agent a :: s.turns
    lcpuRun := s.lcpuRun || decide (a = .lcpu) }

/-- The state whose next step issues the operation of a row's word (log entry 3). -/
def State.withFetchWord (s : State) (nbits w : Nat) : State :=
  s.scheduleItem (fetchAgent nbits w) (fetchItem nbits w)

end Sys2Proof.Machine
end

