-- ==== Sys2Proof/Safety.lean ====
section
/-! DEFINITION. What counts as a good state and a good run, in the words the statements use: the normal end of a run, the
mutex invariant, the invariants of the audio-PLL sequencer, and what an operation may do to the raw status. -/

namespace Sys2Proof.Machine

/-- The end of a run: every master's program is at its end and none was stopped by a fatal violation (R20). -/
def State.endsNormally (s : State) : Bool :=
  [Agent.hcpu, .lcpu, .bcpu].all fun a => (s.agent a).prog.isEmpty && (s.agent a).stopped.isNone

/-- The mutex pair of every channel agrees: `EX = 1` exactly when `ID = 0` (R39). -/
def State.MutexOk (s : State) : Prop :=
  ∀ (i : MbxInst) (c : Nat), (s.channel i c).ex = true ↔ (s.channel i c).id = 0#2

/-- Patch memory is in its canonical form. -/
def State.MemOk (s : State) : Prop := s.mem.wf

/-- How far a state of the audio-PLL chain is along it (R45). -/
def pllRank : PllState → Nat
  | .uninitialized => 0
  | .bandgapEnabled => 1
  | .analogPllEnabled => 2
  | .digitalPllEnabled => 3
  | .openLoopCalibrating => 4
  | .closedLoopLocked => 5

/-- The enables and sub-state bits agree with the state of the chain (R60, R191): each enable is on exactly from its own step
on, the singleton flag is held from the first step on, the loop filter is configured before calibration, a frequency is
chosen only after calibration finished, and the warning is set only while running. -/
structure ChainOk (r : ApllRegs) : Prop where
  bg : r.enBg = decide (1 ≤ pllRank r.st)
  ana : r.enAna = decide (2 ≤ pllRank r.st)
  dig : r.enDig = decide (3 ≤ pllRank r.st)
  taken : 1 ≤ pllRank r.st → r.taken = true
  lfOn : 4 ≤ pllRank r.st → r.lfCfg = true
  lfOff : r.lfCfg = true → 3 ≤ pllRank r.st
  fin : r.calFin = true → 4 ≤ pllRank r.st
  sel : r.freqSel ≠ none → r.calFin = true
  run : pllRank r.st = 5 → r.freqSel ≠ none
  warned : r.lockWarn = true → pllRank r.st = 5

/-- The binary search stays in range (R46, R207): the step is 8, 4, 2, 1 or 0, the code is as far from either end as the steps
left can move it, and a converged code is at least 1 until the refinement has chosen. -/
def SearchOk (r : ApllRegs) : Prop :=
  r.st = .openLoopCalibrating →
    (r.step = 8#4 ∧ r.code = 16#5 ∧ r.calFin = false) ∨
    (r.step = 4#4 ∧ 8 ≤ r.code.toNat ∧ r.code.toNat ≤ 24 ∧ r.calFin = false) ∨
    (r.step = 2#4 ∧ 4 ≤ r.code.toNat ∧ r.code.toNat ≤ 28 ∧ r.calFin = false) ∨
    (r.step = 1#4 ∧ 2 ≤ r.code.toNat ∧ r.code.toNat ≤ 30 ∧ r.calFin = false) ∨
    (r.step = 0#4 ∧ (r.calFin = false → 1 ≤ r.code.toNat))

/-- The frequency cache holds the configured frequency exactly while the PLL runs (R58, R170, R212, R215). -/
def State.CacheOk (s : State) : Prop :=
  (s.apll.st = .closedLoopLocked → ∃ k, s.apll.freqSel = some k ∧ s.audPllCache = some (Config.apllHz k)) ∧
  (s.apll.st ≠ .closedLoopLocked → s.audPllCache = none)

/-- The audio-PLL invariant. -/
def State.PllOk (s : State) : Prop := ChainOk s.apll ∧ SearchOk s.apll ∧ s.CacheOk

/-- Everything is as before but the audio-PLL registers, the result HCPU was handed, the environment's lists and counter, and
the two ready bits the environment drives: what a calibration measurement may leave (R203, R216). -/
structure CalibratingOnly (s t : State) : Prop where
  clk : t.clk = { s.clk with hxt48Rdy := t.clk.hxt48Rdy, hrc48Rdy := t.clk.hrc48Rdy }
  cache : t.audPllCache = s.audPllCache
  channels : ∀ (i : MbxInst) (c : Nat), t.channel i c = s.channel i c
  chipId : t.chipId = s.chipId
  bytes : ∀ x : Nat, t.mem.read x = s.mem.read x
  iphase : t.iphase = s.iphase
  lcpuRun : t.lcpuRun = s.lcpuRun
  trace : t.sdmTrace = s.sdmTrace
  hcpu : t.hcpu = { s.hcpu with result := t.hcpu.result }
  lcpu : t.lcpu = s.lcpu
  bcpu : t.bcpu = s.bcpu
  turns : t.turns = s.turns

/-- The channel a mailbox operation or transaction acts on. -/
def mbxTarget : Instr → Option (MbxInst × Nat)
  | .mbxRdier _ i c | .mbxWrier _ i c _ | .mbxTrig _ i c _ | .mbxClr _ i c _ | .mbxRaw _ i c | .mbxPend _ i c
  | .mbxLock _ i c | .mbxUnlock _ i c => some (i, c.toNat)
  | .busRdier _ i c | .busWrier _ i c _ | .busTrig _ i c _ | .busClr _ i c _ | .busRaw _ i c | .busPend _ i c
  | .busLock _ i c | .busUnlock _ i c _ | .busRdItr _ i c | .busRdIcr _ i c | .busWrIsr _ i c _
  | .busWrMisr _ i c _ => some (i, c.toNat)
  | .clkFreqHxt48 | .clkFreqHrc48 | .clkFreqClkDll1 | .clkFreqClkDll2 | .clkFreqClkSys | .clkFreqClkPeri
  | .clkFreqClkPeriDiv2 | .clkFreqHclk | .clkFreqPclk1 | .clkFreqPclk2 | .clkFreqClkUsb | .clkFreqClkAudPll
  | .clkCfg _ _ | .clkDump => none
  | .apllTake | .apllBgon | .apllAnaon | .apllDigon | .apllLfcfg | .apllCalstart | .apllCalstep | .apllCalrefine
  | .apllSdmprog _ | .apllLockchk | .apllFreqof _ | .apllCheck _ | .apllDrop | .apllMeas _ => none
  | .revRdid | .revClass _ | .revValid _ | .revLetter _ | .revPtype _ | .revInstall _ _ => none

/-- The raw status bits of channel `c` of instance `i` an operation sets: the mask of a trigger write of that channel (R33). -/
def setMask (j : Instr) (i : MbxInst) (c : Nat) : BitVec 16 :=
  match j with
  | .mbxTrig _ i' c' m => if i' = i ∧ c'.toNat = c then m else 0#16
  | .busTrig _ i' c' w => if i' = i ∧ c'.toNat = c then low16 w else 0#16
  | _ => 0#16

/-- The raw status bits of channel `c` of instance `i` an operation resets: the mask of a clear write of that channel (R33). -/
def resetMask (j : Instr) (i : MbxInst) (c : Nat) : BitVec 16 :=
  match j with
  | .mbxClr _ i' c' m => if i' = i ∧ c'.toNat = c then m else 0#16
  | .busClr _ i' c' w => if i' = i ∧ c'.toNat = c then low16 w else 0#16
  | _ => 0#16

/-- The exclusive ends of the address range `[a, a + n)` and of `[b, b + m)` do not overlap (R98). -/
def RangesDisjoint (a n b m : Nat) : Prop := a + n ≤ b ∨ b + m ≤ a

/-- The opcode of a descriptor, bits [31:24] (R121). -/
def opcodeOf (w : Word) : Nat := (w.extractLsb' 24 8).toNat

/-- The width of the clock field with a number, as R54 to R57 give it; 0 for a number no field has. -/
def fieldWidthOf (idx : Nat) : Nat := [1, 4, 1, 1, 4, 1, 2, 1, 1, 8, 3, 3].getD idx 0

/-- The opcodes of the map of R123. -/
def opcodes : List Nat :=
  [0x10, 0x11, 0x12, 0x20, 0x21, 0x22, 0x23, 0x24, 0x25, 0x26, 0x27, 0x28, 0x29, 0x2A, 0x2B, 0x2C, 0x2D,
   0x30, 0x31, 0x32, 0x33, 0x34, 0x35, 0x36, 0x37, 0x40, 0x41, 0x42, 0x43, 0x44, 0x45]

/-- The opcodes of the map of R123 that use `idx`. -/
def idxOpcodes : List Nat :=
  [0x10, 0x11, 0x28, 0x2A, 0x2B, 0x2D, 0x30, 0x31, 0x32, 0x33, 0x34, 0x35, 0x36, 0x37]

/-- The opcodes of the map of R123 that use `imm16`. -/
def immOpcodes : List Nat := [0x11, 0x31, 0x32, 0x33, 0x41, 0x42, 0x43, 0x44]

/-- The descriptors R129 calls illegal, in its order: a family or an operation outside the map, no agent, an agent other than
HCPU outside family MBX, a non-zero field the operation does not use, an index out of range, a revision byte with high bits,
a `CLK.CFG` value that does not fit. -/
def IllegalDescriptor (w : Word) : Prop :=
  opcodeOf w ∉ opcodes ∨
  opdAgent w = 0#2 ∨
  (opdAgent w ≠ 1#2 ∧ opdFam w ≠ 3#4) ∨
  (opdInst w ≠ 0#1 ∧ opdFam w ≠ 3#4) ∨
  (opdIdx w ≠ 0#5 ∧ opcodeOf w ∉ idxOpcodes) ∨
  (opdImm w ≠ 0#16 ∧ opcodeOf w ∉ immOpcodes) ∨
  ((opcodeOf w = 0x10 ∨ opcodeOf w = 0x11) ∧ 11 < (opdIdx w).toNat) ∨
  (opcodeOf w = 0x28 ∧ 2 < (opdIdx w).toNat) ∨
  ((opcodeOf w = 0x2A ∨ opcodeOf w = 0x2B) ∧ 10 < (opdIdx w).toNat) ∨
  (opcodeOf w ∈ [0x41, 0x42, 0x43, 0x44] ∧ 256 ≤ (opdImm w).toNat) ∨
  (opcodeOf w = 0x11 ∧ 2 ^ fieldWidthOf (opdIdx w).toNat ≤ (opdImm w).toNat)

/-- The values a sequence of lock reads of one channel returns, in the order the instance serialises them (R258). -/
def lockReads (i : MbxInst) (c : BitVec 5) : List Agent → State → List Word
  | [], _ => []
  | a :: as, s =>
    match exec (.mbxLock a i c) s with
    | .next t => t.resultWord a :: lockReads i c as t
    | .fault _ => []
    | .refused _ => []

/-- The node a multiplexer's choice is. -/
def leafNode : ClkLeaf → ClkNode
  | .hxt48 => .hxt48
  | .hrc48 => .hrc48
  | .dll1 => .clkDll1
  | .dll2 => .clkDll2

/-- The edge of the clock graph a node follows under the current selectors (R153). -/
def upstream (r : ClkRegs) : ClkNode → Option ClkNode
  | .clkSys => (Config.muxSys r.selSys).map leafNode
  | .clkPeri => some (leafNode (Config.muxPeri r.selPeri))
  | .clkPeriDiv2 => some .clkPeri
  | .hclk => some .clkSys
  | .pclk1 => some .hclk
  | .pclk2 => some .hclk
  | .clkUsb =>
    match Config.muxUsb r.selUsb with
    | .clkSys => some .clkSys
    | .leaf l => some (leafNode l)
  | .hxt48 => none
  | .hrc48 => none
  | .clkDll1 => none
  | .clkDll2 => none
  | .clkAudPll => none

/-- The nodes a node reaches by at most `k` edges selected now, itself first (R171). -/
def pathFrom (r : ClkRegs) : Nat → ClkNode → List ClkNode
  | 0, n => [n]
  | k + 1, n =>
    match upstream r n with
    | some m => n :: pathFrom r k m
    | none => [n]

/-- The nodes a node reaches by the edges selected now; the longest chain has four (R153). -/
def clkPath (r : ClkRegs) (n : ClkNode) : List ClkNode := pathFrom r 4 n

/-- Disables an upstream source: clears its ready or enable bit (R171). -/
def disableSource (l : ClkLeaf) (r : ClkRegs) : ClkRegs :=
  match l with
  | .hxt48 => { r with hxt48Rdy := false }
  | .hrc48 => { r with hrc48Rdy := false }
  | .dll1 => { r with dll1En := false }
  | .dll2 => { r with dll2En := false }

/-- The answer the environment gives to one measurement: the count, then the flag (R203). -/
def calAnswer (n : BitVec 16) : List EnvEvent := [.calCnt n, .calDone]

/-- The absolute deviation of a count from 1838, over the integers (R208). -/
def devFromTarget (n : BitVec 16) : Nat := ((n.toNat : Int) - 1838).natAbs

end Sys2Proof.Machine
end

