-- ==== Sys2Proof/Certificates/Slice0/Obligations.lean ====
section
/-! DEFINITION. The statements about the model, one `def Obligations.<Name> : Prop` each. OBLIGATIONS.json lists them with
the rules of spec/ they formalise. -/

open Sys2Proof Sys2Proof.Machine

/-- For every operation that passes the well-formedness check, with every operand at every value its encoding admits,
decoding its encoding (an OPD32 descriptor with the byte lists beside it, or a bus transaction of its master) gives
exactly that operation. (R120, R121, R122, R123, R124) -/
def Obligations.DecodeEncodeAgree : Prop :=
  ∀ i : Instr, i.wf = true → decode (encode i) = .ok i

/-- Whatever the 32 bits and the byte lists beside them, if the decoder accepts them as an operation then that operation
is well formed and its encoding is exactly those bits and lists: no bit of a descriptor is dropped, and no two
descriptors stand for one operation. (That byte lists beside a descriptor other than REV.INSTALL are refused, so
that both are empty here, is the model's reading, log entry 13.) (R120, R123, R132) -/
def Obligations.LegalDescriptorIsItsEncoding : Prop :=
  ∀ (w : Word) (record code : List Byte) (i : Instr), decodeOpd w record code = .ok i →
    i.wf = true ∧ encode i = .opd w record code

/-- A 32-bit descriptor with no byte list beside it decodes to no operation exactly when it is illegal by the list of
R129: unknown family or operation, agent 0, a non-HCPU agent outside family MBX, a non-zero unused field, an index
out of range, a revision byte with high bits, a CLK.CFG value that does not fit. A channel number is never a ground.
(R129, R121, R123) -/
def Obligations.IllegalDescriptorsAreRefused : Prop :=
  ∀ w : Word, (∃ e, decodeOpd w [] [] = .error e) ↔ IllegalDescriptor w

/-- The descriptors of vectors E1 to E16 and of E25, and the eight MBXBUS values of R123, decode to the operations the
spec gives them; the four MBXBUS values of E26 decode to the reserved accesses of R128; and the words of vectors E17
to E24 decode to none. (That a bare MBXBUS value is read as a transaction of HCPU to channel 0 of MAILBOX1 with data
1 is the model's choice, log entry 3.) (R121, R123, R128, 95_test_vectors.md E1 to E26) -/
def Obligations.SpecWordsDecode : Prop :=
  decodeTableWord 32 0x36400000 = some (.mbxLock .hcpu .mbx1 0#5) ∧
  decodeTableWord 32 0x36800000 = some (.mbxLock .lcpu .mbx1 0#5) ∧
  decodeTableWord 32 0x36E30000 = some (.mbxLock .bcpu .mbx2 3#5) ∧
  decodeTableWord 32 0x37400000 = some (.mbxUnlock .hcpu .mbx1 0#5) ∧
  decodeTableWord 32 0x32428001 = some (.mbxTrig .hcpu .mbx1 2#5 0x8001#16) ∧
  decodeTableWord 32 0x31820001 = some (.mbxWrier .lcpu .mbx1 2#5 0x0001#16) ∧
  decodeTableWord 32 0x35820000 = some (.mbxPend .lcpu .mbx1 2#5) ∧
  decodeTableWord 32 0x33820001 = some (.mbxClr .lcpu .mbx1 2#5 0x0001#16) ∧
  decodeTableWord 32 0x34820000 = some (.mbxRaw .lcpu .mbx1 2#5) ∧
  decodeTableWord 32 0x30820000 = some (.mbxRdier .lcpu .mbx1 2#5) ∧
  decodeTableWord 32 0x10470000 = some .clkFreqHclk ∧
  decodeTableWord 32 0x11410009 = some (.clkCfg .dll1Stg 9#16) ∧
  decodeTableWord 32 0x28410000 = some (.apllSdmprog 1) ∧
  decodeTableWord 32 0x2D4E0000 = some (.apllMeas 14#5) ∧
  decodeTableWord 32 0x41400007 = some (.revClass 7#8) ∧
  decodeTableWord 32 0x45400000 = some (.revInstall [] []) ∧
  decodeTableWord 32 0x32440001 = some (.mbxTrig .hcpu .mbx1 4#5 0x0001#16) ∧
  decodeTableWord 8 0x00 = some (.busRdier .hcpu .mbx1 0#5) ∧
  decodeTableWord 8 0x20 = some (.busWrier .hcpu .mbx1 0#5 1#32) ∧
  decodeTableWord 8 0x24 = some (.busTrig .hcpu .mbx1 0#5 1#32) ∧
  decodeTableWord 8 0x28 = some (.busClr .hcpu .mbx1 0#5 1#32) ∧
  decodeTableWord 8 0x0C = some (.busRaw .hcpu .mbx1 0#5) ∧
  decodeTableWord 8 0x10 = some (.busPend .hcpu .mbx1 0#5) ∧
  decodeTableWord 8 0x14 = some (.busLock .hcpu .mbx1 0#5) ∧
  decodeTableWord 8 0x34 = some (.busUnlock .hcpu .mbx1 0#5 1#32) ∧
  decodeTableWord 8 0x04 = some (.busRdItr .hcpu .mbx1 0#5) ∧
  decodeTableWord 8 0x08 = some (.busRdIcr .hcpu .mbx1 0#5) ∧
  decodeTableWord 8 0x2C = some (.busWrIsr .hcpu .mbx1 0#5 1#32) ∧
  decodeTableWord 8 0x30 = some (.busWrMisr .hcpu .mbx1 0#5 1#32) ∧
  [0x36000000, 0x10800000, 0x104C0000, 0x20410000, 0x38400000, 0x50400000, 0x41400107, 0x11410010].all
    (fun w => (decodeTableWord 32 w).isNone) = true

/-- For every master, instance, channel below 16 and data word, a 32-bit transaction at one of the six offsets decodes
to the read or write of that register (the four reserved accesses included); a transaction of another width, at an
offset that is not a multiple of 4, at an offset of no register, or to a channel number no instance has, decodes to
nothing. A write of CHIPID decodes to nothing, a read of it by HCPU is REV.RDID, and a read of it by the LCPU or
BCPU is refused as an operation of HCPU alone. A transaction at an absolute byte address that is not a multiple of 4
is refused as misaligned; at one that is, it decodes as the same transaction aimed at what the address resolves to
under MBX_BASE, NCH and CHIPID_ADDR, and is refused where it resolves to nothing. (That a transaction may be named
by its block, and that CHIPID is HCPU's to read, are the model's reading, log entry 12; that an address has no width
is its choice, log entry 21.) (R11, R92, R97, R122, R123, R128) -/
def Obligations.BusTransactionsDecode : Prop :=
  (∀ (a : Agent) (i : MbxInst) (c : Nat) (d : Word), c < 16 →
    let rd := fun k => decodeBus a ⟨false, 4, .mailbox i c (Config.mbxOff k), d⟩
    let wr := fun k => decodeBus a ⟨true, 4, .mailbox i c (Config.mbxOff k), d⟩
    rd .ier = .ok (.busRdier a i (BitVec.ofNat 5 c)) ∧ wr .ier = .ok (.busWrier a i (BitVec.ofNat 5 c) d) ∧
    rd .itr = .ok (.busRdItr a i (BitVec.ofNat 5 c)) ∧ wr .itr = .ok (.busTrig a i (BitVec.ofNat 5 c) d) ∧
    rd .icr = .ok (.busRdIcr a i (BitVec.ofNat 5 c)) ∧ wr .icr = .ok (.busClr a i (BitVec.ofNat 5 c) d) ∧
    rd .isr = .ok (.busRaw a i (BitVec.ofNat 5 c)) ∧ wr .isr = .ok (.busWrIsr a i (BitVec.ofNat 5 c) d) ∧
    rd .misr = .ok (.busPend a i (BitVec.ofNat 5 c)) ∧ wr .misr = .ok (.busWrMisr a i (BitVec.ofNat 5 c) d) ∧
    rd .exr = .ok (.busLock a i (BitVec.ofNat 5 c)) ∧ wr .exr = .ok (.busUnlock a i (BitVec.ofNat 5 c) d)) ∧
  (∀ (a : Agent) (w : Bool) (i : MbxInst) (c off : Nat) (d : Word),
    off % 4 ≠ 0 ∨ 0x18 ≤ off ∨ 16 ≤ c → ∃ e, decodeBus a ⟨w, 4, .mailbox i c off, d⟩ = .error e) ∧
  (∀ (a : Agent) (t : BusTx), t.size ≠ 4 → decodeBus a t = .error .busWidth) ∧
  (∀ (a : Agent) (d : Word), decodeBus a ⟨true, 4, .chipId, d⟩ = .error .busReserved) ∧
  (∀ d : Word, decodeBus .hcpu ⟨false, 4, .chipId, d⟩ = .ok .revRdid) ∧
  (∀ (a : Agent) (d : Word), a ≠ .hcpu → decodeBus a ⟨false, 4, .chipId, d⟩ = .error .notHcpu) ∧
  (∀ (a : Agent) (w : Bool) (x : Nat) (d : Word), x % 4 ≠ 0 →
    decodeBus a ⟨w, 4, .absolute x, d⟩ = .error .busAlign) ∧
  (∀ (a : Agent) (w : Bool) (x : Nat) (d : Word), x % 4 = 0 →
    decodeBus a ⟨w, 4, .absolute x, d⟩ =
      match resolveAbs Config.mbxBase Config.nch Config.chipIdAddr x with
      | some addr => decodeBus a ⟨w, 4, addr, d⟩
      | none => .error .busNoRegister)

/-- For any bases, channel counts and CHIPID address under which the two mailbox windows do not overlap: every byte
address a with MBX_BASE[i] <= a < MBX_BASE[i] + NCH[i] * 0x18 resolves to instance i, channel (a - MBX_BASE[i]) /
0x18, offset (a - MBX_BASE[i]) mod 0x18, the channel below NCH[i]; in particular MBX_BASE[i] + c * 0x18 + MBX_OFF[k]
of an existing channel resolves to (i, c, MBX_OFF[k]). Where the CHIPID address is in neither window it resolves to
CHIPID. An address in neither window and not that of CHIPID resolves to nothing. (That an address is a natural
number without a bound is the model's choice, log entry 21; that a mailbox window wins where the CHIPID address lies
inside it is the model's reading, log entry 12.) (R97, R96) -/
def Obligations.AddressMapResolves : Prop :=
  ∀ (base n : MbxInst → Nat) (chip : Nat),
    RangesDisjoint (base .mbx1) (n .mbx1 * 0x18) (base .mbx2) (n .mbx2 * 0x18) →
    (∀ (i : MbxInst) (a : Nat), base i ≤ a → a < base i + n i * 0x18 →
      resolveAbs base n chip a = some (.mailbox i ((a - base i) / 0x18) ((a - base i) % 0x18)) ∧
      (a - base i) / 0x18 < n i) ∧
    (∀ (i : MbxInst) (c : Nat) (k : MbxReg), c < n i →
      resolveAbs base n chip (base i + c * 0x18 + Config.mbxOff k) = some (.mailbox i c (Config.mbxOff k))) ∧
    ((∀ i, chip < base i ∨ base i + n i * 0x18 ≤ chip) → resolveAbs base n chip chip = some .chipId) ∧
    (∀ a : Nat, a ≠ chip → (∀ i, a < base i ∨ base i + n i * 0x18 ≤ a) → resolveAbs base n chip a = none)

/-- If the next turn is bus master a's, a is not stopped and (being the LCPU) is out of reset, and the head of its
program is a descriptor or a bus transaction that decodes to an operation of a, then the step is exec of that
operation on the state with the turn taken and the item removed from the program. Whatever the item is (a pseudo-
operation, the operations or the unlock left of one, the event RELEASE_LCPU, a descriptor or a transaction), the
step is runItem of it on that state, which the statements about pseudo-operations are about. (The lists prog and
turns that hold a run are the model's own, log entries 3 and 9.) (R16, R20, R81, R134) -/
def Obligations.StepRunsTheDecodedOperation : Prop :=
  ∀ (s : State) (a : Agent) (ts : List Turn) (it : Item) (rest : List Item),
    s.turns = .agent a :: ts → (s.agent a).stopped = none → (a = .lcpu → s.lcpuRun = true) →
    (s.agent a).prog = it :: rest →
    step s = runItem a it ({ s with turns := ts }.withProg a rest) ∧
    ∀ i : Instr,
      ((∃ w record code, it = .opd w record code ∧ decode (.opd w record code) = .ok i) ∨
        (∃ t, it = .bus t ∧ decode (.bus a t) = .ok i)) →
      i.agent = a →
      step s = exec i ({ s with turns := ts }.withProg a rest)

/-- From any state, after a table row's bits are placed as the next operation, the next step is exec of the operation
they decode to, on that state with its master not stopped and, where the master is the LCPU, released from reset;
the rest of the run's turns and of the master's program are as they were. (That this is how a program comes to run
is the model's choice, log entry 3.) (R121, R122, R20) -/
def Obligations.PlacedWordRunsNext : Prop :=
  ∀ (s : State) (nbits w : Nat) (i : Instr), decodeTableWord nbits w = some i →
    step (s.withFetchWord nbits w) =
      exec i { s.setAgent i.agent { s.agent i.agent with stopped := none } with
        lcpuRun := s.lcpuRun || decide (i.agent = .lcpu) }

/-- A turn of the LCPU while lcpu_run is 0 changes nothing but the schedule, and the event RELEASE_LCPU at the head of
HCPU's program sets lcpu_run and nothing else. (That a turn without effect passes is the model's choice, log entry
9.) (R81, R388) -/
def Obligations.LcpuHeldUntilReleased : Prop :=
  (∀ (s : State) (ts : List Turn), s.turns = .agent .lcpu :: ts → s.lcpuRun = false → s.lcpu.stopped = none →
    step s = .next { s with turns := ts }) ∧
  (∀ (s : State) (ts : List Turn) (rest : List Item), s.turns = .agent .hcpu :: ts → s.hcpu.stopped = none →
    s.hcpu.prog = .release :: rest →
    step s = .next { ({ s with turns := ts }.withProg .hcpu rest) with lcpuRun := true })

/-- A handler turn of a core puts its handler's program before the rest of its program when the line reaches it, the
core runs and is not stopped; when no line reaches it the turn changes nothing. Entry acknowledges nothing: no
mailbox register changes. The line of the LCPU is the level of MAILBOX1, that of HCPU the level of MAILBOX2, and
none reaches BCPU. (That entry puts the handler's operations first is the model's choice, log entry 10; the wiring
of the two instances is a value the spec decided, taken as it stands, log entry 16.) (R355, R352, R12, R257) -/
def Obligations.HandlerEntryNeedsTheLine : Prop :=
  (∀ (s : State) (a : Agent), s.irqTo a = true → (s.agent a).stopped = none → (a = .lcpu → s.lcpuRun = true) →
    takeTurn (.handler a) s = .next (s.withProg a ((s.agent a).handler ++ (s.agent a).prog))) ∧
  (∀ (s : State) (a : Agent), s.irqTo a = false → takeTurn (.handler a) s = .next s) ∧
  (∀ s : State, s.irqTo .lcpu = s.irq .mbx1 ∧ s.irqTo .hcpu = s.irq .mbx2 ∧ s.irqTo .bcpu = false)

/-- At reset every channel has IER 0, ISR 0, EX 1, ID 0 and no interrupt line is up; the audio PLL is Uninitialized with
its flags clear, no frequency selected and no cached frequency; the installer is Idle, the LCPU is held in reset,
and CHIPID is the part's constant. (R381, R383, R384, R386) -/
def Obligations.ResetState : Prop :=
  (∀ (i : MbxInst) (c : Nat), State.reset.channel i c = { ier := 0#16, isr := 0#16, ex := true, id := 0#2 }) ∧
  (∀ i : MbxInst, State.reset.irq i = false) ∧
  State.reset.apll.st = .uninitialized ∧ State.reset.apll.taken = false ∧ State.reset.apll.enBg = false ∧
  State.reset.apll.enAna = false ∧ State.reset.apll.enDig = false ∧ State.reset.apll.lfCfg = false ∧
  State.reset.apll.calEn = false ∧ State.reset.apll.calDone = false ∧ State.reset.apll.calFin = false ∧
  State.reset.apll.lockWarn = false ∧ State.reset.apll.freqSel = none ∧ State.reset.audPllCache = none ∧
  State.reset.iphase = .idle ∧ State.reset.lcpuRun = false ∧
  State.reset.chipId = Config.seriesId ++ Config.companyId ++ Config.packageId ++ Config.revId

/-- For an existing channel each of the three reads completes, hands the issuing master the register's 16 bits extended
with zeros, and leaves every register, flag, line and byte as it was. (R241, R244, R246, R34) -/
def Obligations.MailboxReads : Prop :=
  ∀ (a : Agent) (i : MbxInst) (c : BitVec 5) (s : State), c.toNat < Config.nch i →
    exec (.mbxRdier a i c) s = .next (s.withResult a (.word ((s.channel i c.toNat).ier.setWidth 32))) ∧
    exec (.mbxRaw a i c) s = .next (s.withResult a (.word ((s.channel i c.toNat).isr.setWidth 32))) ∧
    exec (.mbxPend a i c) s = .next (s.withResult a
      (.word (((s.channel i c.toNat).isr &&& (s.channel i c.toNat).ier).setWidth 32)))

/-- For an existing channel: MBX.WRIER completes with IER replaced whole by the mask; MBX.TRIG with ISR OR-ed with it;
MBX.CLR with ISR AND-ed with its complement. Every other register of the channel, every other channel, all other
state but the issuing master's result is as before. (R242, R243, R245) -/
def Obligations.MailboxMaskWrites : Prop :=
  ∀ (a : Agent) (i : MbxInst) (c : BitVec 5) (m : BitVec 16) (s : State), c.toNat < Config.nch i →
    exec (.mbxWrier a i c m) s = .next
      ((s.setChannel i c.toNat { s.channel i c.toNat with ier := m }).withResult a .done) ∧
    exec (.mbxTrig a i c m) s = .next
      ((s.setChannel i c.toNat { s.channel i c.toNat with isr := (s.channel i c.toNat).isr ||| m }).withResult a .done) ∧
    exec (.mbxClr a i c m) s = .next
      ((s.setChannel i c.toNat { s.channel i c.toNat with isr := (s.channel i c.toNat).isr &&& ~~~m }).withResult a .done)

/-- For an existing channel the read completes and returns the 32-bit word whose bit 0 is EX, bits [2:1] ID and the rest
0, as they stood. If EX was 1 it leaves EX 0 and ID the reader's core ID (1 HCPU, 2 LCPU, 3 BCPU); if EX was 0 it
changes nothing but the result. It never fails and never blocks. (R247, R94, R109) -/
def Obligations.LockIsTestAndSet : Prop :=
  ∀ (a : Agent) (i : MbxInst) (c : BitVec 5) (s : State), c.toNat < Config.nch i →
    let ch := s.channel i c.toNat
    let v : Word := 0#29 ++ ch.id ++ BitVec.ofBool ch.ex
    let me : BitVec 2 := match a with | .hcpu => 1#2 | .lcpu => 2#2 | .bcpu => 3#2
    (ch.ex = true → exec (.mbxLock a i c) s = .next
      ((s.setChannel i c.toNat { ch with ex := false, id := me }).withResult a (.word v))) ∧
    (ch.ex = false → exec (.mbxLock a i c) s = .next (s.withResult a (.word v)))

/-- For an existing channel the operation completes for every issuing master, holder or not, with EX 1 and ID 0 and
every other register and all other state but the result as before; on a free mutex it changes nothing but the
result. (R248, R360, R396) -/
def Obligations.UnlockIsUnchecked : Prop :=
  ∀ (a : Agent) (i : MbxInst) (c : BitVec 5) (s : State), c.toNat < Config.nch i →
    exec (.mbxUnlock a i c) s = .next
      ((s.setChannel i c.toNat { s.channel i c.toNat with ex := true, id := 0#2 }).withResult a .done) ∧
    ((s.channel i c.toNat).ex = true → (s.channel i c.toNat).id = 0#2 →
      exec (.mbxUnlock a i c) s = .next (s.withResult a .done))

/-- For each of the eight mailbox operations, where the channel number is NCH of the instance or more the operation
raises Fatal(IndexOutOfRange): the issuing master is stopped with that cause and no register, result or byte
changes. (That a stopped master is a field of the next state is the model's reading of R331, log entry 4.) (R249,
R335, R331) -/
def Obligations.IndexOutOfRangeIsFatal : Prop :=
  ∀ (a : Agent) (i : MbxInst) (c : BitVec 5) (m : BitVec 16) (s : State), Config.nch i ≤ c.toNat →
    let t := s.setAgent a { s.agent a with stopped := some .indexOutOfRange }
    exec (.mbxRdier a i c) s = .next t ∧ exec (.mbxWrier a i c m) s = .next t ∧
    exec (.mbxTrig a i c m) s = .next t ∧ exec (.mbxClr a i c m) s = .next t ∧
    exec (.mbxRaw a i c) s = .next t ∧ exec (.mbxPend a i c) s = .next t ∧
    exec (.mbxLock a i c) s = .next t ∧ exec (.mbxUnlock a i c) s = .next t

/-- For an existing channel a bus read of IER, ISR or MISR completes with the register's zero-extended value and no
other change, and a bus read of EXR completes exactly as MBX.LOCK does, claiming the mutex for the master when EX
was 1. (R120, R123, R241, R244, R246, R247) -/
def Obligations.BusReadsComplete : Prop :=
  ∀ (a : Agent) (i : MbxInst) (c : BitVec 5) (s : State), c.toNat < Config.nch i →
    let ch := s.channel i c.toNat
    exec (.busRdier a i c) s = .next (s.withResult a (.word (ch.ier.setWidth 32))) ∧
    exec (.busRaw a i c) s = .next (s.withResult a (.word (ch.isr.setWidth 32))) ∧
    exec (.busPend a i c) s = .next (s.withResult a (.word ((ch.isr &&& ch.ier).setWidth 32))) ∧
    exec (.busLock a i c) s = exec (.mbxLock a i c) s ∧
    ∃ t, exec (.busLock a i c) s = .next t ∧ t.channel i c.toNat =
      (if ch.ex then { ch with ex := false, id := a.code } else ch)

/-- For an existing channel a bus write of IER, ITR or ICR completes as MBX.WRIER, MBX.TRIG or MBX.CLR with the mask in
data bits [15:0], bits [31:16] ignored; a bus write of EXR whose data bit 0 is 1 completes with the mutex freed.
(R120, R127, R242, R243, R245, R248) -/
def Obligations.BusWritesComplete : Prop :=
  ∀ (a : Agent) (i : MbxInst) (c : BitVec 5) (w : Word) (s : State), c.toNat < Config.nch i →
    let ch := s.channel i c.toNat
    let m : BitVec 16 := w.extractLsb' 0 16
    exec (.busWrier a i c w) s = .next ((s.setChannel i c.toNat { ch with ier := m }).withResult a .done) ∧
    exec (.busTrig a i c w) s = .next ((s.setChannel i c.toNat { ch with isr := ch.isr ||| m }).withResult a .done) ∧
    exec (.busClr a i c w) s = .next ((s.setChannel i c.toNat { ch with isr := ch.isr &&& ~~~m }).withResult a .done) ∧
    (w.getLsbD 0 = true → exec (.busUnlock a i c w) s = .next
      ((s.setChannel i c.toNat { ch with ex := true, id := 0#2 }).withResult a .done))

/-- A bus read of ITR or ICR, a bus write of ISR or MISR, and a bus write of EXR with data bit 0 = 0 are refused as
reserved accesses on every existing channel; at a channel the instance lacks every bus form is refused as reaching
no register. (R128, R97, 93_implementation_defined.md U1 to U4, U12) -/
def Obligations.ReservedAccessesAreRefused : Prop :=
  (∀ (a : Agent) (i : MbxInst) (c : BitVec 5) (w : Word) (s : State), c.toNat < Config.nch i →
    exec (.busRdItr a i c) s = .refused .reservedAccess ∧ exec (.busRdIcr a i c) s = .refused .reservedAccess ∧
    exec (.busWrIsr a i c w) s = .refused .reservedAccess ∧ exec (.busWrMisr a i c w) s = .refused .reservedAccess ∧
    (w.getLsbD 0 = false → exec (.busUnlock a i c w) s = .refused .reservedAccess)) ∧
  (∀ (a : Agent) (i : MbxInst) (c : BitVec 5) (w : Word) (s : State), Config.nch i ≤ c.toNat →
    [Instr.busRdier a i c, .busWrier a i c w, .busTrig a i c w, .busClr a i c w, .busRaw a i c, .busPend a i c,
      .busLock a i c, .busUnlock a i c w, .busRdItr a i c, .busRdIcr a i c, .busWrIsr a i c w, .busWrMisr a i c w].all
      (fun j => match exec j s with | .refused .noRegister => true | _ => false) = true)

/-- If an operation or transaction on channel c of instance i answers a next state, every other channel of both
instances, the clock, audio-PLL, chip ID and installer state, every byte of patch memory, the environment's inputs
and every other master are as before. (R31, R78, R42) -/
def Obligations.ChannelsAreIndependent : Prop :=
  ∀ (j : Instr) (i : MbxInst) (c : Nat) (s t : State), mbxTarget j = some (i, c) → exec j s = .next t →
    (∀ (i' : MbxInst) (c' : Nat), i' ≠ i ∨ c' ≠ c → t.channel i' c' = s.channel i' c') ∧
    t.clk = s.clk ∧ t.audPllCache = s.audPllCache ∧ t.apll = s.apll ∧ t.chipId = s.chipId ∧
    (∀ x : Nat, t.mem.read x = s.mem.read x) ∧ t.mem = s.mem ∧ t.iphase = s.iphase ∧ t.lcpuRun = s.lcpuRun ∧
    t.sdmTrace = s.sdmTrace ∧ t.env = s.env ∧ t.envGaps = s.envGaps ∧ t.turns = s.turns ∧ t.draws = s.draws ∧
    (∀ b : Agent, b ≠ j.agent → t.agent b = s.agent b) ∧ (t.agent j.agent).prog = (s.agent j.agent).prog

/-- For every operation of every family that answers a next state, the raw status of every existing channel afterwards
is its raw status before, with the bits of a trigger write of that channel set and the bits of a clear write of that
channel reset; in particular the enable mask, the mutex and every other family leave it alone. A step of the
environment leaves every channel alone too: on its turn its next event gives hxt48_rdy, hrc48_rdy, lock_det or
cal_cnt the event's value, or sets cal_done while a measurement is requested (cal_en 1, and never clears it), and
beyond that only the event and the turn are taken; an expiry outside a wait, and a turn with no event left, change
nothing else at all. (The list of the environment's steps, and that cal_done rises only while cal_en is 1, are the
model's, log entry 2.) (R9, R33, R35, R36, R52, R53, R62, R63, R65, R72) -/
def Obligations.RawStatusChangesByTriggerAndClearOnly : Prop :=
  (∀ (j : Instr) (s t : State) (i : MbxInst) (c : Nat), c < Config.nch i → exec j s = .next t →
    (t.channel i c).isr = ((s.channel i c).isr ||| setMask j i c) &&& ~~~(resetMask j i c)) ∧
  (∀ (s t : State) (i : MbxInst) (c : Nat), takeTurn .env s = .next t → t.channel i c = s.channel i c) ∧
  (∀ (s : State) (ts : List Turn), s.turns = .env :: ts →
    let after := fun (es : List EnvEvent) (clk : ClkRegs) (apll : ApllRegs) =>
      step s = .next { s with turns := ts, env := es, clk := clk, apll := apll }
    (s.env = [] → after [] s.clk s.apll) ∧
    (∀ b es, s.env = .hxt48Rdy b :: es → after es { s.clk with hxt48Rdy := b } s.apll) ∧
    (∀ b es, s.env = .hrc48Rdy b :: es → after es { s.clk with hrc48Rdy := b } s.apll) ∧
    (∀ b es, s.env = .lockDet b :: es → after es s.clk { s.apll with lockDet := b }) ∧
    (∀ n es, s.env = .calCnt n :: es → after es s.clk { s.apll with calCnt := n }) ∧
    (∀ es, s.env = .calDone :: es → s.apll.calEn = true → after es s.clk { s.apll with calDone := true }) ∧
    (∀ es, s.env = .calDone :: es → s.apll.calEn = false → after es s.clk s.apll) ∧
    (∀ es, s.env = .expire :: es → after es s.clk s.apll))

/-- The interrupt level of an instance is 1 exactly when there are a channel below NCH and a bit that is set both in its
ISR and in its IER. (R40, R250, R351) -/
def Obligations.InterruptLineIsTheOrOfPendingBits : Prop :=
  ∀ (s : State) (i : MbxInst), s.irq i = true ↔
    ∃ c b : Nat, c < Config.nch i ∧ b < 16 ∧ (s.channel i c).isr.getLsbD b = true ∧ (s.channel i c).ier.getLsbD b = true

/-- On an existing channel, a trigger of mask m followed by a clear of m leaves no bit of m latched, and a clear of m
followed by a trigger of m leaves every bit of m latched; both pairs complete, whichever masters issue them. (R104,
R399) -/
def Obligations.TriggerAndClearOrders : Prop :=
  ∀ (a b : Agent) (i : MbxInst) (c : BitVec 5) (m : BitVec 16) (s : State), c.toNat < Config.nch i →
    (∃ t u, exec (.mbxTrig a i c m) s = .next t ∧ exec (.mbxClr b i c m) t = .next u ∧
      (u.channel i c.toNat).isr &&& m = 0#16) ∧
    (∃ t u, exec (.mbxClr b i c m) s = .next t ∧ exec (.mbxTrig a i c m) t = .next u ∧
      (u.channel i c.toNat).isr &&& m = m)

/-- From any state in which EX is 1 exactly when ID is 0 on every channel of both instances, every step that answers a
next state leads to such a state, whoever moves and whatever it issues. (R39) -/
def Obligations.StepKeepsMutexPair : Prop :=
  ∀ s t : State, s.MutexOk → step s = .next t → t.MutexOk

/-- From a state in which the mutex of an existing channel is free, whatever masters issue lock reads of it and in
whatever order, the first returns 0x1 and every later one, the winner's own included, returns the winner's core ID
shifted left by one. (R258, R109, R407) -/
def Obligations.OnlyOneLockWins : Prop :=
  ∀ (i : MbxInst) (c : BitVec 5) (s : State) (a : Agent) (as : List Agent), c.toNat < Config.nch i →
    (s.channel i c.toNat).ex = true → (s.channel i c.toNat).id = 0#2 →
    lockReads i c (a :: as) s = 1#32 :: List.replicate as.length (0#29 ++ a.code ++ 0#1)

/-- The 32-bit value of a lock read decodes to Unlocked when bit 0 is 1; when bit 0 is 0 it decodes by bits [2:1]: 1
Hcpu, 2 Lcpu, 3 Bcpu, 0 Unlocked. (R135) -/
def Obligations.LockResultDecode : Prop :=
  ∀ v : Word,
    (v.getLsbD 0 = true → lockCoreOf v = .unlocked) ∧
    (v.getLsbD 0 = false → v.extractLsb' 1 2 = 1#2 → lockCoreOf v = .hcpu) ∧
    (v.getLsbD 0 = false → v.extractLsb' 1 2 = 2#2 → lockCoreOf v = .lcpu) ∧
    (v.getLsbD 0 = false → v.extractLsb' 1 2 = 3#2 → lockCoreOf v = .bcpu) ∧
    (v.getLsbD 0 = false → v.extractLsb' 1 2 = 0#2 → lockCoreOf v = .unlocked)

/-- A single-bit form whose bit is above 15, and any mailbox pseudo-operation whose channel the instance lacks, changes
nothing but that the issuing master is stopped with IndexOutOfRange. In range: the single-bit trigger and clear are
MBX.TRIG and MBX.CLR of 1 << b, the single-bit enable and disable are MBX.EN and MBX.DIS of 1 << b, and MBX.ISPEND
of a master that runs hands back bit b of ISR & IER and changes nothing else. APLL.CAL and APLL.NEW k run the
operations R134 lists, one a turn in that order; REV.READ reads CHIPID and leaves REV.CLASS of its revision byte as
the next item. (MBX.EN, MBX.DIS, MBX.TRYACQ and MBX.STATUS in range, and how a list of operations runs, are the next
three statements.) (That a stopped master is a field of the next state is the model's reading of R331, log entry 4;
that what is left waits at the head of the master's program, and that the check comes before the first operation, is
log entry 11.) (R134, R249, R253, R335) -/
def Obligations.PseudoRangeCheckComesFirst : Prop :=
  (∀ (a : Agent) (i : MbxInst) (c b : Nat) (m : BitVec 16) (s : State),
    let t := s.setAgent a { s.agent a with stopped := some .indexOutOfRange }
    (Config.nch i ≤ c ∨ 15 < b →
      runItem a (.pseudo (.trigb i c b)) s = .next t ∧ runItem a (.pseudo (.enb i c b)) s = .next t ∧
      runItem a (.pseudo (.disb i c b)) s = .next t ∧ runItem a (.pseudo (.ispend i c b)) s = .next t ∧
      runItem a (.pseudo (.clrb i c b)) s = .next t) ∧
    (Config.nch i ≤ c →
      runItem a (.pseudo (.en i c m)) s = .next t ∧ runItem a (.pseudo (.dis i c m)) s = .next t ∧
      runItem a (.pseudo (.tryacq i c)) s = .next t ∧ runItem a (.pseudo (.status i c)) s = .next t) ∧
    (c < Config.nch i → b ≤ 15 →
      runItem a (.pseudo (.trigb i c b)) s = exec (.mbxTrig a i (BitVec.ofNat 5 c) (1#16 <<< b)) s ∧
      runItem a (.pseudo (.clrb i c b)) s = exec (.mbxClr a i (BitVec.ofNat 5 c) (1#16 <<< b)) s ∧
      runItem a (.pseudo (.enb i c b)) s = runItem a (.pseudo (.en i c (1#16 <<< b))) s ∧
      runItem a (.pseudo (.disb i c b)) s = runItem a (.pseudo (.dis i c (1#16 <<< b))) s ∧
      ((s.agent a).stopped = none → runItem a (.pseudo (.ispend i c b)) s =
        .next (s.withResult a (.bit (((s.channel i c).isr &&& (s.channel i c).ier).getLsbD b)))))) ∧
  (∀ s : State, runItem .hcpu (.pseudo .cal) s = runItem .hcpu (.ops
    [.apllCalstart, .apllCalstep, .apllCalstep, .apllCalstep, .apllCalstep, .apllCalrefine]) s) ∧
  (∀ (k : Fin 3) (s : State), runItem .hcpu (.pseudo (.new k)) s = runItem .hcpu (.ops
    [.apllTake, .apllBgon, .apllAnaon, .apllDigon, .apllLfcfg, .apllCalstart, .apllCalstep, .apllCalstep, .apllCalstep,
      .apllCalstep, .apllCalrefine, .apllSdmprog k, .apllLockchk]) s) ∧
  (∀ s : State, s.hcpu.stopped = none → runItem .hcpu (.pseudo .read) s = .next
    ((s.withResult .hcpu (.word s.chipId)).pushItem .hcpu (.ops [.revClass (s.chipId.extractLsb' 0 8)])))

/-- On an existing channel the first turn of MBX.EN only reads IER and leaves the write of (IER as read) OR m as the
master's next item; MBX.DIS the same with AND of the complement. When that item is run, IER becomes exactly that
value, whatever other masters wrote in between. (That what is left waits at the head of the master's program is the
model's form, log entry 11.) (R251, R252, R102) -/
def Obligations.EnableIsTwoTransactions : Prop :=
  ∀ (a : Agent) (i : MbxInst) (c : Nat) (m : BitVec 16) (s : State), c < Config.nch i → (s.agent a).stopped = none →
    let e := (s.channel i c).ier
    let read := s.withResult a (.word (e.setWidth 32))
    runItem a (.pseudo (.en i c m)) s =
      .next (read.pushItem a (.ops [.mbxWrier a i (BitVec.ofNat 5 c) (e ||| m)])) ∧
    runItem a (.pseudo (.dis i c m)) s =
      .next (read.pushItem a (.ops [.mbxWrier a i (BitVec.ofNat 5 c) (e &&& ~~~m)])) ∧
    (∀ (v : BitVec 16) (u : State), ∃ t, runItem a (.ops [.mbxWrier a i (BitVec.ofNat 5 c) v]) u = .next t ∧
      (t.channel i c).ier = v ∧ (t.channel i c).isr = (u.channel i c).isr)

/-- On an existing channel whose mutex is free, the first turn of MBX.STATUS claims it for the peeking master and leaves
the release as its next item, which frees it and reports Unlocked; on a held mutex the one turn reports the holder
and changes no register. MBX.TRYACQ is the lock read with its result decoded. (That what is left waits at the head
of the master's program is the model's form, log entry 11.) (R255, R256, R397) -/
def Obligations.StatusReleasesWhatItTook : Prop :=
  ∀ (a : Agent) (i : MbxInst) (c : Nat) (s : State), c < Config.nch i → (s.agent a).stopped = none →
    let ch := s.channel i c
    (ch.ex = true → ch.id = 0#2 →
      runItem a (.pseudo (.status i c)) s = .next
        (((s.setChannel i c { ch with ex := false, id := a.code }).withResult a (.word 1#32)).pushItem a
          (.statusRelease i (BitVec.ofNat 5 c) 1#32))) ∧
    (ch.ex = false →
      runItem a (.pseudo (.status i c)) s = .next (s.withResult a (.lock (lockOwner ch.id))) ∧
      runItem a (.pseudo (.tryacq i c)) s = .next (s.withResult a (.lock (lockOwner ch.id)))) ∧
    (ch.ex = true →
      runItem a (.pseudo (.tryacq i c)) s = .next
        ((s.setChannel i c { ch with ex := false, id := a.code }).withResult a (.lock .unlocked))) ∧
    runItem a (.statusRelease i (BitVec.ofNat 5 c) 1#32) s = .next
      ((s.setChannel i c { ch with ex := true, id := 0#2 }).withResult a (.lock .unlocked))

/-- When the first of the operations left answers a state in which it returned an error or stopped its master, that
state is the step's answer and nothing of the rest is put back; when it did not fail, the rest is the master's next
item. The last operation of a pseudo-operation runs as that operation. (That what is left waits at the head of the
master's program is the model's form, log entry 11.) (R346, R134) -/
def Obligations.FailedPartEndsThePseudoOperation : Prop :=
  ∀ (a : Agent) (i j : Instr) (js : List Instr) (s t : State), i.agent = a → exec i s = .next t →
    (((t.agent a).stopped ≠ none ∨ ∃ e, (t.agent a).result = .error e) →
      runItem a (.ops (i :: j :: js)) s = .next t) ∧
    ((t.agent a).stopped = none → (∀ e, (t.agent a).result ≠ .error e) →
      runItem a (.ops (i :: j :: js)) s = .next (t.pushItem a (.ops (j :: js)))) ∧
    runItem a (.ops [i]) s = .next t

/-- For every operation of every family that answers a next state, either no master's stop has changed, or the state is
the one before with the issuing master stopped by one cause and nothing else changed. (That a stopped master is a
field of the next state is the model's reading of R331, log entry 4.) (R331, R334) -/
def Obligations.FatalViolationOnlyStopsItsMaster : Prop :=
  ∀ (j : Instr) (s t : State), exec j s = .next t →
    (∀ a : Agent, (t.agent a).stopped = (s.agent a).stopped) ∨
    (∃ cause, t = s.setAgent j.agent { s.agent j.agent with stopped := some cause })

/-- From any state in which a master is stopped, every step that answers a next state leaves it stopped by the same
cause, and no such state counts as the normal end of a run. The stopped master executes nothing further, whatever
its program: its own turn is the fault that names it and its cause, and its handler turn only takes the turn. (That
a stopped master is a field of the state, and its turn a fault, is the model's reading of R331, log entry 4.) (R331,
R20) -/
def Obligations.FatalStopIsForever : Prop :=
  (∀ (s t : State) (a : Agent) (cause : FatalCause), (s.agent a).stopped = some cause → step s = .next t →
    (t.agent a).stopped = some cause) ∧
  (∀ (s : State) (a : Agent) (cause : FatalCause), (s.agent a).stopped = some cause → s.endsNormally = false) ∧
  (∀ (s : State) (a : Agent) (cause : FatalCause) (ts : List Turn), (s.agent a).stopped = some cause →
    (s.turns = .agent a :: ts → step s = .fault (.fatal a cause)) ∧
    (s.turns = .handler a :: ts → step s = .next { s with turns := ts }))

/-- Every step that answers a next state leaves the chip ID register as it was, and leaves lcpu_run at 1 where it was 1.
(R70, R384, R81) -/
def Obligations.ChipIdAndReleaseAreStable : Prop :=
  ∀ s t : State, step s = .next t → t.chipId = s.chipId ∧ (s.lcpuRun = true → t.lcpuRun = true)

/-- CLK.FREQ hxt48 and CLK.FREQ hrc48 complete with Some(48000000) when the oscillator's own ready bit is 1 and None
when it is 0. CLK.FREQ clk_dll1 and CLK.FREQ clk_dll2 complete with the DLL frequency, exactly, from the DLL's own
fields when its enable is 1, with None when it is 0, for every stage value. Each changes nothing but the result, and
has the descriptor R123 gives it. (R155, R156, R157, R158, R159) -/
def Obligations.SourceFrequencies : Prop :=
  encode .clkFreqHxt48 = .opd 0x10400000#32 [] [] ∧ encode .clkFreqHrc48 = .opd 0x10410000#32 [] [] ∧
  encode .clkFreqClkDll1 = .opd 0x10420000#32 [] [] ∧ encode .clkFreqClkDll2 = .opd 0x10430000#32 [] [] ∧
  (∀ n : Nat, (24000000 * (n + 1)) % 2 = 0) ∧
  ∀ s : State,
    let dll := fun (en : Bool) (stg : BitVec 4) (d : Bool) =>
      if en then some (24000000 * (stg.toNat + 1) / (1 + if d then 1 else 0)) else none
    exec .clkFreqHxt48 s = .next (s.withResult .hcpu (.freq (if s.clk.hxt48Rdy then some 48000000 else none))) ∧
    exec .clkFreqHrc48 s = .next (s.withResult .hcpu (.freq (if s.clk.hrc48Rdy then some 48000000 else none))) ∧
    exec .clkFreqClkDll1 s =
      .next (s.withResult .hcpu (.freq (dll s.clk.dll1En s.clk.dll1Stg s.clk.dll1OutDiv2))) ∧
    exec .clkFreqClkDll2 s =
      .next (s.withResult .hcpu (.freq (dll s.clk.dll2En s.clk.dll2Stg s.clk.dll2OutDiv2)))

/-- CLK.FREQ clk_sys completes with what hrc48, hxt48 or clk_dll1 would give for sel_sys 0, 1 or 3 and with None for 2;
clk_peri with hrc48 or hxt48 for sel_peri 0 or 1; clk_usb with clk_sys or clk_dll2 for sel_usb 0 or 1; clk_peri_div2
with half of clk_peri, truncated, or None; clk_aud_pll with the cache cell. Nothing but the result changes. (R161,
R163, R164, R165, R166, R170) -/
def Obligations.MultiplexedClocks : Prop :=
  ∀ s : State,
    (s.clk.selSys = 0#2 → exec .clkFreqClkSys s = .next (s.withResult .hcpu (.freq (freqHrc48 s.clk)))) ∧
    (s.clk.selSys = 1#2 → exec .clkFreqClkSys s = .next (s.withResult .hcpu (.freq (freqHxt48 s.clk)))) ∧
    (s.clk.selSys = 2#2 → exec .clkFreqClkSys s = .next (s.withResult .hcpu (.freq none))) ∧
    (s.clk.selSys = 3#2 → exec .clkFreqClkSys s = .next (s.withResult .hcpu (.freq (freqDll1 s.clk)))) ∧
    (s.clk.selPeri = 0#1 → exec .clkFreqClkPeri s = .next (s.withResult .hcpu (.freq (freqHrc48 s.clk)))) ∧
    (s.clk.selPeri = 1#1 → exec .clkFreqClkPeri s = .next (s.withResult .hcpu (.freq (freqHxt48 s.clk)))) ∧
    (s.clk.selUsb = 0#1 → exec .clkFreqClkUsb s = .next (s.withResult .hcpu (.freq (freqClkSys s.clk)))) ∧
    (s.clk.selUsb = 1#1 → exec .clkFreqClkUsb s = .next (s.withResult .hcpu (.freq (freqDll2 s.clk)))) ∧
    exec .clkFreqClkPeriDiv2 s = .next (s.withResult .hcpu (.freq
      (match freqClkPeri s.clk with | some f => some (f / 2) | none => none))) ∧
    exec .clkFreqClkAudPll s = .next (s.withResult .hcpu (.freq s.audPllCache))

/-- While hdiv is not 0, CLK.FREQ hclk completes with clk_sys divided by hdiv, truncated, and pclk1 and pclk2 with that
shifted right by their exponents, or None where clk_sys is absent; while hdiv is 0 each of the three is refused.
Nothing but the result changes. (R160, R167, R168, R169) -/
def Obligations.DividedBuses : Prop :=
  ∀ s : State,
    let bus := fun (f : Nat → Nat) =>
      match freqClkSys s.clk with | some g => some (f (g / s.clk.hdiv.toNat)) | none => none
    (s.clk.hdiv ≠ 0#8 →
      exec .clkFreqHclk s = .next (s.withResult .hcpu (.freq (bus fun g => g))) ∧
      exec .clkFreqPclk1 s = .next (s.withResult .hcpu (.freq (bus fun g => g / 2 ^ s.clk.pdiv1.toNat))) ∧
      exec .clkFreqPclk2 s = .next (s.withResult .hcpu (.freq (bus fun g => g / 2 ^ s.clk.pdiv2.toNat)))) ∧
    (s.clk.hdiv = 0#8 →
      exec .clkFreqHclk s = .refused .zeroDivider ∧ exec .clkFreqPclk1 s = .refused .zeroDivider ∧
      exec .clkFreqPclk2 s = .refused .zeroDivider)

/-- Whatever the clock fields hold, if CLK.FREQ of a node other than clk_aud_pll completes with Some(f) then f is at
least 367 and at most 384 000 000, so it fits in 32 bits and is never 0. (R151, R172) -/
def Obligations.ResolvedFrequencyBounds : Prop :=
  ∀ (j : Instr) (s t : State) (f : Nat), j ∈ clkFreqTable → j ≠ .clkFreqClkAudPll → exec j s = .next t →
    t.hcpu.result = .freq (some f) → 367 ≤ f ∧ f ≤ 384000000

/-- By the edges the current selectors choose: if a node on another node's path is absent, that node is absent (or
refused, where hdiv is 0). Clearing the ready or enable bit of one source makes that source absent and does not
change the answer of any node whose path does not contain it. (R152, R171, R153) -/
def Obligations.AbsencePropagates : Prop :=
  (∀ (s : State) (n m : ClkNode), m ∈ clkPath s.clk n → freqOf m s = some none →
    freqOf n s = some none ∨ (freqOf n s = none ∧ s.clk.hdiv = 0#8)) ∧
  (∀ (s : State) (l : ClkLeaf), freqOf (leafNode l) { s with clk := disableSource l s.clk } = some none) ∧
  (∀ (s : State) (l : ClkLeaf) (n : ClkNode), leafNode l ∉ clkPath s.clk n →
    freqOf n { s with clk := disableSource l s.clk } = freqOf n s)

/-- The operation completes for every field and value, changing no state but that field and the result: among the clock
fields exactly the named one takes the value truncated to its width, the ready bits never change, and a value that
fits is stored unchanged. (The truncation, which no decoded operation shows, is log entry 20.) (R175, R126) -/
def Obligations.ClkCfgWritesOneField : Prop :=
  ∀ (f : ClkField) (v : BitVec 16) (s : State),
    exec (.clkCfg f v) s = .next ({ s with clk := setClkField f v s.clk }.withResult .hcpu .done) ∧
    (setClkField f v s.clk).hxt48Rdy = s.clk.hxt48Rdy ∧ (setClkField f v s.clk).hrc48Rdy = s.clk.hrc48Rdy ∧
    (let value := fun (g : ClkField) (r : ClkRegs) => match g with
      | .dll1En => r.dll1En.toNat | .dll1Stg => r.dll1Stg.toNat | .dll1OutDiv2 => r.dll1OutDiv2.toNat
      | .dll2En => r.dll2En.toNat | .dll2Stg => r.dll2Stg.toNat | .dll2OutDiv2 => r.dll2OutDiv2.toNat
      | .selSys => r.selSys.toNat | .selPeri => r.selPeri.toNat | .selUsb => r.selUsb.toNat
      | .hdiv => r.hdiv.toNat | .pdiv1 => r.pdiv1.toNat | .pdiv2 => r.pdiv2.toNat
     value f (setClkField f v s.clk) = v.toNat % 2 ^ Config.fieldWidth f ∧
     (Instr.wf (.clkCfg f v) = true → value f (setClkField f v s.clk) = v.toNat) ∧
     ∀ g : ClkField, g ≠ f → value g (setClkField f v s.clk) = value g s.clk)

/-- The operation always completes. Where the environment does nothing between its reads it changes only the result,
which lists the twelve nodes in order with each node's own query answer (a frequency, disabled, or refused while
hdiv is 0), and that answer is the one CLK.FREQ of the node gives. In every case the mailbox, the audio-PLL
sequencer, patch memory and every clock field but the ready bits are unchanged. (The list of what the environment
does between the reads is the model's own, log entry 7.) (R176, R107, R167) -/
def Obligations.DumpReportsEveryNode : Prop :=
  (∀ s : State, s.envGaps = [] → exec .clkDump s = .next (s.withResult .hcpu (.dump
    ([ClkNode.hxt48, .hrc48, .clkDll1, .clkDll2, .clkSys, .clkPeri, .clkPeriDiv2, .hclk, .pclk1, .pclk2, .clkUsb,
      .clkAudPll].map fun n => (n, match freqOf n s with
        | none => .refused | some none => .disabled | some (some f) => .freq f))))) ∧
  (∀ s : State, ∃ t lines, exec .clkDump s = .next t ∧ t.hcpu.result = .dump lines ∧
    lines.map Prod.fst = [.hxt48, .hrc48, .clkDll1, .clkDll2, .clkSys, .clkPeri, .clkPeriDiv2, .hclk, .pclk1, .pclk2,
      .clkUsb, .clkAudPll] ∧
    t.clk = { s.clk with hxt48Rdy := t.clk.hxt48Rdy, hrc48Rdy := t.clk.hrc48Rdy } ∧
    t.apll = { s.apll with calDone := t.apll.calDone, calCnt := t.apll.calCnt, lockDet := t.apll.lockDet } ∧
    t.mbx1 = s.mbx1 ∧ t.mbx2 = s.mbx2 ∧ t.mem = s.mem ∧ t.audPllCache = s.audPllCache ∧ t.iphase = s.iphase ∧
    t.lcpuRun = s.lcpuRun ∧ t.sdmTrace = s.sdmTrace ∧ t.lcpu = s.lcpu ∧ t.bcpu = s.bcpu) ∧
  (∀ (s : State) (p : Instr × ClkNode),
    p ∈ clkFreqTable.zip [.hxt48, .hrc48, .clkDll1, .clkDll2, .clkSys, .clkPeri, .clkPeriDiv2, .hclk, .pclk1, .pclk2,
      .clkUsb, .clkAudPll] → exec p.1 s = answerFreq (freqOf p.2 s) s)

/-- With taken 0 and st Uninitialized the operation completes with taken 1 and nothing else changed but the result. With
taken 1, in any st, it raises Fatal(DoubleConstruct): HCPU is stopped and nothing else changes. From reset the first
take completes and the second is fatal. (That a stopped master is a field of the next state is the model's reading
of R331, log entry 4; that taken is looked at first, in every st, is log entry 18.) (R198, R336, R109) -/
def Obligations.TakeIsCompareAndSwap : Prop :=
  (∀ s : State, s.apll.taken = false → s.apll.st = .uninitialized →
    exec .apllTake s = .next ({ s with apll := { s.apll with taken := true } }.withResult .hcpu .done)) ∧
  (∀ s : State, s.apll.taken = true →
    exec .apllTake s = .next (s.setAgent .hcpu { s.hcpu with stopped := some .doubleConstruct })) ∧
  (∃ t u, exec .apllTake State.reset = .next t ∧ exec .apllTake t = .next u ∧
    u.hcpu.stopped = some .doubleConstruct)

/-- Each of the five operations has the descriptor R123 gives it, and where its precondition holds it completes: BGON,
ANAON and DIGON with their own enable set and st advanced one state; LFCFG with lf_cfg set and st unchanged;
CALSTART with code 16, step 8, cal_fin 0 and st OpenLoopCalibrating. Nothing else changes but the result. (R199,
R200, R201, R202, R204) -/
def Obligations.BringUpSteps : Prop :=
  encode .apllBgon = .opd 0x21400000#32 [] [] ∧ encode .apllAnaon = .opd 0x22400000#32 [] [] ∧
  encode .apllDigon = .opd 0x23400000#32 [] [] ∧ encode .apllLfcfg = .opd 0x24400000#32 [] [] ∧
  encode .apllCalstart = .opd 0x25400000#32 [] [] ∧
  (∀ s : State, s.apll.st = .uninitialized → s.apll.taken = true → exec .apllBgon s = .next
    ({ s with apll := { s.apll with enBg := true, st := .bandgapEnabled } }.withResult .hcpu .done)) ∧
  (∀ s : State, s.apll.st = .bandgapEnabled → exec .apllAnaon s = .next
    ({ s with apll := { s.apll with enAna := true, st := .analogPllEnabled } }.withResult .hcpu .done)) ∧
  (∀ s : State, s.apll.st = .analogPllEnabled → exec .apllDigon s = .next
    ({ s with apll := { s.apll with enDig := true, st := .digitalPllEnabled } }.withResult .hcpu .done)) ∧
  (∀ s : State, s.apll.st = .digitalPllEnabled → s.apll.lfCfg = false → exec .apllLfcfg s = .next
    ({ s with apll := { s.apll with lfCfg := true } }.withResult .hcpu .done)) ∧
  (∀ s : State, s.apll.st = .digitalPllEnabled → s.apll.lfCfg = true → exec .apllCalstart s = .next
    ({ s with apll := { s.apll with code := 16#5, step := 8#4, calFin := false, st := .openLoopCalibrating }
      }.withResult .hcpu .done))

/-- Each operation of the family other than APLL.FREQOF is refused when the requirement of R191 does not hold, except
that APLL.TAKE with taken 1 is fatal instead. (That APLL.TAKE looks at taken first is the model's reading of R192
and R198, log entry 18.) (R191, R192, R401, R404) -/
def Obligations.OutOfOrderStepsAreRefused : Prop :=
  ∀ (s : State) (k : Fin 3) (sr : Fin 11) (code : BitVec 5),
    let r := s.apll
    (r.taken = false → r.st ≠ .uninitialized → exec .apllTake s = .refused .outOfState) ∧
    (r.st ≠ .uninitialized ∨ r.taken = false → exec .apllBgon s = .refused .outOfState) ∧
    (r.st ≠ .bandgapEnabled → exec .apllAnaon s = .refused .outOfState) ∧
    (r.st ≠ .analogPllEnabled → exec .apllDigon s = .refused .outOfState) ∧
    (r.st ≠ .digitalPllEnabled ∨ r.lfCfg = true → exec .apllLfcfg s = .refused .outOfState) ∧
    (r.st ≠ .digitalPllEnabled ∨ r.lfCfg = false → exec .apllCalstart s = .refused .outOfState) ∧
    (r.st ≠ .openLoopCalibrating → exec (.apllMeas code) s = .refused .outOfState) ∧
    (r.st ≠ .openLoopCalibrating ∨ r.step = 0#4 → exec .apllCalstep s = .refused .outOfState) ∧
    (r.st ≠ .openLoopCalibrating ∨ r.step ≠ 0#4 ∨ r.calFin = true → exec .apllCalrefine s = .refused .outOfState) ∧
    (r.st ≠ .openLoopCalibrating ∨ r.calFin = false ∨ r.freqSel ≠ none →
      exec (.apllSdmprog k) s = .refused .outOfState) ∧
    (r.st ≠ .openLoopCalibrating ∨ r.freqSel = none → exec .apllLockchk s = .refused .outOfState) ∧
    (r.st ≠ .closedLoopLocked → exec (.apllCheck sr) s = .refused .outOfState) ∧
    (r.taken = false → exec .apllDrop s = .refused .outOfState)

/-- While calibrating, the measurement always answers a next state, whatever the environment does: either it returns the
count with cal_done 1 and cal_en 0, or it returns Error(Timeout) with cal_done 0 and cal_en 1; in both fc_vco is the
code. If the environment's next steps set the count and the flag it returns that count; if its next step is the
expiry it times out. Nothing else of the machine changes but what the environment drives. (The list of the
environment's steps, and that a wait always ends, are the model's choice, log entry 2.) (R203, R216, R342, R17) -/
def Obligations.MeasurementCompletesOrTimesOut : Prop :=
  ∀ (code : BitVec 5) (s : State), s.apll.st = .openLoopCalibrating →
    (∃ t, exec (.apllMeas code) s = .next t ∧
      ((∃ n, t.hcpu.result = .count n ∧ t.apll = { s.apll with
          fcVco := code, calEn := false, calDone := true, calCnt := n, lockDet := t.apll.lockDet }) ∨
        (t.hcpu.result = .error .timeout ∧ t.apll = { s.apll with
          fcVco := code, calEn := true, calDone := false, calCnt := t.apll.calCnt, lockDet := t.apll.lockDet })) ∧
      CalibratingOnly s t) ∧
    (∀ n es, s.env = calAnswer n ++ es → exec (.apllMeas code) s = .next
      ({ s with env := es, apll := { s.apll with fcVco := code, calDone := true, calEn := false, calCnt := n }
        }.withResult .hcpu (.count n))) ∧
    (∀ es, s.env = .expire :: es → exec (.apllMeas code) s = .next
      ({ s with env := es, apll := { s.apll with fcVco := code, calDone := false, calEn := true }
        }.withResult .hcpu (.error .timeout)))

/-- While the search has steps left, one iteration measures at the current code. When the environment answers n it
completes with the code increased by the step if n < 1838, decreased by it if n > 1838, unchanged if n = 1838, and
the step halved; fc_vco is the code measured. Whatever the environment does it answers a next state, and if the wait
expires it returns Error(Timeout) with code and step unchanged and cal_en 1; outside the audio-PLL registers only
what the environment drives, its own lists and the result change. (The list of the environment's steps, and that a
wait always ends, are the model's choice, log entry 2; that the sum and the difference wrap in 5 bits, which no run
reaches, is the model's reading, log entry 14.) (R205, R206, R216) -/
def Obligations.SearchStepMovesTowardTheTarget : Prop :=
  ∀ s : State, s.apll.st = .openLoopCalibrating → s.apll.step ≠ 0#4 →
    let moved := fun (n : BitVec 16) =>
      if n.toNat < 1838 then s.apll.code + s.apll.step.setWidth 5
      else if 1838 < n.toNat then s.apll.code - s.apll.step.setWidth 5 else s.apll.code
    (∀ n es, s.env = calAnswer n ++ es → exec .apllCalstep s = .next
      ({ s with env := es, apll := { s.apll with
          fcVco := s.apll.code, calDone := true, calEn := false, calCnt := n, code := moved n,
          step := s.apll.step >>> 1 } }.withResult .hcpu .done)) ∧
    (∀ es, s.env = .expire :: es → exec .apllCalstep s = .next
      ({ s with env := es, apll := { s.apll with fcVco := s.apll.code, calDone := false, calEn := true }
        }.withResult .hcpu (.error .timeout))) ∧
    (∃ t, exec .apllCalstep s = .next t ∧
      ((t.hcpu.result = .done ∧ t.apll = { s.apll with
          fcVco := s.apll.code, calDone := true, calEn := false, calCnt := t.apll.calCnt,
          lockDet := t.apll.lockDet, code := moved t.apll.calCnt, step := s.apll.step >>> 1 }) ∨
        (t.hcpu.result = .error .timeout ∧ t.apll = { s.apll with
          fcVco := s.apll.code, calDone := false, calEn := true, calCnt := t.apll.calCnt,
          lockDet := t.apll.lockDet })) ∧ CalibratingOnly s t)

/-- With the search converged on a code from 1 to 30 and the environment answering the three measurements (converged,
lower, higher), the operation completes with code and fc_vco the lower neighbour if its deviation is no larger than
the other two, else the higher if its deviation is no larger than the converged one's, else the converged code, and
cal_fin 1. From code 31 only two measurements are made and 32 is no candidate. A wait that expires at the first
measurement returns Error(Timeout) with code and cal_fin unchanged. Whatever the environment does, from every
converged code the operation answers a next state, either done with cal_fin 1 and fc_vco the code or Error(Timeout)
with code and cal_fin unchanged and cal_en 1, and outside the audio-PLL registers only what the environment drives,
its own lists and the result change. (The list of the environment's steps, and that a wait always ends, are the
model's choice, log entry 2; the refinement at code 0, which no run reaches, is the model's reading, log entry 14.)
(R208, R216) -/
def Obligations.RefinementPicksTheNearestCode : Prop :=
  ∀ s : State, s.apll.st = .openLoopCalibrating → s.apll.step = 0#4 → s.apll.calFin = false →
    let c := s.apll.code
    let ended := fun (sel : BitVec 5) (n : BitVec 16) (es : List EnvEvent) =>
      ({ s with env := es, apll := { s.apll with
          calDone := true, calEn := false, calCnt := n, code := sel, fcVco := sel, calFin := true }
        } : State).withResult .hcpu .done
    (1 ≤ c.toNat → c.toNat ≤ 30 → ∀ nMid nLo nHi es, s.env = calAnswer nMid ++ calAnswer nLo ++ calAnswer nHi ++ es →
      exec .apllCalrefine s = .next (ended
        (if devFromTarget nLo ≤ devFromTarget nMid ∧ devFromTarget nLo ≤ devFromTarget nHi then c - 1#5
         else if devFromTarget nHi ≤ devFromTarget nMid then c + 1#5 else c) nHi es)) ∧
    (c = 31#5 → ∀ nMid nLo es, s.env = calAnswer nMid ++ calAnswer nLo ++ es →
      exec .apllCalrefine s = .next (ended
        (if devFromTarget nLo ≤ devFromTarget nMid then 30#5 else 31#5) nLo es)) ∧
    (∀ es, s.env = .expire :: es → exec .apllCalrefine s = .next
      ({ s with env := es, apll := { s.apll with fcVco := c, calDone := false, calEn := true }
        }.withResult .hcpu (.error .timeout))) ∧
    (∃ t, exec .apllCalrefine s = .next t ∧ CalibratingOnly s t ∧
      ((t.hcpu.result = .done ∧ t.apll = { s.apll with
          fcVco := t.apll.code, calDone := true, calEn := false, calCnt := t.apll.calCnt, lockDet := t.apll.lockDet,
          code := t.apll.code, calFin := true }) ∨
        (t.hcpu.result = .error .timeout ∧ t.apll = { s.apll with
          fcVco := t.apll.fcVco, calDone := false, calEn := true, calCnt := t.apll.calCnt,
          lockDet := t.apll.lockDet })))

/-- If every measurement at a code returns the same function of it, then from any converged code from 1 to 31 the
refinement completes on a code whose count is at most as far from 1838 as that of the converged code and of every
neighbour that exists (code 31 has none above it, and is measured with two measurements); monotonicity is not
needed. (The list of the environment's steps is the model's choice, log entry 2.) (R209, R208, 95_test_vectors.md
S3) -/
def Obligations.RefinementIsNoWorse : Prop :=
  ∀ (g : BitVec 5 → BitVec 16) (s : State) (es : List EnvEvent), s.apll.st = .openLoopCalibrating →
    s.apll.step = 0#4 → s.apll.calFin = false →
    (1 ≤ s.apll.code.toNat → s.apll.code.toNat ≤ 30 →
      s.env = calAnswer (g s.apll.code) ++ calAnswer (g (s.apll.code - 1#5)) ++ calAnswer (g (s.apll.code + 1#5)) ++ es →
      ∃ t, exec .apllCalrefine s = .next t ∧ t.hcpu.result = .done ∧
        devFromTarget (g t.apll.code) ≤ devFromTarget (g s.apll.code) ∧
        devFromTarget (g t.apll.code) ≤ devFromTarget (g (s.apll.code - 1#5)) ∧
        devFromTarget (g t.apll.code) ≤ devFromTarget (g (s.apll.code + 1#5))) ∧
    (s.apll.code = 31#5 → s.env = calAnswer (g 31#5) ++ calAnswer (g 30#5) ++ es →
      ∃ t, exec .apllCalrefine s = .next t ∧ t.hcpu.result = .done ∧
        devFromTarget (g t.apll.code) ≤ devFromTarget (g 31#5) ∧
        devFromTarget (g t.apll.code) ≤ devFromTarget (g 30#5))

/-- While calibrating with the calibration finished and no frequency chosen, the operation completes with fcw and sdin,
and after the three events in order sdm_fcw and sdm_sdin, those of APLL_TABLE[k], and freq_sel Some(k); nothing else
changes but the result. (The trace of events is the model's own field, log entry 15.) (R210) -/
def Obligations.SdmProgramming : Prop :=
  ∀ (k : Fin 3) (s : State), s.apll.st = .openLoopCalibrating → s.apll.calFin = true → s.apll.freqSel = none →
    exec (.apllSdmprog k) s = .next
      ({ s with
          sdmTrace := s.sdmTrace ++ [SdmEvent.sdmReset, SdmEvent.sdmRelease, SdmEvent.sdmReset]
          apll := { s.apll with
            fcw := Config.apllFcw k, sdin := Config.apllSdin k, sdmFcw := Config.apllFcw k,
            sdmSdin := Config.apllSdin k, freqSel := some k } }.withResult .hcpu .done)

/-- While calibrating with a frequency chosen, the operation completes, returns lock_det as read, moves to
ClosedLoopLocked and puts the chosen frequency in the cache; lock_warn is set when lock_det is 0 and left alone when
it is 1. Nothing else changes. (R211, R212, R333) -/
def Obligations.LockCheckOnlyWarns : Prop :=
  ∀ (k : Fin 3) (s : State), s.apll.st = .openLoopCalibrating → s.apll.freqSel = some k →
    exec .apllLockchk s = .next
      ({ s with
          audPllCache := some (Config.apllHz k)
          apll := { s.apll with st := .closedLoopLocked, lockWarn := s.apll.lockWarn || !s.apll.lockDet }
        }.withResult .hcpu (.bit s.apll.lockDet))

/-- APLL.FREQOF completes in every state with 0, 1, 0, 0, 1, 0, 0, 1, 0, 1, 0 for indices 0 to 10 and changes nothing
but the result. While running with frequency k configured, APLL.CHECK of a rate of family k completes with nothing
changed but the result; of any other rate it raises Fatal(PllIncompatible), stopping HCPU and changing nothing else;
for k = 2 that is every rate. (That a stopped master is a field of the next state is the model's reading of R331,
log entry 4.) (R197, R213, R337) -/
def Obligations.SampleRateFamiliesAndCheck : Prop :=
  (∀ (sr : Fin 11) (s : State), exec (.apllFreqof sr) s = .next (s.withResult .hcpu
    (.index (([0, 1, 0, 0, 1, 0, 0, 1, 0, 1, 0] : List (Fin 3)).getD sr.val 0)))) ∧
  (∀ (sr : Fin 11) (k : Fin 3) (s : State), s.apll.st = .closedLoopLocked → s.apll.freqSel = some k →
    let family := ([0, 1, 0, 0, 1, 0, 0, 1, 0, 1, 0] : List (Fin 3)).getD sr.val 0
    (family = k → exec (.apllCheck sr) s = .next (s.withResult .hcpu .done)) ∧
    (family ≠ k → exec (.apllCheck sr) s =
      .next (s.setAgent .hcpu { s.hcpu with stopped := some .pllIncompatible })) ∧
    (k = 2 → family ≠ k))

/-- With taken 1, in every st, the operation completes: enables, lf_cfg, cal_en, cal_fin, freq_sel, lock_warn and the
cache are cleared, st is Uninitialized and taken 0; the tuning code, the search registers, the count, the flag and
both divider pairs keep their values, and nothing else changes but the result. A second drop is refused. (R215,
R404) -/
def Obligations.TeardownFromAnyState : Prop :=
  ∀ s : State, s.apll.taken = true →
    ∃ t, t = { s with
        audPllCache := none
        apll := { s.apll with
          enDig := false, enAna := false, enBg := false, lfCfg := false, calEn := false, calFin := false,
          freqSel := none, lockWarn := false, st := .uninitialized, taken := false } }.withResult .hcpu .done ∧
      exec .apllDrop s = .next t ∧ exec .apllDrop t = .refused .outOfState

/-- From any state in which the enables and sub-state bits agree with st, the search is in range (step 8, 4, 2, 1 or 0
and the code never able to leave 1 to 31 while searching) and the cache holds the configured frequency exactly while
running, every step that answers a next state leads to such a state, whatever the environment answers. (R191, R207,
R60, R58) -/
def Obligations.StepKeepsThePllInvariant : Prop :=
  ∀ s t : State, s.PllOk → step s = .next t → t.PllOk

/-- REV.CLASS, REV.VALID, REV.LETTER and REV.PTYPE complete for every byte in every state, changing nothing but the
result: bytes 0 to 3 are A3OrEarlier with the byte, valid, not letter series, patch type A3; 7 is A4 and 15 is B4,
both valid, letter series, patch type LetterSeries; every other byte is Invalid with the byte, not valid, not letter
series, no patch type. REV.RDID completes with CHIPID and changes nothing but the result; at reset CHIPID holds the
series ID in bits [31:24], the company ID in [23:16], the package ID in [15:8] and the revision ID in [7:0], and no
operation changes it. (R291, R292, R293, R294, R295) -/
def Obligations.RevisionClassification : Prop :=
  encode .revRdid = .opd 0x40400000#32 [] [] ∧
  (State.reset.chipId.extractLsb' 24 8 = Config.seriesId ∧ State.reset.chipId.extractLsb' 16 8 = Config.companyId ∧
    State.reset.chipId.extractLsb' 8 8 = Config.packageId ∧ State.reset.chipId.extractLsb' 0 8 = Config.revId) ∧
  (∀ (j : Instr) (s t : State), exec j s = .next t → t.chipId = s.chipId) ∧
  (∀ b : Byte, encode (.revClass b) = .opd (0x41#8 ++ 1#2 ++ 0#14 ++ b) [] [] ∧
    encode (.revValid b) = .opd (0x42#8 ++ 1#2 ++ 0#14 ++ b) [] [] ∧
    encode (.revLetter b) = .opd (0x43#8 ++ 1#2 ++ 0#14 ++ b) [] [] ∧
    encode (.revPtype b) = .opd (0x44#8 ++ 1#2 ++ 0#14 ++ b) [] []) ∧
  ∀ (b : Byte) (s : State),
    exec .revRdid s = .next (s.withResult .hcpu (.word s.chipId)) ∧
    (let out := fun (r : ChipRevision) (valid letter : Bool) (p : Option PatchType) =>
      exec (.revClass b) s = .next (s.withResult .hcpu (.revision r)) ∧
      exec (.revValid b) s = .next (s.withResult .hcpu (.bit valid)) ∧
      exec (.revLetter b) s = .next (s.withResult .hcpu (.bit letter)) ∧
      exec (.revPtype b) s = .next (s.withResult .hcpu (.patch p))
     (b ∈ [0x00#8, 0x01#8, 0x02#8, 0x03#8] → out (.a3OrEarlier b) true false (some .a3)) ∧
     (b = 0x07#8 → out .a4 true true (some .letterSeries)) ∧
     (b = 0x0F#8 → out .b4 true true (some .letterSeries)) ∧
     (b ∉ [0x00#8, 0x01#8, 0x02#8, 0x03#8, 0x07#8, 0x0F#8] → out (.invalid b) false false none))

/-- With the LCPU held in reset and the installer idle: an empty record gives Error(EmptyRecord); else an empty code
blob Error(EmptyCode); else an invalid revision byte Error(InvalidRevision); else a code blob longer than the
selected capacity Error(CodeTooLarge). In each case nothing changes but the result. With the LCPU running or the
installer not idle the operation is refused. (R297, R298, R299, R300, R304, R400) -/
def Obligations.InstallerChecksInOrder : Prop :=
  ∀ (record code : List Byte) (s : State),
    let b : Byte := s.chipId.extractLsb' 0 8
    let fails := fun e => exec (.revInstall record code) s = .next (s.withResult .hcpu (.error e))
    (s.lcpuRun = false → s.iphase = .idle →
      (record = [] → fails .emptyRecord) ∧
      (record ≠ [] → code = [] → fails .emptyCode) ∧
      (record ≠ [] → code ≠ [] → b ∉ [0x00#8, 0x01#8, 0x02#8, 0x03#8, 0x07#8, 0x0F#8] → fails .invalidRevision) ∧
      (record ≠ [] → b ∈ [0x00#8, 0x01#8, 0x02#8, 0x03#8] → Config.a3CodeMax < code.length → fails .codeTooLarge) ∧
      (record ≠ [] → b ∈ [0x07#8, 0x0F#8] → Config.lsCodeMax < code.length → fails .codeTooLarge)) ∧
    (s.lcpuRun = true ∨ s.iphase ≠ .idle → exec (.revInstall record code) s = .refused .installWindow)

/-- With the window open, both lists non-empty, a valid revision and a code blob within the selected capacity, the
install completes with Ok, the installer idle, and nothing changed but the result and patch memory. A byte of the
code region reads as the code blob's byte, or 0 past its end; else a byte of the record (A3) or of the 12-byte
header PACH, entry count, code address OR 1, little-endian (letter series) reads as written; every other address
reads as before. It holds of REV.INSTALL on the part's own layouts, and of the installer on any layouts. (That
addresses have no width and do not wrap is the model's choice, log entry 21.) (R301, R302, R303, R91) -/
def Obligations.InstallerWritesTheLayout : Prop :=
  ∀ (record code : List Byte) (s : State), s.lcpuRun = false → s.iphase = .idle → record ≠ [] → code ≠ [] →
    let b : Byte := s.chipId.extractLsb' 0 8
    let done := fun (out : Out) (head : List Byte) (headAt codeAt max : Nat) =>
      ∃ t, out = .next t ∧ t = { s with mem := t.mem }.withResult .hcpu .ok ∧
        ∀ x : Nat, t.mem.read x =
          if codeAt ≤ x ∧ x < codeAt + max then code.getD (x - codeAt) 0#8
          else if headAt ≤ x ∧ x < headAt + head.length then head.getD (x - headAt) 0#8
          else s.mem.read x
    let writes := fun (L : Config.PatchMap) (out : Out) =>
      (b ∈ [0x00#8, 0x01#8, 0x02#8, 0x03#8] → code.length ≤ L.a3CodeMax →
        done out record L.a3Record L.a3Code L.a3CodeMax) ∧
      (b ∈ [0x07#8, 0x0F#8] → code.length ≤ L.lsCodeMax →
        done out ([0x50#8, 0x41#8, 0x43#8, 0x48#8] ++ le32 L.lsEntryCount ++ le32 (L.lsCode ||| 1#32))
          L.lsBuf L.lsCode.toNat L.lsCodeMax)
    writes Config.patchMap (exec (.revInstall record code) s) ∧
    ∀ L : Config.PatchMap, writes L (installWith L record code s)

/-- For any layouts, if the regions one install writes do not overlap then after an install that returned Ok (a second
one after an earlier Ok included) reading the record region (A3) or the header (letter series) gives the record or
the header back, reading the code region gives the code blob followed by zeros, and the phase is Idle again. (That
addresses have no width and do not wrap is the model's choice, log entry 21.) (R303, R306, R98) -/
def Obligations.InstallPostcondition : Prop :=
  ∀ (L : Config.PatchMap) (record code : List Byte) (s t : State),
    installWith L record code s = .next t → t.hcpu.result = .ok →
    t.iphase = .idle ∧
    ((revisionByte s.chipId).toNat ≤ 3 → RangesDisjoint L.a3Record record.length L.a3Code L.a3CodeMax →
      t.mem.readBytes L.a3Record record.length = record ∧
      t.mem.readBytes L.a3Code L.a3CodeMax = code ++ List.replicate (L.a3CodeMax - code.length) 0#8) ∧
    (3 < (revisionByte s.chipId).toNat → RangesDisjoint L.lsBuf 12 L.lsCode.toNat L.lsCodeMax →
      t.mem.readBytes L.lsBuf 12 = letterHeader L ∧
      t.mem.readBytes L.lsCode.toNat L.lsCodeMax = code ++ List.replicate (L.lsCodeMax - code.length) 0#8)

/-- From any state whose patch memory lists strictly rising addresses and no byte equal to what the unlisted address
reads as, every step that answers a next state leads to such a state. (The form is the model's own way of holding
memory, log entry 5.) (R76, R95) -/
def Obligations.StepKeepsMemoryCanonical : Prop :=
  ∀ s t : State, s.MemOk → step s = .next t → t.MemOk

/-- At reset EX is 1 exactly when ID is 0 on every channel, patch memory is in canonical form, and the audio-PLL
invariant holds. (The canonical form of patch memory is the model's own, log entry 5.) (R39, R381, R383) -/
def Obligations.ResetMeetsTheInvariants : Prop :=
  State.reset.MutexOk ∧ State.reset.MemOk ∧ State.reset.PllOk

/-- For eight words and a width from 1 to 32 whose field ends at or before bit 255, the extracted value is below 2^width
and its bit k is bit (start + k) mod 32 of word (start + k) / 32, fields that straddle two words included; any other
field is refused. (R131) -/
def Obligations.FieldExtraction : Prop :=
  ∀ (ws : List Word) (start width : Nat), ws.length = 8 →
    (1 ≤ width → width ≤ 32 → start + width ≤ 256 → ∃ v, field256 ws start width = some v ∧ v < 2 ^ width ∧
      ∀ k, k < width → v.testBit k = (ws.getD ((start + k) / 32) 0#32).getLsbD ((start + k) % 32)) ∧
    (width = 0 ∨ 32 < width ∨ 256 < start + width → field256 ws start width = none)

/-- If a mailbox operation of the LCPU or BCPU answers a next state and then an operation of family CLK, APLL or REV
does, the two in the other order answer the same final state: nothing one of them reads or writes is touched by the
other, so the order in which they fall is not observable. (That one operation is one step of the run is log entry
8.) (R78, R31) -/
def Obligations.MailboxCommutesWithHcpuFamilies : Prop :=
  ∀ (j k : Instr) (s t u : State), mbxTarget j ≠ none → j.agent ≠ .hcpu → mbxTarget k = none →
    exec j s = .next t → exec k t = .next u → ∃ t', exec k s = .next t' ∧ exec j t' = .next u
end

