-- ==== Sys2Proof/Laws/Decode.lean ====
section
/-! SUPPORT. The fields of a descriptor put together by `opdWord`, the operand codes, and where registers stand. -/

namespace Sys2Proof

section
variable (fam op : BitVec 4) (agent : BitVec 2) (inst : BitVec 1) (idx : BitVec 5) (imm : BitVec 16)

@[simp] theorem opdFam_opdWord : opdFam (opdWord fam op agent inst idx imm) = fam := by
  ext k hk
  simp only [opdFam, opdWord, BitVec.getElem_extractLsb', BitVec.getLsbD_append]
  simp [show ¬ 28 + k < 16 by omega, show ¬ 28 + k - 16 < 5 by omega, show ¬ 28 + k - 16 - 5 < 1 by omega,
    show ¬ 28 + k - 16 - 5 - 1 < 2 by omega, show ¬ 28 + k - 16 - 5 - 1 - 2 < 4 by omega,
    show 28 + k - 16 - 5 - 1 - 2 - 4 = k by omega, hk, BitVec.getLsbD_eq_getElem]

@[simp] theorem opdOp_opdWord : opdOp (opdWord fam op agent inst idx imm) = op := by
  ext k hk
  simp only [opdOp, opdWord, BitVec.getElem_extractLsb', BitVec.getLsbD_append]
  simp [show ¬ 24 + k < 16 by omega, show ¬ 24 + k - 16 < 5 by omega, show ¬ 24 + k - 16 - 5 < 1 by omega,
    show ¬ 24 + k - 16 - 5 - 1 < 2 by omega, show 24 + k - 16 - 5 - 1 - 2 = k by omega, hk, BitVec.getLsbD_eq_getElem]

@[simp] theorem opdAgent_opdWord : opdAgent (opdWord fam op agent inst idx imm) = agent := by
  ext k hk
  simp only [opdAgent, opdWord, BitVec.getElem_extractLsb', BitVec.getLsbD_append]
  simp [show ¬ 22 + k < 16 by omega, show ¬ 22 + k - 16 < 5 by omega, show ¬ 22 + k - 16 - 5 < 1 by omega,
    show 22 + k - 16 - 5 - 1 = k by omega, hk, BitVec.getLsbD_eq_getElem]

@[simp] theorem opdInst_opdWord : opdInst (opdWord fam op agent inst idx imm) = inst := by
  ext k hk
  simp only [opdInst, opdWord, BitVec.getElem_extractLsb', BitVec.getLsbD_append]
  simp [show ¬ 21 + k < 16 by omega, show ¬ 21 + k - 16 < 5 by omega, show 21 + k - 16 - 5 = k by omega, hk,
    BitVec.getLsbD_eq_getElem]

@[simp] theorem opdIdx_opdWord : opdIdx (opdWord fam op agent inst idx imm) = idx := by
  ext k hk
  simp only [opdIdx, opdWord, BitVec.getElem_extractLsb', BitVec.getLsbD_append]
  simp [show ¬ 16 + k < 16 by omega, hk, BitVec.getLsbD_eq_getElem]

@[simp] theorem opdImm_opdWord : opdImm (opdWord fam op agent inst idx imm) = imm := by
  ext k hk
  simp only [opdImm, opdWord, BitVec.getElem_extractLsb', BitVec.getLsbD_append]
  simp [hk, BitVec.getLsbD_eq_getElem]

end

/-- A descriptor is put together from its own fields. -/
theorem opdWord_fields (w : Word) :
    opdWord (opdFam w) (opdOp w) (opdAgent w) (opdInst w) (opdIdx w) (opdImm w) = w := by
  apply BitVec.eq_of_getLsbD_eq
  intro k hk
  simp only [opdFam, opdOp, opdAgent, opdInst, opdIdx, opdImm, opdWord, BitVec.getLsbD_append,
    BitVec.getLsbD_extractLsb']
  by_cases h1 : k < 16
  · simp [h1]
  by_cases h2 : k < 21
  · simp [h1, show k - 16 < 5 by omega, show 16 + (k - 16) = k by omega]
  by_cases h3 : k < 22
  · simp [h1, show ¬ k - 16 < 5 by omega, show k - 16 - 5 < 1 by omega, show 21 + (k - 16 - 5) = k by omega]
  by_cases h4 : k < 24
  · simp [h1, show ¬ k - 16 < 5 by omega, show ¬ k - 16 - 5 < 1 by omega, show k - 16 - 5 - 1 < 2 by omega,
      show 22 + (k - 16 - 5 - 1) = k by omega]
  by_cases h5 : k < 28
  · simp [h1, show ¬ k - 16 < 5 by omega, show ¬ k - 16 - 5 < 1 by omega, show ¬ k - 16 - 5 - 1 < 2 by omega,
      show k - 16 - 5 - 1 - 2 < 4 by omega, show 24 + (k - 16 - 5 - 1 - 2) = k by omega]
  · simp [h1, show ¬ k - 16 < 5 by omega, show ¬ k - 16 - 5 < 1 by omega, show ¬ k - 16 - 5 - 1 < 2 by omega,
      show ¬ k - 16 - 5 - 1 - 2 < 4 by omega, show k - 16 - 5 - 1 - 2 - 4 < 4 by omega,
      show 28 + (k - 16 - 5 - 1 - 2 - 4) = k by omega]

@[simp] theorem agent_ofCode_code (a : Agent) : Agent.ofCode a.code = some a := by cases a <;> rfl

theorem agent_code_of_ofCode (b : BitVec 2) (a : Agent) (h : Agent.ofCode b = some a) : a.code = b := by
  revert h; revert a; revert b; decide +revert

@[simp] theorem inst_ofBit_bit (i : MbxInst) : MbxInst.ofBit i.bit = i := by cases i <;> rfl

@[simp] theorem inst_bit_ofBit (b : BitVec 1) : (MbxInst.ofBit b).bit = b := by revert b; decide

@[simp] theorem clkField_ofCode_code (f : ClkField) : ClkField.ofCode f.code = some f := by cases f <;> rfl

/-! ### Where registers and fields stand -/

/-- A placed field lies in one 32-bit register at a multiple of 4 (R92). -/
theorem fieldPlace_aligned (word raw width : Nat) (h : width ≤ 32) :
    (Config.fieldPlace word raw width).reg % 4 = 0 ∧ (Config.fieldPlace word raw width).bit + width ≤ 32 := by
  have := Nat.mod_lt raw (show 0 < 33 - width by omega)
  constructor <;> simp only [Config.fieldPlace] <;> omega

/-- Every place of a 32-bit register at a multiple of 4 that leaves the field inside it is reached. -/
theorem fieldPlace_reaches (p : FieldPlace) (width : Nat) (h : p.reg % 4 = 0) (hb : p.bit + width ≤ 32) :
    ∃ word raw, Config.fieldPlace word raw width = p := by
  refine ⟨p.reg / 4, p.bit, ?_⟩
  obtain ⟨reg, bit⟩ := p
  simp only at h hb
  simp only [Config.fieldPlace, FieldPlace.mk.injEq]
  exact ⟨by omega, Nat.mod_eq_of_lt (by omega)⟩

/-- Every register of the spec stands at a multiple of 4, and every named field inside one (R92). -/
theorem registers_aligned :
    (∀ i c k, busAddress (Config.mbxBase i) c k % 4 = 0) ∧ Config.chipIdAddr % 4 = 0 ∧ Config.clkBase % 4 = 0 ∧
    (∀ f, (Config.clkFieldPos f).reg % 4 = 0 ∧ (Config.clkFieldPos f).bit + Config.fieldWidth f ≤ 32) ∧
    (Config.hxt48RdyPos.reg % 4 = 0 ∧ Config.hxt48RdyPos.bit + 1 ≤ 32) ∧
    (Config.hrc48RdyPos.reg % 4 = 0 ∧ Config.hrc48RdyPos.bit + 1 ≤ 32) ∧
    ∀ f, (Config.apllFieldPos f).reg % 4 = 0 ∧ (Config.apllFieldPos f).bit + Config.apllFieldWidth f ≤ 32 := by
  refine ⟨fun i c k => ?_, ?_, ?_, fun f => fieldPlace_aligned _ _ _ (by cases f <;> decide),
    fieldPlace_aligned _ _ _ (by decide), fieldPlace_aligned _ _ _ (by decide),
    fun f => fieldPlace_aligned _ _ _ (by cases f <;> decide)⟩
  · simp only [busAddress, Config.mbxBase, Config.mbxStride]
    cases k <;> simp only [Config.mbxOff] <;> omega
  · simp only [Config.chipIdAddr]; omega
  · simp only [Config.clkBase]; omega

end Sys2Proof
end

