-- ==== Sys2Proof/Laws/Memory.lean ====
section
/-! SUPPORT. Patch memory: what a byte read gives after a write, and that every write keeps the canonical form. -/

namespace Sys2Proof.Machine

theorem memory_erase_cons (x : Nat) (b : Byte) (m : Memory) (a : Nat) :
    Memory.erase ((x, b) :: m) a = if x = a then m.erase a else (x, b) :: m.erase a := by
  by_cases h : x = a <;> simp [Memory.erase, h]

/-- An address no entry has reads as an unlisted one does. -/
theorem memory_read_unlisted (m : Memory) (a : Nat) (h : ∀ p ∈ m, p.1 ≠ a) : m.read a = Memory.unlisted a := by
  induction m with
  | nil => rfl
  | cons p m ih =>
    obtain ⟨x, b⟩ := p
    have hx : x ≠ a := h _ List.mem_cons_self
    simp [Memory.read, hx, ih fun p hp => h p (List.mem_cons_of_mem _ hp)]

theorem memory_erase_ne (m : Memory) (a : Nat) (p : Host.Cell) (h : p ∈ m.erase a) : p.1 ≠ a := by
  simpa using (List.mem_filter.1 h).2

theorem memory_read_erase_other (m : Memory) (a x : Nat) (h : x ≠ a) : (m.erase a).read x = m.read x := by
  induction m with
  | nil => rfl
  | cons p m ih =>
    obtain ⟨y, b⟩ := p
    rw [memory_erase_cons]
    split
    · rename_i hy
      have hx : y ≠ x := fun e => h (e.symm.trans hy)
      simp [Memory.read, hx, ih]
    · simp [Memory.read, ih]

theorem memory_read_insert_same (m : Memory) (a : Nat) (v : Byte) (h : ∀ p ∈ m, p.1 ≠ a) : (m.insert a v).read a = v := by
  induction m with
  | nil => simp [Memory.insert, Memory.read]
  | cons p m ih =>
    obtain ⟨x, b⟩ := p
    have hx : x ≠ a := h _ List.mem_cons_self
    unfold Memory.insert
    split
    · simp [Memory.read]
    · simp [Memory.read, hx, ih fun p hp => h p (List.mem_cons_of_mem _ hp)]

theorem memory_read_insert_other (m : Memory) (a x : Nat) (v : Byte) (h : x ≠ a) : (m.insert a v).read x = m.read x := by
  have ha : a ≠ x := fun e => h e.symm
  induction m with
  | nil => simp [Memory.insert, Memory.read, ha]
  | cons p m ih =>
    obtain ⟨y, b⟩ := p
    unfold Memory.insert
    split
    · simp [Memory.read, ha]
    · simp [Memory.read, ih]

@[simp] theorem memory_read_write_same (m : Memory) (a : Nat) (v : Byte) : (m.write a v).read a = v := by
  unfold Memory.write
  split
  · rename_i e
    rw [memory_read_unlisted _ _ (memory_erase_ne m a), e]
  · exact memory_read_insert_same _ _ _ (memory_erase_ne m a)

theorem memory_read_write_other (m : Memory) (a x : Nat) (v : Byte) (h : x ≠ a) :
    (m.write a v).read x = m.read x := by
  unfold Memory.write
  split
  · exact memory_read_erase_other m a x h
  · rw [memory_read_insert_other _ _ _ _ h, memory_read_erase_other m a x h]

/-- What a byte read gives after a write of several bytes: the last byte written there, else what it gave before. -/
theorem memory_read_writeBytes (m : Memory) (a x : Nat) (bs : List Byte) :
    (m.writeBytes a bs).read x = if a ≤ x ∧ x < a + bs.length then bs.getD (x - a) 0#8 else m.read x := by
  induction bs generalizing m a with
  | nil =>
    have h : ¬ (a ≤ x ∧ x < a + 0) := by omega
    simp only [Memory.writeBytes, List.length_nil, if_neg h]
  | cons b bs ih =>
    simp only [Memory.writeBytes, ih, List.length_cons]
    by_cases h : a + 1 ≤ x ∧ x < a + 1 + bs.length
    · have h' : a ≤ x ∧ x < a + (bs.length + 1) := by omega
      have e : x - a = (x - (a + 1)) + 1 := by omega
      rw [if_pos h, if_pos h', e, List.getD_cons_succ]
    · rw [if_neg h]
      by_cases hx : x = a
      · subst hx
        simp
      · have h' : ¬ (a ≤ x ∧ x < a + (bs.length + 1)) := by omega
        rw [if_neg h', memory_read_write_other _ _ _ _ hx]

/-- A run of bytes written whole reads back. -/
theorem memory_readBytes_of (m : Memory) (a : Nat) (bs : List Byte)
    (h : ∀ k, k < bs.length → m.read (a + k) = bs.getD k 0#8) : m.readBytes a bs.length = bs := by
  apply List.ext_getElem
  · simp [Memory.readBytes]
  · intro k h1 h2
    simp [Memory.readBytes, h k h2, h2]

/-! ### The canonical form -/

theorem memory_wf_erase (m : Memory) (a : Nat) (h : m.wf) : (m.erase a).wf :=
  ⟨h.1.filter _, fun p hp => h.2 p (List.mem_filter.1 hp).1⟩

theorem memory_mem_insert (m : Memory) (a : Nat) (v : Byte) (p : Host.Cell) (h : p ∈ m.insert a v) :
    p = (a, v) ∨ p ∈ m := by
  induction m with
  | nil => exact .inl (by simpa [Memory.insert] using h)
  | cons q m ih =>
    unfold Memory.insert at h
    split at h
    · exact List.mem_cons.1 h
    · rcases List.mem_cons.1 h with e | h
      · exact .inr (by rw [e]; exact List.mem_cons_self)
      · exact (ih h).imp id (List.mem_cons_of_mem _)

theorem memory_wf_insert (m : Memory) (a : Nat) (v : Byte) (h : m.wf) (ha : ∀ p ∈ m, p.1 ≠ a)
    (hv : v ≠ Memory.unlisted a) : (m.insert a v).wf := by
  refine ⟨?_, fun p hp => ?_⟩
  · replace h := h.1
    induction m with
    | nil => exact List.pairwise_singleton _ _
    | cons q m ih =>
      obtain ⟨x, b⟩ := q
      obtain ⟨hx, hm⟩ := List.pairwise_cons.1 h
      unfold Memory.insert
      split
      · rename_i hax
        refine List.pairwise_cons.2 ⟨fun p hp => ?_, h⟩
        rcases List.mem_cons.1 hp with e | hp
        · rw [e]; exact hax
        · exact Nat.lt_trans hax (hx p hp)
      · rename_i hax
        refine List.pairwise_cons.2 ⟨fun p hp => ?_, ih (fun p hp => ha p (List.mem_cons_of_mem _ hp)) hm⟩
        have hxa : x ≠ a := ha _ List.mem_cons_self
        rcases memory_mem_insert m a v p hp with e | hp
        · simp only [e]; omega
        · exact hx p hp
  · rcases memory_mem_insert m a v p hp with e | hp
    · rw [e]; exact hv
    · exact h.2 p hp

/-- A write keeps the canonical form. -/
theorem memory_wf_write (m : Memory) (a : Nat) (v : Byte) (h : m.wf) : (m.write a v).wf := by
  unfold Memory.write
  split
  · exact memory_wf_erase m a h
  · exact memory_wf_insert _ _ _ (memory_wf_erase m a h) (memory_erase_ne m a) ‹_›

theorem memory_wf_writeBytes (m : Memory) (a : Nat) (bs : List Byte) (h : m.wf) : (m.writeBytes a bs).wf := by
  induction bs generalizing m a with
  | nil => exact h
  | cons b bs ih => exact ih _ _ (memory_wf_write m a b h)

theorem memory_wf_cons (p : Host.Cell) (m : Memory) (h : Memory.wf (p :: m)) :
    Memory.wf m ∧ (∀ q ∈ m, p.1 < q.1) ∧ p.2 ≠ Memory.unlisted p.1 := by
  obtain ⟨h1, h2⟩ := h
  obtain ⟨hx, hm⟩ := List.pairwise_cons.1 h1
  exact ⟨⟨hm, fun q hq => h2 q (List.mem_cons_of_mem _ hq)⟩, hx, h2 p List.mem_cons_self⟩

/-- An address below every entry reads as an unlisted one does. -/
theorem memory_read_below (m : Memory) (a : Nat) (h : ∀ p ∈ m, a < p.1) : m.read a = Memory.unlisted a :=
  memory_read_unlisted m a fun p hp e => by have := h p hp; omega

/-- Two memories in canonical form that read alike everywhere are the same list. -/
theorem memory_ext (m n : Memory) (hm : m.wf) (hn : n.wf) (h : ∀ a, m.read a = n.read a) : m = n := by
  induction m generalizing n with
  | nil =>
    cases n with
    | nil => rfl
    | cons q n =>
      have hq := (memory_wf_cons q n hn).2.2
      exact absurd (by simpa [Memory.read] using (h q.1).symm) hq
  | cons p m ih =>
    obtain ⟨hm', hpm, hp⟩ := memory_wf_cons p m hm
    cases n with
    | nil => exact absurd (by simpa [Memory.read] using h p.1) hp
    | cons q n =>
      obtain ⟨hn', hqn, hq⟩ := memory_wf_cons q n hn
      obtain ⟨x, b⟩ := p
      obtain ⟨y, c⟩ := q
      have hx := h x
      have hy := h y
      simp only [Memory.read, if_true] at hx hy
      rcases Nat.lt_trichotomy x y with l | e | l
      · have l' : ¬ y = x := by omega
        rw [if_neg l', memory_read_below n x fun r hr => Nat.lt_trans l (hqn r hr)] at hx
        exact absurd hx hp
      · subst e
        rw [if_pos rfl] at hx
        subst hx
        refine congrArg _ (ih n hm' hn' fun a => ?_)
        by_cases e : x = a
        · subst e
          rw [memory_read_below m x hpm, memory_read_below n x hqn]
        · simpa [Memory.read, e] using h a
      · have l' : ¬ x = y := by omega
        rw [if_neg l', memory_read_below m y fun r hr => Nat.lt_trans l (hpm r hr)] at hy
        exact absurd hy.symm hq

theorem reset_mem_wf : State.reset.mem.wf := ⟨List.Pairwise.nil, fun _ h => absurd h List.not_mem_nil⟩

end Sys2Proof.Machine
end

