-- ==== Sys2Proof/Laws/State.lean ====
section
/-! SUPPORT. The field lemmas of the named updates of `State`: what each update leaves in each field. -/

namespace Sys2Proof.Machine

/-! ### Bus masters -/

@[simp] theorem setAgent_mbx1 (s : State) (a : Agent) (x : AgentState) : (s.setAgent a x).mbx1 = s.mbx1 := by cases a <;> rfl
@[simp] theorem setAgent_mbx2 (s : State) (a : Agent) (x : AgentState) : (s.setAgent a x).mbx2 = s.mbx2 := by cases a <;> rfl
@[simp] theorem setAgent_clk (s : State) (a : Agent) (x : AgentState) : (s.setAgent a x).clk = s.clk := by cases a <;> rfl
@[simp] theorem setAgent_audPllCache (s : State) (a : Agent) (x : AgentState) : (s.setAgent a x).audPllCache = s.audPllCache := by cases a <;> rfl
@[simp] theorem setAgent_apll (s : State) (a : Agent) (x : AgentState) : (s.setAgent a x).apll = s.apll := by cases a <;> rfl
@[simp] theorem setAgent_chipId (s : State) (a : Agent) (x : AgentState) : (s.setAgent a x).chipId = s.chipId := by cases a <;> rfl
@[simp] theorem setAgent_mem (s : State) (a : Agent) (x : AgentState) : (s.setAgent a x).mem = s.mem := by cases a <;> rfl
@[simp] theorem setAgent_iphase (s : State) (a : Agent) (x : AgentState) : (s.setAgent a x).iphase = s.iphase := by cases a <;> rfl
@[simp] theorem setAgent_lcpuRun (s : State) (a : Agent) (x : AgentState) : (s.setAgent a x).lcpuRun = s.lcpuRun := by cases a <;> rfl
@[simp] theorem setAgent_sdmTrace (s : State) (a : Agent) (x : AgentState) : (s.setAgent a x).sdmTrace = s.sdmTrace := by cases a <;> rfl
@[simp] theorem setAgent_env (s : State) (a : Agent) (x : AgentState) : (s.setAgent a x).env = s.env := by cases a <;> rfl
@[simp] theorem setAgent_envGaps (s : State) (a : Agent) (x : AgentState) : (s.setAgent a x).envGaps = s.envGaps := by cases a <;> rfl
@[simp] theorem setAgent_turns (s : State) (a : Agent) (x : AgentState) : (s.setAgent a x).turns = s.turns := by cases a <;> rfl
@[simp] theorem setAgent_draws (s : State) (a : Agent) (x : AgentState) : (s.setAgent a x).draws = s.draws := by cases a <;> rfl

@[simp] theorem setAgent_agent_same (s : State) (a : Agent) (x : AgentState) : (s.setAgent a x).agent a = x := by
  cases a <;> rfl

theorem setAgent_agent_other (s : State) (a b : Agent) (x : AgentState) (h : b ≠ a) :
    (s.setAgent a x).agent b = s.agent b := by
  cases a <;> cases b <;> first | rfl | exact absurd rfl h

@[simp] theorem setAgent_setAgent (s : State) (a : Agent) (x y : AgentState) :
    (s.setAgent a x).setAgent a y = s.setAgent a y := by
  cases a <;> rfl

theorem setAgent_comm (s : State) (a b : Agent) (x y : AgentState) (h : a ≠ b) :
    (s.setAgent a x).setAgent b y = (s.setAgent b y).setAgent a x := by
  cases a <;> cases b <;> first | rfl | exact absurd rfl h

@[simp] theorem withResult_mbx1 (s : State) (a : Agent) (r : Result) : (s.withResult a r).mbx1 = s.mbx1 := by cases a <;> rfl
@[simp] theorem withResult_mbx2 (s : State) (a : Agent) (r : Result) : (s.withResult a r).mbx2 = s.mbx2 := by cases a <;> rfl
@[simp] theorem withResult_clk (s : State) (a : Agent) (r : Result) : (s.withResult a r).clk = s.clk := by cases a <;> rfl
@[simp] theorem withResult_audPllCache (s : State) (a : Agent) (r : Result) : (s.withResult a r).audPllCache = s.audPllCache := by cases a <;> rfl
@[simp] theorem withResult_apll (s : State) (a : Agent) (r : Result) : (s.withResult a r).apll = s.apll := by cases a <;> rfl
@[simp] theorem withResult_chipId (s : State) (a : Agent) (r : Result) : (s.withResult a r).chipId = s.chipId := by cases a <;> rfl
@[simp] theorem withResult_mem (s : State) (a : Agent) (r : Result) : (s.withResult a r).mem = s.mem := by cases a <;> rfl
@[simp] theorem withResult_iphase (s : State) (a : Agent) (r : Result) : (s.withResult a r).iphase = s.iphase := by cases a <;> rfl
@[simp] theorem withResult_lcpuRun (s : State) (a : Agent) (r : Result) : (s.withResult a r).lcpuRun = s.lcpuRun := by cases a <;> rfl
@[simp] theorem withResult_sdmTrace (s : State) (a : Agent) (r : Result) : (s.withResult a r).sdmTrace = s.sdmTrace := by cases a <;> rfl
@[simp] theorem withResult_env (s : State) (a : Agent) (r : Result) : (s.withResult a r).env = s.env := by cases a <;> rfl
@[simp] theorem withResult_envGaps (s : State) (a : Agent) (r : Result) : (s.withResult a r).envGaps = s.envGaps := by cases a <;> rfl
@[simp] theorem withResult_turns (s : State) (a : Agent) (r : Result) : (s.withResult a r).turns = s.turns := by cases a <;> rfl
@[simp] theorem withResult_draws (s : State) (a : Agent) (r : Result) : (s.withResult a r).draws = s.draws := by cases a <;> rfl

@[simp] theorem withProg_mbx1 (s : State) (a : Agent) (p : List Item) : (s.withProg a p).mbx1 = s.mbx1 := by cases a <;> rfl
@[simp] theorem withProg_mbx2 (s : State) (a : Agent) (p : List Item) : (s.withProg a p).mbx2 = s.mbx2 := by cases a <;> rfl
@[simp] theorem withProg_clk (s : State) (a : Agent) (p : List Item) : (s.withProg a p).clk = s.clk := by cases a <;> rfl
@[simp] theorem withProg_audPllCache (s : State) (a : Agent) (p : List Item) : (s.withProg a p).audPllCache = s.audPllCache := by cases a <;> rfl
@[simp] theorem withProg_apll (s : State) (a : Agent) (p : List Item) : (s.withProg a p).apll = s.apll := by cases a <;> rfl
@[simp] theorem withProg_chipId (s : State) (a : Agent) (p : List Item) : (s.withProg a p).chipId = s.chipId := by cases a <;> rfl
@[simp] theorem withProg_mem (s : State) (a : Agent) (p : List Item) : (s.withProg a p).mem = s.mem := by cases a <;> rfl
@[simp] theorem withProg_iphase (s : State) (a : Agent) (p : List Item) : (s.withProg a p).iphase = s.iphase := by cases a <;> rfl
@[simp] theorem withProg_lcpuRun (s : State) (a : Agent) (p : List Item) : (s.withProg a p).lcpuRun = s.lcpuRun := by cases a <;> rfl
@[simp] theorem withProg_sdmTrace (s : State) (a : Agent) (p : List Item) : (s.withProg a p).sdmTrace = s.sdmTrace := by cases a <;> rfl
@[simp] theorem withProg_env (s : State) (a : Agent) (p : List Item) : (s.withProg a p).env = s.env := by cases a <;> rfl
@[simp] theorem withProg_envGaps (s : State) (a : Agent) (p : List Item) : (s.withProg a p).envGaps = s.envGaps := by cases a <;> rfl
@[simp] theorem withProg_turns (s : State) (a : Agent) (p : List Item) : (s.withProg a p).turns = s.turns := by cases a <;> rfl
@[simp] theorem withProg_draws (s : State) (a : Agent) (p : List Item) : (s.withProg a p).draws = s.draws := by cases a <;> rfl

@[simp] theorem pushItem_mbx1 (s : State) (a : Agent) (it : Item) : (s.pushItem a it).mbx1 = s.mbx1 := by cases a <;> rfl
@[simp] theorem pushItem_mbx2 (s : State) (a : Agent) (it : Item) : (s.pushItem a it).mbx2 = s.mbx2 := by cases a <;> rfl
@[simp] theorem pushItem_clk (s : State) (a : Agent) (it : Item) : (s.pushItem a it).clk = s.clk := by cases a <;> rfl
@[simp] theorem pushItem_audPllCache (s : State) (a : Agent) (it : Item) : (s.pushItem a it).audPllCache = s.audPllCache := by cases a <;> rfl
@[simp] theorem pushItem_apll (s : State) (a : Agent) (it : Item) : (s.pushItem a it).apll = s.apll := by cases a <;> rfl
@[simp] theorem pushItem_chipId (s : State) (a : Agent) (it : Item) : (s.pushItem a it).chipId = s.chipId := by cases a <;> rfl
@[simp] theorem pushItem_mem (s : State) (a : Agent) (it : Item) : (s.pushItem a it).mem = s.mem := by cases a <;> rfl
@[simp] theorem pushItem_iphase (s : State) (a : Agent) (it : Item) : (s.pushItem a it).iphase = s.iphase := by cases a <;> rfl
@[simp] theorem pushItem_lcpuRun (s : State) (a : Agent) (it : Item) : (s.pushItem a it).lcpuRun = s.lcpuRun := by cases a <;> rfl
@[simp] theorem pushItem_sdmTrace (s : State) (a : Agent) (it : Item) : (s.pushItem a it).sdmTrace = s.sdmTrace := by cases a <;> rfl
@[simp] theorem pushItem_env (s : State) (a : Agent) (it : Item) : (s.pushItem a it).env = s.env := by cases a <;> rfl
@[simp] theorem pushItem_envGaps (s : State) (a : Agent) (it : Item) : (s.pushItem a it).envGaps = s.envGaps := by cases a <;> rfl
@[simp] theorem pushItem_turns (s : State) (a : Agent) (it : Item) : (s.pushItem a it).turns = s.turns := by cases a <;> rfl
@[simp] theorem pushItem_draws (s : State) (a : Agent) (it : Item) : (s.pushItem a it).draws = s.draws := by cases a <;> rfl

@[simp] theorem withResult_result (s : State) (a : Agent) (r : Result) : ((s.withResult a r).agent a).result = r := by
  cases a <;> rfl

@[simp] theorem withResult_prog (s : State) (a b : Agent) (r : Result) :
    ((s.withResult a r).agent b).prog = (s.agent b).prog := by
  cases a <;> cases b <;> rfl

@[simp] theorem withResult_handler (s : State) (a b : Agent) (r : Result) :
    ((s.withResult a r).agent b).handler = (s.agent b).handler := by
  cases a <;> cases b <;> rfl

@[simp] theorem withResult_stopped (s : State) (a b : Agent) (r : Result) :
    ((s.withResult a r).agent b).stopped = (s.agent b).stopped := by
  cases a <;> cases b <;> rfl

theorem withResult_agent_other (s : State) (a b : Agent) (r : Result) (h : b ≠ a) :
    (s.withResult a r).agent b = s.agent b := setAgent_agent_other s a b _ h

@[simp] theorem withResult_withResult (s : State) (a : Agent) (r q : Result) :
    (s.withResult a r).withResult a q = s.withResult a q := by
  cases a <;> rfl

@[simp] theorem withProg_result (s : State) (a b : Agent) (p : List Item) :
    ((s.withProg a p).agent b).result = (s.agent b).result := by
  cases a <;> cases b <;> rfl

@[simp] theorem withProg_stopped (s : State) (a b : Agent) (p : List Item) :
    ((s.withProg a p).agent b).stopped = (s.agent b).stopped := by
  cases a <;> cases b <;> rfl

@[simp] theorem withProg_handler (s : State) (a b : Agent) (p : List Item) :
    ((s.withProg a p).agent b).handler = (s.agent b).handler := by
  cases a <;> cases b <;> rfl

@[simp] theorem withProg_prog (s : State) (a : Agent) (p : List Item) : ((s.withProg a p).agent a).prog = p := by
  cases a <;> rfl

theorem withProg_agent_other (s : State) (a b : Agent) (p : List Item) (h : b ≠ a) :
    (s.withProg a p).agent b = s.agent b := setAgent_agent_other s a b _ h

@[simp] theorem pushItem_stopped (s : State) (a b : Agent) (it : Item) :
    ((s.pushItem a it).agent b).stopped = (s.agent b).stopped := by
  cases a <;> cases b <;> rfl

@[simp] theorem pushItem_result (s : State) (a b : Agent) (it : Item) :
    ((s.pushItem a it).agent b).result = (s.agent b).result := by
  cases a <;> cases b <;> rfl

@[simp] theorem withResult_resultWord (s : State) (a : Agent) (v : Word) :
    (s.withResult a (.word v)).resultWord a = v := by
  simp [State.resultWord]

/-! ### Mailbox channels -/

@[simp] theorem setInst_inst_same (s : State) (i : MbxInst) (v : Vector Channel 16) : (s.setInst i v).inst i = v := by
  cases i <;> rfl

theorem setInst_inst_other (s : State) (i j : MbxInst) (v : Vector Channel 16) (h : j ≠ i) :
    (s.setInst i v).inst j = s.inst j := by
  cases i <;> cases j <;> first | rfl | exact absurd rfl h

@[simp] theorem setInst_agent (s : State) (i : MbxInst) (v : Vector Channel 16) (a : Agent) :
    (s.setInst i v).agent a = s.agent a := by
  cases i <;> cases a <;> rfl

@[simp] theorem setAgent_inst (s : State) (a : Agent) (x : AgentState) (i : MbxInst) :
    (s.setAgent a x).inst i = s.inst i := by
  cases a <;> cases i <;> rfl

@[simp] theorem setAgent_channel (s : State) (a : Agent) (x : AgentState) (i : MbxInst) (c : Nat) :
    (s.setAgent a x).channel i c = s.channel i c := by
  simp [State.channel]

@[simp] theorem withResult_channel (s : State) (a : Agent) (r : Result) (i : MbxInst) (c : Nat) :
    (s.withResult a r).channel i c = s.channel i c := setAgent_channel s a _ i c

@[simp] theorem withProg_channel (s : State) (a : Agent) (p : List Item) (i : MbxInst) (c : Nat) :
    (s.withProg a p).channel i c = s.channel i c := setAgent_channel s a _ i c

@[simp] theorem pushItem_channel (s : State) (a : Agent) (it : Item) (i : MbxInst) (c : Nat) :
    (s.pushItem a it).channel i c = s.channel i c := setAgent_channel s a _ i c

@[simp] theorem setChannel_clk (s : State) (i : MbxInst) (c : Nat) (ch : Channel) : (s.setChannel i c ch).clk = s.clk := by cases i <;> rfl
@[simp] theorem setChannel_audPllCache (s : State) (i : MbxInst) (c : Nat) (ch : Channel) : (s.setChannel i c ch).audPllCache = s.audPllCache := by cases i <;> rfl
@[simp] theorem setChannel_apll (s : State) (i : MbxInst) (c : Nat) (ch : Channel) : (s.setChannel i c ch).apll = s.apll := by cases i <;> rfl
@[simp] theorem setChannel_chipId (s : State) (i : MbxInst) (c : Nat) (ch : Channel) : (s.setChannel i c ch).chipId = s.chipId := by cases i <;> rfl
@[simp] theorem setChannel_mem (s : State) (i : MbxInst) (c : Nat) (ch : Channel) : (s.setChannel i c ch).mem = s.mem := by cases i <;> rfl
@[simp] theorem setChannel_iphase (s : State) (i : MbxInst) (c : Nat) (ch : Channel) : (s.setChannel i c ch).iphase = s.iphase := by cases i <;> rfl
@[simp] theorem setChannel_lcpuRun (s : State) (i : MbxInst) (c : Nat) (ch : Channel) : (s.setChannel i c ch).lcpuRun = s.lcpuRun := by cases i <;> rfl
@[simp] theorem setChannel_sdmTrace (s : State) (i : MbxInst) (c : Nat) (ch : Channel) : (s.setChannel i c ch).sdmTrace = s.sdmTrace := by cases i <;> rfl
@[simp] theorem setChannel_hcpu (s : State) (i : MbxInst) (c : Nat) (ch : Channel) : (s.setChannel i c ch).hcpu = s.hcpu := by cases i <;> rfl
@[simp] theorem setChannel_lcpu (s : State) (i : MbxInst) (c : Nat) (ch : Channel) : (s.setChannel i c ch).lcpu = s.lcpu := by cases i <;> rfl
@[simp] theorem setChannel_bcpu (s : State) (i : MbxInst) (c : Nat) (ch : Channel) : (s.setChannel i c ch).bcpu = s.bcpu := by cases i <;> rfl
@[simp] theorem setChannel_env (s : State) (i : MbxInst) (c : Nat) (ch : Channel) : (s.setChannel i c ch).env = s.env := by cases i <;> rfl
@[simp] theorem setChannel_envGaps (s : State) (i : MbxInst) (c : Nat) (ch : Channel) : (s.setChannel i c ch).envGaps = s.envGaps := by cases i <;> rfl
@[simp] theorem setChannel_turns (s : State) (i : MbxInst) (c : Nat) (ch : Channel) : (s.setChannel i c ch).turns = s.turns := by cases i <;> rfl
@[simp] theorem setChannel_draws (s : State) (i : MbxInst) (c : Nat) (ch : Channel) : (s.setChannel i c ch).draws = s.draws := by cases i <;> rfl

@[simp] theorem setChannel_agent (s : State) (i : MbxInst) (c : Nat) (ch : Channel) (a : Agent) :
    (s.setChannel i c ch).agent a = s.agent a := by
  simp [State.setChannel]

/-- What an update of a channel leaves in the channel itself; a number no channel has is ignored. -/
theorem setChannel_channel_same (s : State) (i : MbxInst) (c : Nat) (ch : Channel) (h : c < 16) :
    (s.setChannel i c ch).channel i c = ch := by
  simp [State.channel, State.setChannel, h]

/-- An update of a channel leaves every other channel alone (R31). -/
theorem setChannel_channel_other (s : State) (i j : MbxInst) (c d : Nat) (ch : Channel) (h : j ≠ i ∨ d ≠ c) :
    (s.setChannel i c ch).channel j d = s.channel j d := by
  by_cases hj : j = i
  · subst hj
    have hd : c ≠ d := fun e => (h.resolve_left (fun k => k rfl)) e.symm
    simp [State.channel, State.setChannel, Vector.getElem?_setIfInBounds_ne, hd]
  · simp [State.channel, State.setChannel, setInst_inst_other _ _ _ _ hj]

/-- Writing back what a channel holds changes nothing. -/
theorem setChannel_self (s : State) (i : MbxInst) (c : Nat) : s.setChannel i c (s.channel i c) = s := by
  have h : (s.inst i).setIfInBounds c (s.channel i c) = s.inst i := by
    apply Vector.ext
    intro k hk
    by_cases e : c = k
    · subst e
      simp [State.channel, hk]
    · simp [e]
  unfold State.setChannel
  rw [h]
  cases i <;> rfl

@[simp] theorem setAgent_setChannel (s : State) (a : Agent) (x : AgentState) (i : MbxInst) (c : Nat) (ch : Channel) :
    (s.setAgent a x).setChannel i c ch = (s.setChannel i c ch).setAgent a x := by
  cases a <;> cases i <;> rfl

/-! ### Reset -/

/-- Every channel at reset (R381). -/
@[simp] theorem reset_channel (i : MbxInst) (c : Nat) : State.reset.channel i c = Channel.reset := by
  by_cases h : c < 16
  · cases i <;> simp [State.channel, State.inst, State.reset, h]
  · cases i <;> simp [State.channel, State.inst, State.reset, h]

end Sys2Proof.Machine
end

