-- ==== Sys2Proof/Laws/Ops.lean ====
section
/-! SUPPORT. What the shared operations can do, each said once: the index check, the mailbox register transactions, the
environment's steps, the calibration measurement and the raising of failures. -/

namespace Sys2Proof.Machine

/-! ### The index check -/

/-- The index check is `c < NCH[i]` (R249). -/
theorem chanOk_iff (i : MbxInst) (c : Nat) : chanOk i c = true ↔ c < Config.nch i := by
  unfold chanOk Config.nch
  cases Config.nchIs16 i <;> simp <;> omega

theorem chanOk_lt_16 (i : MbxInst) (c : Nat) (h : chanOk i c = true) : c < 16 := by
  unfold chanOk at h
  cases hb : Config.nchIs16 i <;> simp [hb] at h <;> omega

theorem chanOk_of_lt_4 (i : MbxInst) (c : Nat) (h : c < 4) : chanOk i c = true := by
  simp [chanOk, h]

theorem lt_nch_of_lt_4 (i : MbxInst) (c : Nat) (h : c < 4) : c < Config.nch i :=
  (chanOk_iff i c).1 (chanOk_of_lt_4 i c h)

theorem nch_le_16 (i : MbxInst) : Config.nch i ≤ 16 := by
  unfold Config.nch
  cases Config.nchIs16 i <;> simp

theorem nch_mem (i : MbxInst) : Config.nch i = 4 ∨ Config.nch i = 16 := by
  unfold Config.nch
  cases Config.nchIs16 i <;> simp

@[simp] theorem low16_zext32 (m : BitVec 16) : low16 (zext32 m) = m := by
  apply BitVec.eq_of_getLsbD_eq
  intro k hk
  simp [low16, zext32, hk]
  intro h
  omega

/-! ### The exclusive register's value -/

/-- The exclusive register's value is `{0^29, ID, EX}` (R126 (c)). -/
theorem exrValue_eq (ch : Channel) : exrValue ch = 0#29 ++ ch.id ++ BitVec.ofBool ch.ex := by
  have key : ∀ (i : BitVec 2) (e : Bool),
      (i.setWidth 32 <<< Config.exrIdBit ||| (BitVec.ofBool e).setWidth 32 <<< Config.exrExBit : Word) =
        0#29 ++ i ++ BitVec.ofBool e := by decide
  exact key ch.id ch.ex

/-- `EX` of the exclusive register's value is the channel's (R126 (c)). -/
@[simp] theorem exBit_exrValue (ch : Channel) : exBit (exrValue ch) = ch.ex := by
  have key : ∀ (i : BitVec 2) (e : Bool), (0#29 ++ i ++ BitVec.ofBool e : BitVec 32).getLsbD Config.exrExBit = e := by
    decide
  rw [exBit, exrValue_eq]
  exact key _ _

/-- `ID` of the exclusive register's value is the channel's (R126 (c)). -/
@[simp] theorem idField_exrValue (ch : Channel) : idField (exrValue ch) = ch.id := by
  have key : ∀ (i : BitVec 2) (e : Bool),
      (0#29 ++ i ++ BitVec.ofBool e : BitVec 32).extractLsb' Config.exrIdBit 2 = i := by decide
  rw [idField, exrValue_eq]
  exact key _ _

/-- The unlock datum is 0x00000001 (R248). -/
theorem exrUnlock_eq : Config.exrUnlock = 1#32 := by decide

/-- The unlock datum sets `EX` (R248). -/
@[simp] theorem exBit_exrUnlock : exBit Config.exrUnlock = true := by decide

/-- `EX` stands in bit 0 (R37). -/
theorem exBit_eq (v : Word) : exBit v = v.getLsbD 0 := rfl

/-- What the exclusive register's value decodes to (R135). -/
@[simp] theorem lockCoreOf_exrValue (ch : Channel) :
    lockCoreOf (exrValue ch) = if ch.ex then .unlocked else lockOwner ch.id := by
  simp [lockCoreOf]

/-! ### The chip ID -/

/-- The constant of the part is `{SERIES_ID, COMPANY_ID, PACKAGE_ID, REVID}` (R70). -/
theorem chipId_eq : Config.chipId = Config.seriesId ++ Config.companyId ++ Config.packageId ++ Config.revId := by
  unfold Config.chipId Config.chipIdSeriesBit Config.chipIdCompanyBit Config.chipIdPackageBit Config.chipIdRevisionBit
  apply BitVec.eq_of_getLsbD_eq
  intro k hk
  simp only [BitVec.getLsbD_or, BitVec.getLsbD_shiftLeft, BitVec.getLsbD_setWidth, BitVec.getLsbD_append]
  have z : ∀ (b : Byte) (m : Nat), 8 ≤ m → b.getLsbD m = false := fun b m => BitVec.getLsbD_of_ge b m
  by_cases h1 : k < 8
  · simp [h1, show k < 16 by omega, show k < 24 by omega, show k < 32 by omega]
  by_cases h2 : k < 16
  · simp [h1, h2, z _ k (by omega), show k - 8 < 8 by omega, show k - 8 < 32 by omega, show k < 24 by omega,
      show k < 32 by omega]
  by_cases h3 : k < 24
  · simp [h1, h2, h3, z _ k (by omega), z _ (k - 8) (by omega), show ¬ k - 8 < 8 by omega,
      show k - 8 - 8 = k - 16 by omega, show k - 16 < 8 by omega, show k - 16 < 32 by omega, hk]
  · simp [h1, h2, h3, z _ k (by omega), z _ (k - 8) (by omega), z _ (k - 16) (by omega), show ¬ k - 8 < 8 by omega,
      show ¬ k - 8 - 8 < 8 by omega, show k - 8 - 8 - 8 = k - 24 by omega, show k - 24 < 8 by omega,
      show k - 24 < 32 by omega, hk]

/-! ### Mailbox register transactions -/

theorem mbxRead_some (a : Agent) (i : MbxInst) (c : Nat) (k : MbxReg) (s : State) (h : c < Config.nch i) (v : Word) (s' : State)
    (hr : regRead a i c k s = some (v, s')) : mbxRead a i c k s = .next (s'.withResult a (.word v)) := by
  simp [mbxRead, (chanOk_iff i c).2 h, hr, answer]

theorem mbxRead_none (a : Agent) (i : MbxInst) (c : Nat) (k : MbxReg) (s : State) (h : c < Config.nch i)
    (hr : regRead a i c k s = none) : mbxRead a i c k s = .refused .reservedAccess := by
  simp [mbxRead, (chanOk_iff i c).2 h, hr]

theorem mbxRead_trap (a : Agent) (i : MbxInst) (c : Nat) (k : MbxReg) (s : State) (h : Config.nch i ≤ c) :
    mbxRead a i c k s = raiseFatal a .indexOutOfRange s := by
  have h' : ¬ chanOk i c = true := fun e => absurd ((chanOk_iff i c).1 e) (by omega)
  simp [mbxRead, h']

theorem mbxWrite_some (a : Agent) (i : MbxInst) (c : Nat) (k : MbxReg) (w : Word) (s : State) (h : c < Config.nch i) (s' : State)
    (hr : regWrite i c k w s = some s') : mbxWrite a i c k w s = .next (s'.withResult a .done) := by
  simp [mbxWrite, (chanOk_iff i c).2 h, hr, answer]

theorem mbxWrite_none (a : Agent) (i : MbxInst) (c : Nat) (k : MbxReg) (w : Word) (s : State) (h : c < Config.nch i)
    (hr : regWrite i c k w s = none) : mbxWrite a i c k w s = .refused .reservedAccess := by
  simp [mbxWrite, (chanOk_iff i c).2 h, hr]

theorem mbxWrite_trap (a : Agent) (i : MbxInst) (c : Nat) (k : MbxReg) (w : Word) (s : State) (h : Config.nch i ≤ c) :
    mbxWrite a i c k w s = raiseFatal a .indexOutOfRange s := by
  have h' : ¬ chanOk i c = true := fun e => absurd ((chanOk_iff i c).1 e) (by omega)
  simp [mbxWrite, h']

theorem busRead_some (a : Agent) (i : MbxInst) (c : Nat) (k : MbxReg) (s : State) (h : c < Config.nch i) (v : Word) (s' : State)
    (hr : regRead a i c k s = some (v, s')) : busRead a i c k s = .next (s'.withResult a (.word v)) := by
  simp [busRead, (chanOk_iff i c).2 h, hr, answer]

theorem busRead_none (a : Agent) (i : MbxInst) (c : Nat) (k : MbxReg) (s : State) (h : c < Config.nch i)
    (hr : regRead a i c k s = none) : busRead a i c k s = .refused .reservedAccess := by
  simp [busRead, (chanOk_iff i c).2 h, hr]

theorem busRead_noRegister (a : Agent) (i : MbxInst) (c : Nat) (k : MbxReg) (s : State) (h : Config.nch i ≤ c) :
    busRead a i c k s = .refused .noRegister := by
  have h' : ¬ chanOk i c = true := fun e => absurd ((chanOk_iff i c).1 e) (by omega)
  simp [busRead, h']

theorem busWrite_some (a : Agent) (i : MbxInst) (c : Nat) (k : MbxReg) (w : Word) (s : State) (h : c < Config.nch i) (s' : State)
    (hr : regWrite i c k w s = some s') : busWrite a i c k w s = .next (s'.withResult a .done) := by
  simp [busWrite, (chanOk_iff i c).2 h, hr, answer]

theorem busWrite_none (a : Agent) (i : MbxInst) (c : Nat) (k : MbxReg) (w : Word) (s : State) (h : c < Config.nch i)
    (hr : regWrite i c k w s = none) : busWrite a i c k w s = .refused .reservedAccess := by
  simp [busWrite, (chanOk_iff i c).2 h, hr]

theorem busWrite_noRegister (a : Agent) (i : MbxInst) (c : Nat) (k : MbxReg) (w : Word) (s : State)
    (h : Config.nch i ≤ c) : busWrite a i c k w s = .refused .noRegister := by
  have h' : ¬ chanOk i c = true := fun e => absurd ((chanOk_iff i c).1 e) (by omega)
  simp [busWrite, h']

/-- What a register read does to the state: nothing, or the claim of the channel's mutex (R94). -/
theorem regRead_cases (a : Agent) (i : MbxInst) (c : Nat) (k : MbxReg) (s s' : State) (v : Word)
    (h : regRead a i c k s = some (v, s')) :
    s' = s ∨ (k = .exr ∧ (s.channel i c).ex = true ∧ s' = s.setChannel i c ((s.channel i c).claim a)) := by
  cases k <;> simp only [regRead, Option.some.injEq, Prod.mk.injEq, reduceCtorEq] at h
  case ier => exact .inl h.2.symm
  case isr => exact .inl h.2.symm
  case misr => exact .inl h.2.symm
  case exr =>
    cases e : (s.channel i c).ex
    · exact .inl (by simpa [e] using h.2.symm)
    · exact .inr ⟨rfl, rfl, by simpa [e] using h.2.symm⟩

/-- What a register write does to the state: it replaces the registers of its channel (R94). -/
theorem regWrite_cases (i : MbxInst) (c : Nat) (k : MbxReg) (w : Word) (s s' : State)
    (h : regWrite i c k w s = some s') :
    (k = .ier ∧ s' = s.setChannel i c { s.channel i c with ier := low16 w }) ∨
    (k = .itr ∧ s' = s.setChannel i c { s.channel i c with isr := (s.channel i c).isr ||| low16 w }) ∨
    (k = .icr ∧ s' = s.setChannel i c { s.channel i c with isr := (s.channel i c).isr &&& ~~~(low16 w) }) ∨
    (k = .exr ∧ exBit w = true ∧ s' = s.setChannel i c (s.channel i c).release) := by
  cases k <;> simp only [regWrite, Option.some.injEq, reduceCtorEq] at h
  case ier => exact .inl ⟨rfl, h.symm⟩
  case itr => exact .inr (.inl ⟨rfl, h.symm⟩)
  case icr => exact .inr (.inr (.inl ⟨rfl, h.symm⟩))
  case exr =>
    split at h
    · exact .inr (.inr (.inr ⟨rfl, by assumption, by simpa using h.symm⟩))
    · cases h

/-! ### The environment -/

/-- The environment changes its own lists and the five status inputs it drives, and nothing else (R9). -/
structure EnvOnly (s t : State) : Prop where
  mbx1 : t.mbx1 = s.mbx1
  mbx2 : t.mbx2 = s.mbx2
  clk : t.clk = { s.clk with hxt48Rdy := t.clk.hxt48Rdy, hrc48Rdy := t.clk.hrc48Rdy }
  cache : t.audPllCache = s.audPllCache
  apll : t.apll = { s.apll with calDone := t.apll.calDone, calCnt := t.apll.calCnt, lockDet := t.apll.lockDet }
  chipId : t.chipId = s.chipId
  mem : t.mem = s.mem
  iphase : t.iphase = s.iphase
  lcpuRun : t.lcpuRun = s.lcpuRun
  sdmTrace : t.sdmTrace = s.sdmTrace
  hcpu : t.hcpu = s.hcpu
  lcpu : t.lcpu = s.lcpu
  bcpu : t.bcpu = s.bcpu
  turns : t.turns = s.turns

theorem EnvOnly.refl (s : State) : EnvOnly s s := by constructor <;> rfl

theorem EnvOnly.trans {s t u : State} (h : EnvOnly s t) (g : EnvOnly t u) : EnvOnly s u where
  mbx1 := g.mbx1.trans h.mbx1
  mbx2 := g.mbx2.trans h.mbx2
  clk := by rw [g.clk, h.clk]
  cache := g.cache.trans h.cache
  apll := by rw [g.apll, h.apll]
  chipId := g.chipId.trans h.chipId
  mem := g.mem.trans h.mem
  iphase := g.iphase.trans h.iphase
  lcpuRun := g.lcpuRun.trans h.lcpuRun
  sdmTrace := g.sdmTrace.trans h.sdmTrace
  hcpu := g.hcpu.trans h.hcpu
  lcpu := g.lcpu.trans h.lcpu
  bcpu := g.bcpu.trans h.bcpu
  turns := g.turns.trans h.turns

theorem EnvOnly.channel {s t : State} (h : EnvOnly s t) (i : MbxInst) (c : Nat) : t.channel i c = s.channel i c := by
  cases i
  · simp only [State.channel, State.inst, h.mbx1]
  · simp only [State.channel, State.inst, h.mbx2]

theorem EnvOnly.agent {s t : State} (h : EnvOnly s t) (a : Agent) : t.agent a = s.agent a := by
  cases a
  · exact h.hcpu
  · exact h.lcpu
  · exact h.bcpu

theorem applyEnv_envOnly (e : EnvEvent) (s : State) : EnvOnly s (applyEnv e s) := by
  cases e <;> constructor <;> rfl

/-- The environment never clears `cal_done` (R72). -/
theorem applyEnv_calDone (e : EnvEvent) (s : State) (h : s.apll.calDone = true) : (applyEnv e s).apll.calDone = true := by
  cases e <;> simp [applyEnv, h]

@[simp] theorem applyEnv_env (e : EnvEvent) (s : State) : (applyEnv e s).env = s.env := by cases e <;> rfl

@[simp] theorem applyEnv_envGaps (e : EnvEvent) (s : State) : (applyEnv e s).envGaps = s.envGaps := by cases e <;> rfl

@[simp] theorem applyEnv_draws (e : EnvEvent) (s : State) : (applyEnv e s).draws = s.draws := by cases e <;> rfl

theorem applyEnvs_envOnly (es : List EnvEvent) (s : State) : EnvOnly s (applyEnvs es s) := by
  induction es generalizing s with
  | nil => exact .refl s
  | cons e es ih => exact (applyEnv_envOnly e s).trans (ih _)

theorem envGap_envOnly (s : State) : EnvOnly s (envGap s) := by
  unfold envGap
  split
  · exact .refl s
  · exact EnvOnly.trans (t := { s with envGaps := _ }) (by constructor <;> rfl) (applyEnvs_envOnly _ _)

theorem envGap_eq_self (s : State) (h : s.envGaps = []) : envGap s = s := by
  unfold envGap
  rw [h]

theorem envTurn_envOnly (s : State) : EnvOnly s (envTurn s) := by
  unfold envTurn
  split
  · exact .refl s
  · exact EnvOnly.trans (t := { s with env := _ }) (by constructor <;> rfl) (applyEnv_envOnly _ _)

/-! ### The measurement -/

/-- What the wait for `cal_done` can do: the environment alone acts, and the flag it answers is `cal_done` itself, provided the
wait began with the flag clear (R203). -/
theorem awaitCal_spec (es : List EnvEvent) (s : State) :
    EnvOnly s (awaitCal es s).2 ∧ (s.apll.calDone = false → (awaitCal es s).2.apll.calDone = (awaitCal es s).1) := by
  induction es generalizing s with
  | nil =>
    unfold awaitCal
    split
    · exact ⟨by constructor <;> rfl, fun _ => rfl⟩
    · exact ⟨by constructor <;> rfl, fun h => h⟩
  | cons e es ih =>
    unfold awaitCal
    split
    · exact ⟨by constructor <;> rfl, fun h => h⟩
    · split
      · rename_i h
        exact ⟨(applyEnv_envOnly e s).trans (by constructor <;> rfl), fun _ => h⟩
      · rename_i h
        exact ⟨(applyEnv_envOnly e s).trans (ih _).1, fun _ => (ih _).2 (by simpa using h)⟩

/-- What a measurement that got a count left: the code applied, the flag seen, the request withdrawn, and beyond that only what
the environment did (R203). -/
theorem measure_got (code : BitVec 5) (s t : State) (n : BitVec 16) (h : measure code s = .got n t) :
    t.apll.fcVco = code ∧ t.apll.calDone = true ∧ t.apll.calEn = false ∧ t.apll.calCnt = n ∧
      EnvOnly { s with apll := { s.apll with fcVco := code, calEn := false } } t := by
  unfold measure at h
  dsimp only at h
  generalize hp : awaitCal s.env { s with apll := { s.apll with fcVco := code, calDone := false, calEn := true } } = p at h
  obtain ⟨b, u⟩ := p
  have hs := awaitCal_spec s.env { s with apll := { s.apll with fcVco := code, calDone := false, calEn := true } }
  rw [hp] at hs
  obtain ⟨he, hd⟩ := hs
  cases b
  · cases h
  · injection h with h1 h2
    subst h2
    have ha := he.apll
    refine ⟨?_, hd rfl, rfl, h1, ?_⟩
    · show u.apll.fcVco = code
      rw [ha]
    · constructor
      case apll =>
        show { u.apll with calEn := false } = _
        rw [ha]
      case clk => exact he.clk
      case mbx1 => exact he.mbx1
      case mbx2 => exact he.mbx2
      case cache => exact he.cache
      case chipId => exact he.chipId
      case mem => exact he.mem
      case iphase => exact he.iphase
      case lcpuRun => exact he.lcpuRun
      case sdmTrace => exact he.sdmTrace
      case hcpu => exact he.hcpu
      case lcpu => exact he.lcpu
      case bcpu => exact he.bcpu
      case turns => exact he.turns

/-- What a measurement whose wait expired left: the code applied, the request standing, the flag clear, and beyond that only what
the environment did (R203, R216). -/
theorem measure_expired (code : BitVec 5) (s t : State) (h : measure code s = .expired t) :
    t.apll.fcVco = code ∧ t.apll.calDone = false ∧ t.apll.calEn = true ∧
      EnvOnly { s with apll := { s.apll with fcVco := code, calEn := true } } t := by
  unfold measure at h
  dsimp only at h
  generalize hp : awaitCal s.env { s with apll := { s.apll with fcVco := code, calDone := false, calEn := true } } = p at h
  obtain ⟨b, u⟩ := p
  have hs := awaitCal_spec s.env { s with apll := { s.apll with fcVco := code, calDone := false, calEn := true } }
  rw [hp] at hs
  obtain ⟨he, hd⟩ := hs
  cases b
  · injection h with h1
    subst h1
    have ha := he.apll
    refine ⟨by rw [ha], hd rfl, by rw [ha], ?_⟩
    constructor
    case apll => exact ha
    case clk => exact he.clk
    case mbx1 => exact he.mbx1
    case mbx2 => exact he.mbx2
    case cache => exact he.cache
    case chipId => exact he.chipId
    case mem => exact he.mem
    case iphase => exact he.iphase
    case lcpuRun => exact he.lcpuRun
    case sdmTrace => exact he.sdmTrace
    case hcpu => exact he.hcpu
    case lcpu => exact he.lcpu
    case bcpu => exact he.bcpu
    case turns => exact he.turns
  · cases h

/-- A neighbour's measurement: none where the code does not exist, else one measurement (R208). -/
theorem measureNeighbour_got (p : Bool) (code : BitVec 5) (s t : State) (d : Option Nat)
    (h : measureNeighbour p code s = .got d t) :
    (p = false ∧ d = none ∧ t = s) ∨ (p = true ∧ ∃ n, d = some (deviation n) ∧ measure code s = .got n t) := by
  unfold measureNeighbour at h
  cases p
  · simp at h
    exact .inl ⟨rfl, h.1.symm, h.2.symm⟩
  · simp only [if_true] at h
    cases hm : measure code s with
    | got n u =>
      rw [hm] at h
      injection h with h1 h2
      subst h2
      exact .inr ⟨rfl, n, h1.symm, rfl⟩
    | expired u =>
      rw [hm] at h
      cases h

theorem measureNeighbour_expired (p : Bool) (code : BitVec 5) (s t : State)
    (h : measureNeighbour p code s = .expired t) : p = true ∧ measure code s = .expired t := by
  unfold measureNeighbour at h
  cases p
  · simp at h
  · simp only [if_true] at h
    cases hm : measure code s with
    | got n u =>
      rw [hm] at h
      cases h
    | expired u =>
      rw [hm] at h
      injection h with h1
      exact ⟨rfl, by rw [h1]⟩

/-- A measurement whose answer waits at the head of the environment's steps gets that answer. -/
theorem measure_answered (code : BitVec 5) (s : State) (n : BitVec 16) (es : List EnvEvent)
    (h : s.env = .calCnt n :: .calDone :: es) :
    measure code s = .got n
      { s with env := es, apll := { s.apll with fcVco := code, calDone := true, calEn := false, calCnt := n } } := by
  simp [measure, h, awaitCal, applyEnv]

/-- A measurement whose wait the environment lets expire first. -/
theorem measure_timeout (code : BitVec 5) (s : State) (es : List EnvEvent) (h : s.env = .expire :: es) :
    measure code s = .expired
      { s with env := es, apll := { s.apll with fcVco := code, calDone := false, calEn := true } } := by
  simp [measure, h, awaitCal]

/-! ### Failures -/

/-- A fatal violation changes nothing but that the issuing master is stopped (R331). -/
theorem raiseFatal_next (a : Agent) (cause : FatalCause) (s t : State) (h : raiseFatal a cause s = .next t) :
    t = s.setAgent a { s.agent a with stopped := some cause } := by
  injection h with h
  exact h.symm

theorem answer_next (a : Agent) (r : Result) (s t : State) (h : answer a r s = .next t) : t = s.withResult a r := by
  injection h with h
  exact h.symm

/-- A guarded operation answers what its effect answers, or refuses. -/
theorem requiring_next (p : Bool) (k : Out) (t : State) (h : (if p then k else .refused .outOfState) = .next t) :
    p = true ∧ k = .next t := by
  cases p
  · simp at h
  · exact ⟨rfl, by simpa using h⟩

end Sys2Proof.Machine
end

