-- ==== Sys2Proof/Laws/Exec.lean ====
section
/-! SUPPORT. What an operation can do, said once per family: a mailbox operation updates its channel and hands back a result or
stops its master; an operation of HCPU alone never touches the mailboxes or another master. -/

namespace Sys2Proof.Machine

/-! ### Mailbox operations -/

theorem mbxRead_next (a : Agent) (i : MbxInst) (c : Nat) (k : MbxReg) (s t : State) (h : mbxRead a i c k s = .next t) :
    (∃ v s', chanOk i c = true ∧ regRead a i c k s = some (v, s') ∧ t = s'.withResult a (.word v)) ∨
    (chanOk i c = false ∧ t = s.setAgent a { s.agent a with stopped := some .indexOutOfRange }) := by
  unfold mbxRead at h
  split at h
  · rename_i hc
    split at h
    · rename_i v s' hr
      exact .inl ⟨v, s', hc, hr, answer_next _ _ _ _ h⟩
    · cases h
  · rename_i hc
    exact .inr ⟨by simpa using hc, raiseFatal_next _ _ _ _ h⟩

theorem mbxWrite_next (a : Agent) (i : MbxInst) (c : Nat) (k : MbxReg) (w : Word) (s t : State)
    (h : mbxWrite a i c k w s = .next t) :
    (∃ s', chanOk i c = true ∧ regWrite i c k w s = some s' ∧ t = s'.withResult a .done) ∨
    (chanOk i c = false ∧ t = s.setAgent a { s.agent a with stopped := some .indexOutOfRange }) := by
  unfold mbxWrite at h
  split at h
  · rename_i hc
    split at h
    · rename_i s' hr
      exact .inl ⟨s', hc, hr, answer_next _ _ _ _ h⟩
    · cases h
  · rename_i hc
    exact .inr ⟨by simpa using hc, raiseFatal_next _ _ _ _ h⟩

theorem busRead_next (a : Agent) (i : MbxInst) (c : Nat) (k : MbxReg) (s t : State) (h : busRead a i c k s = .next t) :
    ∃ v s', chanOk i c = true ∧ regRead a i c k s = some (v, s') ∧ t = s'.withResult a (.word v) := by
  unfold busRead at h
  split at h
  · rename_i hc
    split at h
    · rename_i v s' hr
      exact ⟨v, s', hc, hr, answer_next _ _ _ _ h⟩
    · cases h
  · cases h

theorem busWrite_next (a : Agent) (i : MbxInst) (c : Nat) (k : MbxReg) (w : Word) (s t : State)
    (h : busWrite a i c k w s = .next t) :
    ∃ s', chanOk i c = true ∧ regWrite i c k w s = some s' ∧ t = s'.withResult a .done := by
  unfold busWrite at h
  split at h
  · rename_i hc
    split at h
    · rename_i s' hr
      exact ⟨s', hc, hr, answer_next _ _ _ _ h⟩
    · cases h
  · cases h

/-- What a mailbox operation can do to the registers of its channel (R94). -/
inductive ChannelStep (a : Agent) (ch : Channel) : Channel → Prop where
  | same : ChannelStep a ch ch
  | enable (m : BitVec 16) : ChannelStep a ch { ch with ier := m }
  | trigger (m : BitVec 16) : ChannelStep a ch { ch with isr := ch.isr ||| m }
  | clear (m : BitVec 16) : ChannelStep a ch { ch with isr := ch.isr &&& ~~~m }
  | claim (h : ch.ex = true) : ChannelStep a ch (ch.claim a)
  | release : ChannelStep a ch ch.release

/-- What a mailbox operation of master `a` on channel `c` can do: the channel takes a step and a result is handed back, or the
master is stopped by the index check. -/
def MbxOutcome (a : Agent) (i : MbxInst) (c : Nat) (s t : State) : Prop :=
  (c < 16 ∧ ∃ ch r, ChannelStep a (s.channel i c) ch ∧ t = (s.setChannel i c ch).withResult a r) ∨
    t = s.setAgent a { s.agent a with stopped := some .indexOutOfRange }

theorem regRead_outcome (a : Agent) (i : MbxInst) (c : Nat) (k : MbxReg) (s s' : State) (v : Word) (hc : chanOk i c = true)
    (h : regRead a i c k s = some (v, s')) : MbxOutcome a i c s (s'.withResult a (.word v)) := by
  refine .inl ⟨chanOk_lt_16 i c hc, ?_⟩
  rcases regRead_cases a i c k s s' v h with rfl | ⟨_, hx, rfl⟩
  · exact ⟨s'.channel i c, _, .same, by rw [setChannel_self]⟩
  · exact ⟨_, _, .claim hx, rfl⟩

theorem regWrite_outcome (a : Agent) (i : MbxInst) (c : Nat) (k : MbxReg) (w : Word) (s s' : State) (hc : chanOk i c = true)
    (h : regWrite i c k w s = some s') : MbxOutcome a i c s (s'.withResult a .done) := by
  refine .inl ⟨chanOk_lt_16 i c hc, ?_⟩
  rcases regWrite_cases i c k w s s' h with ⟨_, rfl⟩ | ⟨_, rfl⟩ | ⟨_, rfl⟩ | ⟨_, _, rfl⟩
  · exact ⟨_, _, .enable _, rfl⟩
  · exact ⟨_, _, .trigger _, rfl⟩
  · exact ⟨_, _, .clear _, rfl⟩
  · exact ⟨_, _, .release, rfl⟩

theorem mbxRead_outcome (a : Agent) (i : MbxInst) (c : Nat) (k : MbxReg) (s t : State) (h : mbxRead a i c k s = .next t) :
    MbxOutcome a i c s t := by
  rcases mbxRead_next a i c k s t h with ⟨v, s', hc, hr, rfl⟩ | ⟨_, e⟩
  · exact regRead_outcome a i c k s s' v hc hr
  · exact .inr e

theorem mbxWrite_outcome (a : Agent) (i : MbxInst) (c : Nat) (k : MbxReg) (w : Word) (s t : State)
    (h : mbxWrite a i c k w s = .next t) : MbxOutcome a i c s t := by
  rcases mbxWrite_next a i c k w s t h with ⟨s', hc, hr, rfl⟩ | ⟨_, e⟩
  · exact regWrite_outcome a i c k w s s' hc hr
  · exact .inr e

theorem busRead_outcome (a : Agent) (i : MbxInst) (c : Nat) (k : MbxReg) (s t : State) (h : busRead a i c k s = .next t) :
    MbxOutcome a i c s t := by
  obtain ⟨v, s', hc, hr, rfl⟩ := busRead_next a i c k s t h
  exact regRead_outcome a i c k s s' v hc hr

theorem busWrite_outcome (a : Agent) (i : MbxInst) (c : Nat) (k : MbxReg) (w : Word) (s t : State)
    (h : busWrite a i c k w s = .next t) : MbxOutcome a i c s t := by
  obtain ⟨s', hc, hr, rfl⟩ := busWrite_next a i c k w s t h
  exact regWrite_outcome a i c k w s s' hc hr

/-- What any mailbox operation can do. -/
theorem exec_mbx_outcome (j : Instr) (i : MbxInst) (c : Nat) (s t : State) (hj : mbxTarget j = some (i, c))
    (h : exec j s = .next t) : MbxOutcome j.agent i c s t := by
  cases j <;> simp only [mbxTarget, Option.some.injEq, Prod.mk.injEq, reduceCtorEq] at hj <;> obtain ⟨rfl, rfl⟩ := hj
  case mbxRdier a i c => exact mbxRead_outcome a i c.toNat .ier s t h
  case mbxWrier a i c m => exact mbxWrite_outcome a i c.toNat .ier (zext32 m) s t h
  case mbxTrig a i c m => exact mbxWrite_outcome a i c.toNat .itr (zext32 m) s t h
  case mbxClr a i c m => exact mbxWrite_outcome a i c.toNat .icr (zext32 m) s t h
  case mbxRaw a i c => exact mbxRead_outcome a i c.toNat .isr s t h
  case mbxPend a i c => exact mbxRead_outcome a i c.toNat .misr s t h
  case mbxLock a i c => exact mbxRead_outcome a i c.toNat .exr s t h
  case mbxUnlock a i c => exact mbxWrite_outcome a i c.toNat .exr Config.exrUnlock s t h
  case busRdier a i c => exact busRead_outcome a i c.toNat .ier s t h
  case busWrier a i c w => exact busWrite_outcome a i c.toNat .ier w s t h
  case busTrig a i c w => exact busWrite_outcome a i c.toNat .itr w s t h
  case busClr a i c w => exact busWrite_outcome a i c.toNat .icr w s t h
  case busRaw a i c => exact busRead_outcome a i c.toNat .isr s t h
  case busPend a i c => exact busRead_outcome a i c.toNat .misr s t h
  case busLock a i c => exact busRead_outcome a i c.toNat .exr s t h
  case busUnlock a i c w => exact busWrite_outcome a i c.toNat .exr w s t h
  case busRdItr a i c => exact busRead_outcome a i c.toNat .itr s t h
  case busRdIcr a i c => exact busRead_outcome a i c.toNat .icr s t h
  case busWrIsr a i c w => exact busWrite_outcome a i c.toNat .isr w s t h
  case busWrMisr a i c w => exact busWrite_outcome a i c.toNat .misr w s t h

/-! ### Operations of HCPU alone -/

/-- What an operation of family CLK, APLL or REV leaves alone: the mailboxes, the chip ID, the release of the LCPU, the schedule,
the other masters, and what HCPU has left to issue (R31, R78). -/
structure HcpuOnly (s t : State) : Prop where
  mbx1 : t.mbx1 = s.mbx1
  mbx2 : t.mbx2 = s.mbx2
  chipId : t.chipId = s.chipId
  lcpuRun : t.lcpuRun = s.lcpuRun
  turns : t.turns = s.turns
  lcpu : t.lcpu = s.lcpu
  bcpu : t.bcpu = s.bcpu
  prog : t.hcpu.prog = s.hcpu.prog
  handler : t.hcpu.handler = s.hcpu.handler

theorem HcpuOnly.refl (s : State) : HcpuOnly s s := by constructor <;> rfl

theorem HcpuOnly.result {s t : State} (h : HcpuOnly s t) (r : Result) : HcpuOnly s (t.withResult .hcpu r) :=
  ⟨h.mbx1, h.mbx2, h.chipId, h.lcpuRun, h.turns, h.lcpu, h.bcpu, h.prog, h.handler⟩

theorem HcpuOnly.ofEnv {s t : State} (h : EnvOnly s t) : HcpuOnly s t :=
  ⟨h.mbx1, h.mbx2, h.chipId, h.lcpuRun, h.turns, h.lcpu, h.bcpu, by rw [h.hcpu], by rw [h.hcpu]⟩

theorem HcpuOnly.trans {s t u : State} (h : HcpuOnly s t) (g : HcpuOnly t u) : HcpuOnly s u :=
  ⟨g.mbx1.trans h.mbx1, g.mbx2.trans h.mbx2, g.chipId.trans h.chipId, g.lcpuRun.trans h.lcpuRun, g.turns.trans h.turns,
    g.lcpu.trans h.lcpu, g.bcpu.trans h.bcpu, g.prog.trans h.prog, g.handler.trans h.handler⟩

theorem HcpuOnly.channel {s t : State} (h : HcpuOnly s t) (i : MbxInst) (c : Nat) : t.channel i c = s.channel i c := by
  cases i
  · simp only [State.channel, State.inst, h.mbx1]
  · simp only [State.channel, State.inst, h.mbx2]

theorem answer_hcpuOnly (r : Result) (s t u : State) (h : HcpuOnly s t) (e : answer .hcpu r t = .next u) :
    HcpuOnly s u := by
  rw [answer_next _ _ _ _ e]
  exact h.result r

theorem raiseFatal_hcpuOnly (c : FatalCause) (s u : State) (e : raiseFatal .hcpu c s = .next u) : HcpuOnly s u := by
  rw [raiseFatal_next _ _ _ _ e]
  constructor <;> rfl

theorem answerFreq_hcpuOnly (q : Option (Option Frequency)) (s u : State) (e : answerFreq q s = .next u) :
    HcpuOnly s u := by
  unfold answerFreq at e
  split at e
  · exact answer_hcpuOnly _ _ _ _ (.refl s) e
  · cases e

theorem measure_got_hcpuOnly (code : BitVec 5) (s t : State) (n : BitVec 16) (h : measure code s = .got n t) :
    HcpuOnly s t := by
  obtain ⟨_, _, _, _, e⟩ := measure_got code s t n h
  exact HcpuOnly.trans (t := { s with apll := { s.apll with fcVco := code, calEn := false } }) (by constructor <;> rfl)
    (.ofEnv e)

theorem measure_expired_hcpuOnly (code : BitVec 5) (s t : State) (h : measure code s = .expired t) : HcpuOnly s t := by
  obtain ⟨_, _, _, e⟩ := measure_expired code s t h
  exact HcpuOnly.trans (t := { s with apll := { s.apll with fcVco := code, calEn := true } }) (by constructor <;> rfl)
    (.ofEnv e)

theorem measureNeighbour_got_hcpuOnly (p : Bool) (code : BitVec 5) (s t : State) (d : Option Nat)
    (h : measureNeighbour p code s = .got d t) : HcpuOnly s t := by
  rcases measureNeighbour_got p code s t d h with ⟨_, _, rfl⟩ | ⟨_, n, _, hm⟩
  · exact .refl t
  · exact measure_got_hcpuOnly _ _ _ _ hm

theorem measureNeighbour_expired_hcpuOnly (p : Bool) (code : BitVec 5) (s t : State)
    (h : measureNeighbour p code s = .expired t) : HcpuOnly s t :=
  measure_expired_hcpuOnly _ _ _ (measureNeighbour_expired p code s t h).2

theorem dumpRest_envOnly (ns : List ClkNode) (s : State) : EnvOnly s (dumpRest ns s).2 := by
  induction ns generalizing s with
  | nil => exact .refl s
  | cons n ns ih => exact (envGap_envOnly s).trans (ih _)

theorem dump_envOnly (s : State) : EnvOnly s (dump s).2 := dumpRest_envOnly _ s

theorem requiring_eq (p : Bool) (k : Out) (t : State) (h : requiring p k = .next t) : p = true ∧ k = .next t :=
  requiring_next p k t h

theorem execApllMeas_hcpuOnly (code : BitVec 5) (s t : State) (h : execApllMeas code s = .next t) : HcpuOnly s t := by
  obtain ⟨_, h⟩ := requiring_eq _ _ _ h
  split at h
  · rename_i hm
    exact answer_hcpuOnly _ _ _ _ (measure_got_hcpuOnly _ _ _ _ hm) h
  · rename_i hm
    exact answer_hcpuOnly _ _ _ _ (measure_expired_hcpuOnly _ _ _ hm) h

theorem execApllCalstep_hcpuOnly (s t : State) (h : execApllCalstep s = .next t) : HcpuOnly s t := by
  obtain ⟨_, h⟩ := requiring_eq _ _ _ h
  split at h
  · rename_i hm
    exact answer_hcpuOnly _ _ _ _ ((measure_got_hcpuOnly _ _ _ _ hm).trans (by constructor <;> rfl)) h
  · rename_i hm
    exact answer_hcpuOnly _ _ _ _ (measure_expired_hcpuOnly _ _ _ hm) h

theorem execApllCalrefine_hcpuOnly (s t : State) (h : execApllCalrefine s = .next t) : HcpuOnly s t := by
  obtain ⟨_, h⟩ := requiring_eq _ _ _ h
  split at h
  · rename_i hm
    exact answer_hcpuOnly _ _ _ _ (measure_expired_hcpuOnly _ _ _ hm) h
  · rename_i hm
    have h1 := measure_got_hcpuOnly _ _ _ _ hm
    split at h
    · rename_i hl
      exact answer_hcpuOnly _ _ _ _ (h1.trans (measureNeighbour_expired_hcpuOnly _ _ _ _ hl)) h
    · rename_i hl
      have h2 := h1.trans (measureNeighbour_got_hcpuOnly _ _ _ _ _ hl)
      split at h
      · rename_i hh
        exact answer_hcpuOnly _ _ _ _ (h2.trans (measureNeighbour_expired_hcpuOnly _ _ _ _ hh)) h
      · rename_i hh
        exact answer_hcpuOnly _ _ _ _
          ((h2.trans (measureNeighbour_got_hcpuOnly _ _ _ _ _ hh)).trans (by constructor <;> rfl)) h

/-! ### The installer -/

/-- The patch type of a revision byte (R292, R295). -/
theorem revisionPatch_classify (b : Byte) :
    revisionPatch (classify b) =
      if b.toNat ≤ 3 then some .a3 else if b = 0x07#8 ∨ b = 0x0F#8 then some .letterSeries else none := by
  revert b; decide

@[simp] theorem codeAddr_a3 (L : Config.PatchMap) : codeAddr L .a3 = L.a3Code := rfl
@[simp] theorem codeAddr_letterSeries (L : Config.PatchMap) : codeAddr L .letterSeries = L.lsCode.toNat := rfl
@[simp] theorem codeCapacity_a3 (L : Config.PatchMap) : codeCapacity L .a3 = L.a3CodeMax := rfl
@[simp] theorem codeCapacity_letterSeries (L : Config.PatchMap) : codeCapacity L .letterSeries = L.lsCodeMax := rfl
@[simp] theorem letterHeader_length (L : Config.PatchMap) : (letterHeader L).length = 12 := rfl

/-- An install writes patch memory and returns its phase to idle; nothing else changes (R301 to R303). -/
theorem installWrites_eq (L : Config.PatchMap) (p : PatchType) (record code : List Byte) (s : State) :
    ∃ m, installWrites L p record code s = { s with mem := m, iphase := .idle } := by
  refine ⟨(installWrites L p record code s).mem, ?_⟩
  cases p <;> simp only [installWrites, installCode, installZero, installHead]

theorem installWrites_hcpuOnly (L : Config.PatchMap) (p : PatchType) (record code : List Byte) (s : State) :
    HcpuOnly s (installWrites L p record code s) := by
  obtain ⟨m, e⟩ := installWrites_eq L p record code s
  rw [e]
  constructor <;> rfl

/-- What a byte reads as after the writes of an install whose code fits: in the code region the code blob padded with zeros,
elsewhere what the first write left (R301, R302). -/
theorem installWrites_read (L : Config.PatchMap) (p : PatchType) (record code : List Byte) (s : State)
    (h : code.length ≤ codeCapacity L p) (x : Nat) :
    (installWrites L p record code s).mem.read x =
      if codeAddr L p ≤ x ∧ x < codeAddr L p + codeCapacity L p then code.getD (x - codeAddr L p) 0#8
      else (installHead L p record s).mem.read x := by
  have hm : (installHead L p record { s with iphase := .checked }).mem = (installHead L p record s).mem := by
    cases p <;> rfl
  simp only [installWrites, installCode, installZero, memory_read_writeBytes, List.length_replicate, hm]
  by_cases hc : codeAddr L p ≤ x ∧ x < codeAddr L p + codeCapacity L p
  · by_cases hx : codeAddr L p ≤ x ∧ x < codeAddr L p + code.length
    · rw [if_pos hx, if_pos hc]
    · have e : code.length ≤ x - codeAddr L p := by omega
      rw [if_neg hx, if_pos hc, if_pos hc]
      simp [List.getD_eq_getElem?_getD, List.getElem?_eq_none e, List.getElem?_replicate,
        show x - codeAddr L p < codeCapacity L p by omega]
  · rw [if_neg hc, if_neg hc, if_neg (by omega)]

/-- What the first write of an install leaves: the record on the A3 path, the header on the letter-series path. -/
theorem installHead_read (L : Config.PatchMap) (p : PatchType) (record : List Byte) (s : State) (x : Nat) :
    (installHead L p record s).mem.read x =
      match p with
      | .a3 => if L.a3Record ≤ x ∧ x < L.a3Record + record.length then record.getD (x - L.a3Record) 0#8 else s.mem.read x
      | .letterSeries => if L.lsBuf ≤ x ∧ x < L.lsBuf + 12 then (letterHeader L).getD (x - L.lsBuf) 0#8
          else s.mem.read x := by
  cases p <;> simp only [installHead, memory_read_writeBytes] <;> rfl

/-- What the installer can do: report an error and nothing else, or pass every check and write (R297 to R303). -/
theorem installWith_next (L : Config.PatchMap) (record code : List Byte) (s t : State)
    (h : installWith L record code s = .next t) :
    (∃ e, t = s.withResult .hcpu (.error e)) ∨
    ∃ p, revisionPatch (classify (revisionByte s.chipId)) = some p ∧ code.length ≤ codeCapacity L p ∧
      t = (installWrites L p record code s).withResult .hcpu .ok := by
  unfold installWith at h
  split at h
  · cases h
  · split at h
    · exact .inl ⟨_, answer_next _ _ _ _ h⟩
    · split at h
      · exact .inl ⟨_, answer_next _ _ _ _ h⟩
      · split at h
        · exact .inl ⟨_, answer_next _ _ _ _ h⟩
        · rename_i p hp
          split at h
          · exact .inl ⟨_, answer_next _ _ _ _ h⟩
          · exact .inr ⟨p, hp, by omega, answer_next _ _ _ _ h⟩

/-- The installer where every check passes. -/
theorem installWith_admitted (L : Config.PatchMap) (record code : List Byte) (s : State) (p : PatchType)
    (hr : s.lcpuRun = false) (hi : s.iphase = .idle) (h1 : record ≠ []) (h2 : code ≠ [])
    (hp : revisionPatch (classify (revisionByte s.chipId)) = some p) (hc : code.length ≤ codeCapacity L p) :
    installWith L record code s = .next ((installWrites L p record code s).withResult .hcpu .ok) := by
  have hw : ¬ (s.lcpuRun = true ∨ s.iphase ≠ .idle) := by rw [hr, hi]; simp
  unfold installWith
  rw [if_neg hw, if_neg h1, if_neg h2, hp]
  exact if_neg (by omega)

theorem installWith_hcpuOnly (L : Config.PatchMap) (record code : List Byte) (s t : State)
    (h : installWith L record code s = .next t) : HcpuOnly s t := by
  rcases installWith_next L record code s t h with ⟨e, rfl⟩ | ⟨p, _, _, rfl⟩
  · exact (HcpuOnly.refl s).result _
  · exact (installWrites_hcpuOnly L p record code s).result _

/-! ### Any operation of HCPU alone -/

/-- What an operation of family CLK, APLL or REV can do to the rest of the machine. -/
theorem exec_hcpuOnly (j : Instr) (s t : State) (hj : mbxTarget j = none) (h : exec j s = .next t) : HcpuOnly s t := by
  cases j <;> simp only [mbxTarget, reduceCtorEq] at hj
  case clkFreqHxt48 => exact answerFreq_hcpuOnly (some (freqHxt48 s.clk)) s t h
  case clkFreqHrc48 => exact answerFreq_hcpuOnly (some (freqHrc48 s.clk)) s t h
  case clkFreqClkDll1 => exact answerFreq_hcpuOnly (some (freqDll1 s.clk)) s t h
  case clkFreqClkDll2 => exact answerFreq_hcpuOnly (some (freqDll2 s.clk)) s t h
  case clkFreqClkSys => exact answerFreq_hcpuOnly (some (freqClkSys s.clk)) s t h
  case clkFreqClkPeri => exact answerFreq_hcpuOnly (some (freqClkPeri s.clk)) s t h
  case clkFreqClkPeriDiv2 => exact answerFreq_hcpuOnly (some (freqClkPeriDiv2 s.clk)) s t h
  case clkFreqHclk => exact answerFreq_hcpuOnly (freqHclk s.clk) s t h
  case clkFreqPclk1 => exact answerFreq_hcpuOnly (freqPclk1 s.clk) s t h
  case clkFreqPclk2 => exact answerFreq_hcpuOnly (freqPclk2 s.clk) s t h
  case clkFreqClkUsb => exact answerFreq_hcpuOnly (some (freqClkUsb s.clk)) s t h
  case clkFreqClkAudPll => exact answerFreq_hcpuOnly (some s.audPllCache) s t h
  case clkCfg f v => exact answer_hcpuOnly .done s { s with clk := setClkField f v s.clk } t (by constructor <;> rfl) h
  case clkDump => exact answer_hcpuOnly _ s (dump s).2 t (.ofEnv (dump_envOnly s)) h
  case apllTake =>
    have h : execApllTake s = .next t := h
    unfold execApllTake at h
    split at h
    · exact raiseFatal_hcpuOnly _ _ _ h
    · exact answer_hcpuOnly _ s _ t (by constructor <;> rfl) (requiring_eq _ _ _ h).2
  case apllBgon => exact answer_hcpuOnly _ s _ t (by constructor <;> rfl) (requiring_eq _ _ _ h).2
  case apllAnaon => exact answer_hcpuOnly _ s _ t (by constructor <;> rfl) (requiring_eq _ _ _ h).2
  case apllDigon => exact answer_hcpuOnly _ s _ t (by constructor <;> rfl) (requiring_eq _ _ _ h).2
  case apllLfcfg => exact answer_hcpuOnly _ s _ t (by constructor <;> rfl) (requiring_eq _ _ _ h).2
  case apllCalstart => exact answer_hcpuOnly _ s _ t (by constructor <;> rfl) (requiring_eq _ _ _ h).2
  case apllCalstep => exact execApllCalstep_hcpuOnly s t h
  case apllCalrefine => exact execApllCalrefine_hcpuOnly s t h
  case apllSdmprog k => exact answer_hcpuOnly _ s _ t (by constructor <;> rfl) (requiring_eq _ _ _ h).2
  case apllLockchk =>
    have h : execApllLockchk s = .next t := h
    unfold execApllLockchk at h
    split at h
    · cases h
    · refine answer_hcpuOnly _ s _ t ?_ (requiring_eq _ _ _ h).2
      cases s.apll.lockDet <;> constructor <;> rfl
  case apllFreqof sr => exact answer_hcpuOnly (.index (rateFamily sr)) s s t (.refl s) h
  case apllCheck sr =>
    have h : execApllCheck sr s = .next t := h
    unfold execApllCheck at h
    split at h
    · cases h
    · have h := (requiring_eq _ _ _ h).2
      split at h
      · exact answer_hcpuOnly _ s s t (.refl s) h
      · exact raiseFatal_hcpuOnly _ _ _ h
  case apllDrop => exact answer_hcpuOnly _ s _ t (by constructor <;> rfl) (requiring_eq _ _ _ h).2
  case apllMeas code => exact execApllMeas_hcpuOnly code s t h
  case revRdid => exact answer_hcpuOnly (.word s.chipId) s s t (.refl s) h
  case revClass b => exact answer_hcpuOnly (.revision (classify b)) s s t (.refl s) h
  case revValid b => exact answer_hcpuOnly (.bit (revisionValid (classify b))) s s t (.refl s) h
  case revLetter b => exact answer_hcpuOnly (.bit (revisionLetter (classify b))) s s t (.refl s) h
  case revPtype b => exact answer_hcpuOnly (.patch (revisionPatch (classify b))) s s t (.refl s) h
  case revInstall record code => exact installWith_hcpuOnly _ record code s t h

end Sys2Proof.Machine
end

