-- ==== Sys2Proof/Laws/PerInstr.lean ====
section
/-! SUPPORT. Per operation: its encoding is issued by its own bus master (R121, R122). One lemma per constructor. -/

namespace Sys2Proof

/-- The bus master an encoded operation is issued by. -/
def Encoded.master : Encoded → Option Agent
  | .opd w _ _ => Agent.ofCode (opdAgent w)
  | .bus a _ => some a

theorem encodeHcpu_master (fam op : BitVec 4) (idx : BitVec 5) (imm : BitVec 16) :
    (encodeHcpu fam op idx imm).master = some .hcpu := by
  simp [encodeHcpu, Encoded.master]

theorem encodeMbx_master (op : BitVec 4) (a : Agent) (i : MbxInst) (c : BitVec 5) (m : BitVec 16) :
    (encodeMbx op a i c m).master = some a := by
  simp [encodeMbx, Encoded.master]

theorem encodeInstall_master (record code : List Byte) :
    (Encoded.opd (opdWord 4#4 5#4 Agent.hcpu.code 0#1 0#5 0#16) record code).master = some .hcpu := by
  simp [Encoded.master]

end Sys2Proof

namespace Sys2Proof.Laws.EncodedAgent

/-- The encoding of an operation names the bus master that issues it. -/
def Statement (i : Instr) : Prop := (encode i).master = some i.agent

theorem clkFreqHxt48 : Statement (.clkFreqHxt48) :=
  encodeHcpu_master _ _ _ _

theorem clkFreqHrc48 : Statement (.clkFreqHrc48) :=
  encodeHcpu_master _ _ _ _

theorem clkFreqClkDll1 : Statement (.clkFreqClkDll1) :=
  encodeHcpu_master _ _ _ _

theorem clkFreqClkDll2 : Statement (.clkFreqClkDll2) :=
  encodeHcpu_master _ _ _ _

theorem clkFreqClkSys : Statement (.clkFreqClkSys) :=
  encodeHcpu_master _ _ _ _

theorem clkFreqClkPeri : Statement (.clkFreqClkPeri) :=
  encodeHcpu_master _ _ _ _

theorem clkFreqClkPeriDiv2 : Statement (.clkFreqClkPeriDiv2) :=
  encodeHcpu_master _ _ _ _

theorem clkFreqHclk : Statement (.clkFreqHclk) :=
  encodeHcpu_master _ _ _ _

theorem clkFreqPclk1 : Statement (.clkFreqPclk1) :=
  encodeHcpu_master _ _ _ _

theorem clkFreqPclk2 : Statement (.clkFreqPclk2) :=
  encodeHcpu_master _ _ _ _

theorem clkFreqClkUsb : Statement (.clkFreqClkUsb) :=
  encodeHcpu_master _ _ _ _

theorem clkFreqClkAudPll : Statement (.clkFreqClkAudPll) :=
  encodeHcpu_master _ _ _ _

theorem clkCfg (f : ClkField) (v : BitVec 16) : Statement (.clkCfg f v) :=
  encodeHcpu_master _ _ _ _

theorem clkDump : Statement (.clkDump) :=
  encodeHcpu_master _ _ _ _

theorem apllTake : Statement (.apllTake) :=
  encodeHcpu_master _ _ _ _

theorem apllBgon : Statement (.apllBgon) :=
  encodeHcpu_master _ _ _ _

theorem apllAnaon : Statement (.apllAnaon) :=
  encodeHcpu_master _ _ _ _

theorem apllDigon : Statement (.apllDigon) :=
  encodeHcpu_master _ _ _ _

theorem apllLfcfg : Statement (.apllLfcfg) :=
  encodeHcpu_master _ _ _ _

theorem apllCalstart : Statement (.apllCalstart) :=
  encodeHcpu_master _ _ _ _

theorem apllCalstep : Statement (.apllCalstep) :=
  encodeHcpu_master _ _ _ _

theorem apllCalrefine : Statement (.apllCalrefine) :=
  encodeHcpu_master _ _ _ _

theorem apllSdmprog (k : Fin 3) : Statement (.apllSdmprog k) :=
  encodeHcpu_master _ _ _ _

theorem apllLockchk : Statement (.apllLockchk) :=
  encodeHcpu_master _ _ _ _

theorem apllFreqof (sr : Fin 11) : Statement (.apllFreqof sr) :=
  encodeHcpu_master _ _ _ _

theorem apllCheck (sr : Fin 11) : Statement (.apllCheck sr) :=
  encodeHcpu_master _ _ _ _

theorem apllDrop : Statement (.apllDrop) :=
  encodeHcpu_master _ _ _ _

theorem apllMeas (code : BitVec 5) : Statement (.apllMeas code) :=
  encodeHcpu_master _ _ _ _

theorem mbxRdier (a : Agent) (i : MbxInst) (c : BitVec 5) : Statement (.mbxRdier a i c) :=
  encodeMbx_master _ a i c _

theorem mbxWrier (a : Agent) (i : MbxInst) (c : BitVec 5) (m : BitVec 16) : Statement (.mbxWrier a i c m) :=
  encodeMbx_master _ a i c _

theorem mbxTrig (a : Agent) (i : MbxInst) (c : BitVec 5) (m : BitVec 16) : Statement (.mbxTrig a i c m) :=
  encodeMbx_master _ a i c _

theorem mbxClr (a : Agent) (i : MbxInst) (c : BitVec 5) (m : BitVec 16) : Statement (.mbxClr a i c m) :=
  encodeMbx_master _ a i c _

theorem mbxRaw (a : Agent) (i : MbxInst) (c : BitVec 5) : Statement (.mbxRaw a i c) :=
  encodeMbx_master _ a i c _

theorem mbxPend (a : Agent) (i : MbxInst) (c : BitVec 5) : Statement (.mbxPend a i c) :=
  encodeMbx_master _ a i c _

theorem mbxLock (a : Agent) (i : MbxInst) (c : BitVec 5) : Statement (.mbxLock a i c) :=
  encodeMbx_master _ a i c _

theorem mbxUnlock (a : Agent) (i : MbxInst) (c : BitVec 5) : Statement (.mbxUnlock a i c) :=
  encodeMbx_master _ a i c _

theorem revRdid : Statement (.revRdid) :=
  encodeHcpu_master _ _ _ _

theorem revClass (b : Byte) : Statement (.revClass b) :=
  encodeHcpu_master _ _ _ _

theorem revValid (b : Byte) : Statement (.revValid b) :=
  encodeHcpu_master _ _ _ _

theorem revLetter (b : Byte) : Statement (.revLetter b) :=
  encodeHcpu_master _ _ _ _

theorem revPtype (b : Byte) : Statement (.revPtype b) :=
  encodeHcpu_master _ _ _ _

theorem revInstall (record code : List Byte) : Statement (.revInstall record code) :=
  encodeInstall_master record code

theorem busRdier (a : Agent) (i : MbxInst) (c : BitVec 5) : Statement (.busRdier a i c) :=
  rfl

theorem busWrier (a : Agent) (i : MbxInst) (c : BitVec 5) (w : Word) : Statement (.busWrier a i c w) :=
  rfl

theorem busTrig (a : Agent) (i : MbxInst) (c : BitVec 5) (w : Word) : Statement (.busTrig a i c w) :=
  rfl

theorem busClr (a : Agent) (i : MbxInst) (c : BitVec 5) (w : Word) : Statement (.busClr a i c w) :=
  rfl

theorem busRaw (a : Agent) (i : MbxInst) (c : BitVec 5) : Statement (.busRaw a i c) :=
  rfl

theorem busPend (a : Agent) (i : MbxInst) (c : BitVec 5) : Statement (.busPend a i c) :=
  rfl

theorem busLock (a : Agent) (i : MbxInst) (c : BitVec 5) : Statement (.busLock a i c) :=
  rfl

theorem busUnlock (a : Agent) (i : MbxInst) (c : BitVec 5) (w : Word) : Statement (.busUnlock a i c w) :=
  rfl

theorem busRdItr (a : Agent) (i : MbxInst) (c : BitVec 5) : Statement (.busRdItr a i c) :=
  rfl

theorem busRdIcr (a : Agent) (i : MbxInst) (c : BitVec 5) : Statement (.busRdIcr a i c) :=
  rfl

theorem busWrIsr (a : Agent) (i : MbxInst) (c : BitVec 5) (w : Word) : Statement (.busWrIsr a i c w) :=
  rfl

theorem busWrMisr (a : Agent) (i : MbxInst) (c : BitVec 5) (w : Word) : Statement (.busWrMisr a i c w) :=
  rfl

end Sys2Proof.Laws.EncodedAgent
end

