-- ==== Sys2Proof/Laws/Step.lean ====
section
/-! SUPPORT. What one step of the machine can do, said once: it runs at most one operation of a master that is not stopped,
hands results over, moves programs and the schedule, releases the LCPU, or lets the environment take a step. -/

namespace Sys2Proof.Machine

/-- The master of a bus transaction's operation is the one that issued the transaction (R122). -/
theorem mbxBusInstr_agent (op : BitVec 6) (a : Agent) (i : MbxInst) (c : BitVec 5) (d : Word) (j : Instr)
    (h : mbxBusInstr op a i c d = some j) : j.agent = a := by
  have key : ∀ (p : Prop) [Decidable p] (x : Instr) (o : Option Instr), x.agent = a → (o = some j → j.agent = a) →
      (if p then some x else o) = some j → j.agent = a := by
    intro p _ x o hx ho h
    split at h
    · injection h with h
      exact h ▸ hx
    · exact ho h
  unfold mbxBusInstr at h
  revert h
  iterate 12 refine key _ _ _ rfl ?_
  intro h
  cases h

theorem decodeMailboxAt_agent (a : Agent) (w : Bool) (i : MbxInst) (c off : Nat) (d : Word) (j : Instr)
    (h : decodeMailboxAt a w i c off d = .ok j) : j.agent = a := by
  unfold decodeMailboxAt at h
  split at h
  · cases h
  · split at h
    · cases h
    · split at h
      · rename_i k hk
        injection h with h
        subst h
        exact mbxBusInstr_agent _ _ _ _ _ _ hk
      · cases h

theorem decodeChipIdAt_agent (a : Agent) (w : Bool) (j : Instr) (h : decodeChipIdAt a w = .ok j) : j.agent = a := by
  unfold decodeChipIdAt at h
  split at h
  · cases h
  · split at h
    · rename_i e
      injection h with h
      subst h
      exact e.symm
    · cases h

theorem decodeBus_agent (a : Agent) (t : BusTx) (j : Instr) (h : decodeBus a t = .ok j) : j.agent = a := by
  unfold decodeBus at h
  split at h
  · cases h
  · split at h
    · exact decodeMailboxAt_agent _ _ _ _ _ _ _ h
    · exact decodeChipIdAt_agent _ _ _ h
    · split at h
      · cases h
      · split at h
        · exact decodeMailboxAt_agent _ _ _ _ _ _ _ h
        · exact decodeChipIdAt_agent _ _ _ h
        · cases h
        · cases h

/-- What a predicate must survive to survive every step. -/
structure Kept (P : State → Prop) : Prop where
  result : ∀ s a r, P s → P (s.withResult a r)
  prog : ∀ s a p, P s → P (s.withProg a p)
  stop : ∀ s a cause, P s → (s.agent a).stopped = none → P (s.setAgent a { s.agent a with stopped := some cause })
  turns : ∀ s ts, P s → P { s with turns := ts }
  released : ∀ s, P s → P { s with lcpuRun := true }
  env : ∀ s e es, P s → P (applyEnv e { s with env := es })
  exec : ∀ i s t, P s → (s.agent i.agent).stopped = none → Machine.exec i s = .next t → P t

variable {P : State → Prop}

theorem Kept.push (k : Kept P) (s : State) (a : Agent) (it : Item) (h : P s) : P (s.pushItem a it) := k.prog _ _ _ h

/-- What follows an operation keeps what the operation and the continuation keep. -/
theorem Kept.andThen (a : Agent) (o : Out) (f : State → State) (t : State) (ho : ∀ u, o = .next u → P u)
    (hf : ∀ u, P u → P (f u)) (h : andThen a o f = .next t) : P t := by
  cases o with
  | next u =>
    simp only [Machine.andThen, Host.Outcome.next.injEq] at h
    subst h
    split
    · exact ho u rfl
    · exact hf u (ho u rfl)
  | fault f => cases h
  | refused r => cases h

theorem Kept.runOps (k : Kept P) (a : Agent) (is : List Instr) (s t : State) (hs : P s)
    (hst : (s.agent a).stopped = none) (h : runOps a is s = .next t) : P t := by
  match is with
  | [] =>
    injection h with h
    exact h ▸ hs
  | [i] =>
    simp only [Machine.runOps] at h
    split at h
    · rename_i e
      exact k.exec i s t hs (e ▸ hst) h
    · cases h
  | i :: j :: js =>
    simp only [Machine.runOps] at h
    split at h
    · rename_i e
      exact Kept.andThen a _ _ t (fun u hu => k.exec i s u hs (e ▸ hst) hu) (fun u hu => k.push _ _ _ hu) h
    · cases h

theorem Kept.readModifyIer (k : Kept P) (a : Agent) (i : MbxInst) (c : BitVec 5) (f : BitVec 16 → BitVec 16) (s t : State)
    (hs : P s) (hst : (s.agent a).stopped = none) (h : readModifyIer a i c f s = .next t) : P t :=
  Kept.andThen a _ _ t (fun u hu => k.exec (.mbxRdier a i c) s u hs hst hu) (fun u hu => k.push _ _ _ hu) h

theorem Kept.startPseudo (k : Kept P) (a : Agent) (p : Pseudo) (s t : State) (hs : P s)
    (hst : (s.agent a).stopped = none) (h : startPseudo a p s = .next t) : P t := by
  cases p with
  | trigb i c b => exact k.exec (.mbxTrig a i _ _) s t hs hst h
  | en i c m => exact k.readModifyIer a i _ (fun e => e ||| m) s t hs hst h
  | dis i c m => exact k.readModifyIer a i _ (fun e => e &&& ~~~m) s t hs hst h
  | enb i c b => exact k.readModifyIer a i _ (fun e => e ||| bitMask b) s t hs hst h
  | disb i c b => exact k.readModifyIer a i _ (fun e => e &&& ~~~(bitMask b)) s t hs hst h
  | ispend i c b =>
    exact Kept.andThen a _ _ t (fun u hu => k.exec (.mbxPend a i _) s u hs hst hu) (fun u hu => k.result _ _ _ hu) h
  | clrb i c b => exact k.exec (.mbxClr a i _ _) s t hs hst h
  | tryacq i c =>
    exact Kept.andThen a _ _ t (fun u hu => k.exec (.mbxLock a i _) s u hs hst hu) (fun u hu => k.result _ _ _ hu) h
  | status i c =>
    refine Kept.andThen a _ _ t (fun u hu => k.exec (.mbxLock a i _) s u hs hst hu) (fun u hu => ?_) h
    split
    · exact k.push _ _ _ hu
    · exact k.result _ _ _ hu
  | cal => exact k.runOps a calOps s t hs hst h
  | new j => exact k.runOps a (newOps j) s t hs hst h
  | read =>
    simp only [Machine.startPseudo] at h
    split at h
    · rename_i e
      subst e
      exact Kept.andThen .hcpu _ _ t (fun u hu => k.exec .revRdid s u hs hst hu) (fun u hu => k.push _ _ _ hu) h
    · cases h

theorem Kept.runItem (k : Kept P) (a : Agent) (it : Item) (s t : State) (hs : P s)
    (hst : (s.agent a).stopped = none) (h : runItem a it s = .next t) : P t := by
  cases it with
  | release =>
    simp only [Machine.runItem] at h
    split at h
    · injection h with h
      exact h ▸ k.released s hs
    · cases h
  | pseudo p =>
    simp only [Machine.runItem] at h
    split at h
    · exact k.startPseudo a p s t hs hst h
    · rw [raiseFatal_next _ _ _ _ h]
      exact k.stop _ _ _ hs hst
  | ops is => exact k.runOps a is s t hs hst h
  | statusRelease i c v =>
    exact Kept.andThen a _ _ t (fun u hu => k.exec (.mbxUnlock a i c) s u hs hst hu) (fun u hu => k.result _ _ _ hu) h
  | opd w record code =>
    simp only [Machine.runItem] at h
    split at h
    · cases h
    · split at h
      · rename_i e
        exact k.exec _ s t hs (e ▸ hst) h
      · cases h
  | bus tx =>
    simp only [Machine.runItem] at h
    split at h
    · cases h
    · rename_i i hd
      exact k.exec i s t hs (by rw [decodeBus_agent a tx i hd]; exact hst) h

/-- Whatever survives every operation of a master that is not stopped, the handing over of results, the moving of programs and
of the schedule, the release of the LCPU and the steps of the environment, survives every step of the machine (R20). -/
theorem Kept.step (k : Kept P) (s t : State) (hs : P s) (h : step s = .next t) : P t := by
  unfold Machine.step at h
  split at h
  · injection h with h
    exact h ▸ hs
  · rename_i u ts _
    have h1 := k.turns s ts hs
    cases u with
    | agent a =>
      simp only [takeTurn, agentTurn] at h
      split at h
      · cases h
      · rename_i hst
        split at h
        · injection h with h
          exact h ▸ h1
        · split at h
          · injection h with h
            exact h ▸ h1
          · exact k.runItem a _ _ t (k.prog _ _ _ h1) (by rw [withProg_stopped]; exact hst) h
    | handler a =>
      simp only [takeTurn, Host.Outcome.next.injEq] at h
      subst h
      unfold enterHandler
      split
      · exact k.prog _ _ _ h1
      · exact h1
    | env =>
      simp only [takeTurn, Host.Outcome.next.injEq] at h
      subst h
      unfold envTurn
      split
      · exact h1
      · exact k.env _ _ _ h1

end Sys2Proof.Machine
end

