-- ==== Sys2Proof/Tests/Slice0.lean ====
section
/-! SUPPORT. Tests with expected results from outside the model (the spec's own vectors of 95_test_vectors.md and words
written out from the encoding tables of 30_encoding.md), the smoke tests of WellFormed, and for each statement with
hypotheses a witness that something meets them. -/

namespace Sys2Proof.Tests

open Sys2Proof.Machine

/-! ### WellFormed refuses each ill-formed term -/

theorem test_wf_clkCfg_fits : (Instr.clkCfg .dll1Stg 15#16).wf = true := by decide

theorem test_wf_clkCfg_too_wide : (Instr.clkCfg .dll1Stg 16#16).wf = false := by decide

theorem test_wf_bus_channel_15 : (Instr.busLock .bcpu .mbx2 15#5).wf = true := by decide

theorem test_wf_bus_channel_16 (d : Word) :
    [Instr.busRdier .hcpu .mbx1 16#5, .busWrier .hcpu .mbx1 16#5 d, .busTrig .hcpu .mbx1 16#5 d, .busClr .hcpu .mbx1 16#5 d,
      .busRaw .hcpu .mbx1 16#5, .busPend .hcpu .mbx1 16#5, .busLock .hcpu .mbx1 16#5, .busUnlock .hcpu .mbx1 16#5 d,
      .busRdItr .hcpu .mbx1 16#5, .busRdIcr .hcpu .mbx1 16#5, .busWrIsr .hcpu .mbx1 16#5 d,
      .busWrMisr .hcpu .mbx1 16#5 d].all (fun i => !i.wf) = true := rfl

/-! ### Decoding: one word per constructor, written out from R121 to R124 -/

theorem test_decode_clkFreqHxt48 : decodeTableWord 32 0x10400000 = some (.clkFreqHxt48) := by decide

theorem test_decode_clkFreqHrc48 : decodeTableWord 32 0x10410000 = some (.clkFreqHrc48) := by decide

theorem test_decode_clkFreqClkDll1 : decodeTableWord 32 0x10420000 = some (.clkFreqClkDll1) := by decide

theorem test_decode_clkFreqClkDll2 : decodeTableWord 32 0x10430000 = some (.clkFreqClkDll2) := by decide

theorem test_decode_clkFreqClkSys : decodeTableWord 32 0x10440000 = some (.clkFreqClkSys) := by decide

theorem test_decode_clkFreqClkPeri : decodeTableWord 32 0x10450000 = some (.clkFreqClkPeri) := by decide

theorem test_decode_clkFreqClkPeriDiv2 : decodeTableWord 32 0x10460000 = some (.clkFreqClkPeriDiv2) := by decide

theorem test_decode_clkFreqHclk : decodeTableWord 32 0x10470000 = some (.clkFreqHclk) := by decide

theorem test_decode_clkFreqPclk1 : decodeTableWord 32 0x10480000 = some (.clkFreqPclk1) := by decide

theorem test_decode_clkFreqPclk2 : decodeTableWord 32 0x10490000 = some (.clkFreqPclk2) := by decide

theorem test_decode_clkFreqClkUsb : decodeTableWord 32 0x104A0000 = some (.clkFreqClkUsb) := by decide

theorem test_decode_clkFreqClkAudPll : decodeTableWord 32 0x104B0000 = some (.clkFreqClkAudPll) := by decide

theorem test_decode_clkCfg : decodeTableWord 32 0x11410009 = some (.clkCfg .dll1Stg 9#16) := by decide

theorem test_decode_clkCfg_pdiv2 : decodeTableWord 32 0x114B0006 = some (.clkCfg .pdiv2 6#16) := by decide

theorem test_decode_clkDump : decodeTableWord 32 0x12400000 = some (.clkDump) := by decide

theorem test_decode_apllTake : decodeTableWord 32 0x20400000 = some (.apllTake) := by decide

theorem test_decode_apllBgon : decodeTableWord 32 0x21400000 = some (.apllBgon) := by decide

theorem test_decode_apllAnaon : decodeTableWord 32 0x22400000 = some (.apllAnaon) := by decide

theorem test_decode_apllDigon : decodeTableWord 32 0x23400000 = some (.apllDigon) := by decide

theorem test_decode_apllLfcfg : decodeTableWord 32 0x24400000 = some (.apllLfcfg) := by decide

theorem test_decode_apllCalstart : decodeTableWord 32 0x25400000 = some (.apllCalstart) := by decide

theorem test_decode_apllCalstep : decodeTableWord 32 0x26400000 = some (.apllCalstep) := by decide

theorem test_decode_apllCalrefine : decodeTableWord 32 0x27400000 = some (.apllCalrefine) := by decide

theorem test_decode_apllSdmprog : decodeTableWord 32 0x28410000 = some (.apllSdmprog 1) := by decide

theorem test_decode_apllLockchk : decodeTableWord 32 0x29400000 = some (.apllLockchk) := by decide

theorem test_decode_apllFreqof : decodeTableWord 32 0x2A4A0000 = some (.apllFreqof 10) := by decide

theorem test_decode_apllCheck : decodeTableWord 32 0x2B480000 = some (.apllCheck 8) := by decide

theorem test_decode_apllDrop : decodeTableWord 32 0x2C400000 = some (.apllDrop) := by decide

theorem test_decode_apllMeas : decodeTableWord 32 0x2D4E0000 = some (.apllMeas 14#5) := by decide

theorem test_decode_mbxRdier : decodeTableWord 32 0x30820000 = some (.mbxRdier .lcpu .mbx1 2#5) := by decide

theorem test_decode_mbxWrier : decodeTableWord 32 0x31820001 = some (.mbxWrier .lcpu .mbx1 2#5 1#16) := by decide

theorem test_decode_mbxTrig : decodeTableWord 32 0x32428001 = some (.mbxTrig .hcpu .mbx1 2#5 0x8001#16) := by decide

theorem test_decode_mbxClr : decodeTableWord 32 0x33820001 = some (.mbxClr .lcpu .mbx1 2#5 1#16) := by decide

theorem test_decode_mbxRaw : decodeTableWord 32 0x34820000 = some (.mbxRaw .lcpu .mbx1 2#5) := by decide

theorem test_decode_mbxPend : decodeTableWord 32 0x35820000 = some (.mbxPend .lcpu .mbx1 2#5) := by decide

theorem test_decode_mbxLock : decodeTableWord 32 0x36E30000 = some (.mbxLock .bcpu .mbx2 3#5) := by decide

theorem test_decode_mbxUnlock : decodeTableWord 32 0x37400000 = some (.mbxUnlock .hcpu .mbx1 0#5) := by decide

theorem test_decode_revRdid : decodeTableWord 32 0x40400000 = some (.revRdid) := by decide

theorem test_decode_revClass : decodeTableWord 32 0x41400007 = some (.revClass 7#8) := by decide

theorem test_decode_revValid : decodeTableWord 32 0x42400003 = some (.revValid 3#8) := by decide

theorem test_decode_revLetter : decodeTableWord 32 0x4340000F = some (.revLetter 15#8) := by decide

theorem test_decode_revPtype : decodeTableWord 32 0x44400008 = some (.revPtype 8#8) := by decide

theorem test_decode_revInstall : decodeTableWord 32 0x45400000 = some (.revInstall [] []) := by decide

theorem test_decode_busRdier : decodeTableWord 8 0x00 = some (.busRdier .hcpu .mbx1 0#5) := by decide

theorem test_decode_busWrier : decodeTableWord 8 0x20 = some (.busWrier .hcpu .mbx1 0#5 1#32) := by decide

theorem test_decode_busTrig : decodeTableWord 8 0x24 = some (.busTrig .hcpu .mbx1 0#5 1#32) := by decide

theorem test_decode_busClr : decodeTableWord 8 0x28 = some (.busClr .hcpu .mbx1 0#5 1#32) := by decide

theorem test_decode_busRaw : decodeTableWord 8 0x0C = some (.busRaw .hcpu .mbx1 0#5) := by decide

theorem test_decode_busPend : decodeTableWord 8 0x10 = some (.busPend .hcpu .mbx1 0#5) := by decide

theorem test_decode_busLock : decodeTableWord 8 0x14 = some (.busLock .hcpu .mbx1 0#5) := by decide

theorem test_decode_busUnlock : decodeTableWord 8 0x34 = some (.busUnlock .hcpu .mbx1 0#5 1#32) := by decide

theorem test_decode_busRdItr : decodeTableWord 8 0x04 = some (.busRdItr .hcpu .mbx1 0#5) := by decide

theorem test_decode_busRdIcr : decodeTableWord 8 0x08 = some (.busRdIcr .hcpu .mbx1 0#5) := by decide

theorem test_decode_busWrIsr : decodeTableWord 8 0x2C = some (.busWrIsr .hcpu .mbx1 0#5 1#32) := by decide

theorem test_decode_busWrMisr : decodeTableWord 8 0x30 = some (.busWrMisr .hcpu .mbx1 0#5 1#32) := by decide

theorem test_decode_channel_out_of_range : decodeTableWord 32 0x32440001 = some (.mbxTrig .hcpu .mbx1 4#5 1#16) := by decide

theorem test_decode_illegal_words :
    [0x36000000, 0x10800000, 0x104C0000, 0x20410000, 0x38400000, 0x50400000, 0x41400107, 0x11410010].all
      (fun w => (decodeTableWord 32 w).isNone) = true := by decide

theorem test_decode_install_lists :
    decodeOpd 0x45400000#32 [1#8] [2#8] = .ok (.revInstall [1#8] [2#8]) := rfl

/-! ### Small states -/

/-- What a read of the next state gives, or nothing on a fault or a refusal. -/
def look {α : Type} (o : Out) (f : State → α) : Option α :=
  match o with
  | .next s => some (f s)
  | .fault _ => none
  | .refused _ => none

/-- The refusal an outcome is, if it is one. -/
def refusal (o : Out) : Option Refusal :=
  match o with
  | .refused r => some r
  | .next _ => none
  | .fault _ => none

/-- The reset state with other clock fields. -/
def clkState (r : ClkRegs) : State := { State.reset with clk := r }

/-- The reset state with other audio-PLL registers and steps of the environment to come. -/
def pllState (r : ApllRegs) (es : List EnvEvent) : State := { State.reset with apll := r, env := es }

/-- The reset state with one channel changed. -/
def mbxState (i : MbxInst) (c : Nat) (ch : Channel) : State := State.reset.setChannel i c ch

/-- The reset state of a part with a given revision byte. -/
def revState (b : Byte) : State := { State.reset with chipId := b.setWidth 32 }

/-- DLL1 at 240 MHz selected by `clk_sys` and divided by 2 (vectors CK3, CK11, CK12). -/
def ckRegs : ClkRegs :=
  { ClkRegs.reset with
    dll1En := true, dll1Stg := 9#4, selSys := 3#2, hdiv := 2#8, pdiv1 := 1#3, pdiv2 := 6#3, hxt48Rdy := true,
    hrc48Rdy := true, selPeri := 1#1, selUsb := 1#1, dll2En := true, dll2Stg := 5#4, dll2OutDiv2 := true }

/-- A sequencer that has just started its calibration (vector A13). -/
def calRegs : ApllRegs :=
  { ApllRegs.reset with
    st := .openLoopCalibrating, taken := true, enBg := true, enAna := true, enDig := true, lfCfg := true,
    code := 16#5, step := 8#4 }

/-- A sequencer that has finished its calibration and chosen a frequency (vector A18). -/
def chosenRegs (k : Fin 3) : ApllRegs := { calRegs with step := 0#4, calFin := true, freqSel := some k }

/-- A running sequencer (vector A21). -/
def runRegs (k : Fin 3) : ApllRegs := { chosenRegs k with st := .closedLoopLocked }

/-! ### One step of each operation -/

theorem test_freq_hxt48 : look (exec .clkFreqHxt48 (clkState ckRegs)) (·.hcpu.result) = some (.freq (some 48000000)) := by decide

theorem test_freq_hxt48_not_ready : look (exec .clkFreqHxt48 (clkState { ckRegs with hxt48Rdy := false })) (·.hcpu.result) = some (.freq (none)) := by decide

theorem test_freq_hrc48 : look (exec .clkFreqHrc48 (clkState { ckRegs with hxt48Rdy := false })) (·.hcpu.result) = some (.freq (some 48000000)) := by decide

theorem test_freq_hrc48_not_ready : look (exec .clkFreqHrc48 (clkState { ckRegs with hrc48Rdy := false })) (·.hcpu.result) = some (.freq (none)) := by decide

theorem test_freq_dll1 : look (exec .clkFreqClkDll1 (clkState ckRegs)) (·.hcpu.result) = some (.freq (some 240000000)) := by decide

theorem test_freq_dll1_smallest : look (exec .clkFreqClkDll1 (clkState { ckRegs with dll1Stg := 0#4, dll1OutDiv2 := true })) (·.hcpu.result) = some (.freq (some 12000000)) := by decide

theorem test_freq_dll2 : look (exec .clkFreqClkDll2 (clkState ckRegs)) (·.hcpu.result) = some (.freq (some 72000000)) := by decide

theorem test_freq_dll2_off : look (exec .clkFreqClkDll2 (clkState { ckRegs with dll2En := false })) (·.hcpu.result) = some (.freq (none)) := by decide

theorem test_freq_sys_dll1 : look (exec .clkFreqClkSys (clkState ckRegs)) (·.hcpu.result) = some (.freq (some 240000000)) := by decide

theorem test_freq_sys_no_source : look (exec .clkFreqClkSys (clkState { ckRegs with selSys := 2#2 })) (·.hcpu.result) = some (.freq (none)) := by decide

theorem test_freq_peri : look (exec .clkFreqClkPeri (clkState { ckRegs with hrc48Rdy := false })) (·.hcpu.result) = some (.freq (some 48000000)) := by decide

theorem test_freq_periDiv2 : look (exec .clkFreqClkPeriDiv2 (clkState { ckRegs with selPeri := 0#1 })) (·.hcpu.result) = some (.freq (some 24000000)) := by decide

theorem test_freq_hclk_truncates : look (exec .clkFreqHclk (clkState { ckRegs with selSys := 0#2, hdiv := 7#8 })) (·.hcpu.result) = some (.freq (some 6857142)) := by decide

theorem test_freq_hclk_zero_divider : refusal (exec .clkFreqHclk (clkState { ckRegs with hdiv := 0#8 })) = some .zeroDivider := by decide

theorem test_freq_pclk1_lowest : look (exec .clkFreqPclk1 (clkState { ckRegs with dll1Stg := 0#4, dll1OutDiv2 := true, hdiv := 255#8, pdiv1 := 7#3 })) (·.hcpu.result) = some (.freq (some 367)) := by decide

theorem test_freq_pclk1_absent : look (exec .clkFreqPclk1 (clkState { ckRegs with dll1En := false })) (·.hcpu.result) = some (.freq (none)) := by decide

theorem test_freq_pclk2 : look (exec .clkFreqPclk2 (clkState ckRegs)) (·.hcpu.result) = some (.freq (some 1875000)) := by decide

theorem test_freq_usb : look (exec .clkFreqClkUsb (clkState ckRegs)) (·.hcpu.result) = some (.freq (some 72000000)) := by decide

theorem test_freq_usb_sys : look (exec .clkFreqClkUsb (clkState { ckRegs with selUsb := 0#1 })) (·.hcpu.result) = some (.freq (some 240000000)) := by decide

theorem test_freq_audPll : look (exec .clkFreqClkAudPll { State.reset with audPllCache := some 49152000 }) (·.hcpu.result) =
    some (.freq (some 49152000)) := by decide

theorem test_cfg_stage : look (exec (.clkCfg .dll1Stg 9#16) State.reset) (·.clk) = some { ClkRegs.reset with dll1Stg := 9#4 } := by decide

theorem test_cfg_pdiv2 : look (exec (.clkCfg .pdiv2 6#16) (clkState ckRegs)) (·.clk) = some ckRegs := by decide

theorem test_dump_lines : look (exec .clkDump (clkState { ckRegs with dll1En := false })) (·.hcpu.result) = some (.dump
    [(.hxt48, .freq 48000000), (.hrc48, .freq 48000000), (.clkDll1, .disabled), (.clkDll2, .freq 72000000),
     (.clkSys, .disabled), (.clkPeri, .freq 48000000), (.clkPeriDiv2, .freq 24000000), (.hclk, .disabled),
     (.pclk1, .disabled), (.pclk2, .disabled), (.clkUsb, .freq 72000000), (.clkAudPll, .disabled)]) := by decide

theorem test_take : look (exec .apllTake State.reset) (·.apll) = some { ApllRegs.reset with taken := true } := by decide

theorem test_take_twice : look (exec .apllTake (pllState { ApllRegs.reset with taken := true } [])) (·.hcpu.stopped) =
    some (some .doubleConstruct) := by decide

theorem test_bgon : look (exec .apllBgon (pllState { ApllRegs.reset with taken := true } [])) (·.apll) =
    some { ApllRegs.reset with taken := true, enBg := true, st := .bandgapEnabled } := by decide

theorem test_bgon_not_taken : refusal (exec .apllBgon State.reset) = some .outOfState := by decide

theorem test_anaon : look (exec .apllAnaon (pllState { ApllRegs.reset with st := .bandgapEnabled } [])) (·.apll) =
    some { ApllRegs.reset with enAna := true, st := .analogPllEnabled } := by decide

theorem test_digon : look (exec .apllDigon (pllState { ApllRegs.reset with st := .analogPllEnabled } [])) (·.apll) =
    some { ApllRegs.reset with enDig := true, st := .digitalPllEnabled } := by decide

theorem test_digon_skips_a_state : refusal (exec .apllDigon (pllState { ApllRegs.reset with st := .bandgapEnabled } [])) = some .outOfState := by decide

theorem test_lfcfg : look (exec .apllLfcfg (pllState { ApllRegs.reset with st := .digitalPllEnabled } [])) (·.apll) =
    some { ApllRegs.reset with lfCfg := true, st := .digitalPllEnabled } := by decide

theorem test_calstart : look (exec .apllCalstart (pllState { calRegs with st := .digitalPllEnabled, code := 0#5, step := 0#4 } [])) (·.apll) =
    some calRegs := by decide

theorem test_calstep_above : look (exec .apllCalstep (pllState calRegs (calAnswer 1900#16))) (·.apll) =
    some { calRegs with code := 8#5, step := 4#4, fcVco := 16#5, calDone := true, calCnt := 1900#16 } := by decide

theorem test_calstep_timeout : look (exec .apllCalstep (pllState calRegs [.expire])) (fun s => (s.hcpu.result, s.apll)) =
    some (.error .timeout, { calRegs with calEn := true, fcVco := 16#5 }) := by decide

theorem test_calrefine_tie_low : look (exec .apllCalrefine (pllState { calRegs with code := 16#5, step := 0#4 }
    (calAnswer 1838#16 ++ calAnswer 1838#16 ++ calAnswer 1838#16))) (fun s => (s.apll.code, s.apll.fcVco, s.apll.calFin)) =
    some (15#5, 15#5, true) := by decide

theorem test_calrefine_top : look (exec .apllCalrefine (pllState { calRegs with code := 31#5, step := 0#4 }
    (calAnswer 1031#16 ++ calAnswer 1030#16))) (fun s => (s.apll.code, s.apll.calFin, s.env)) = some (31#5, true, []) := by decide

theorem test_sdmprog : look (exec (.apllSdmprog 1) (pllState { chosenRegs 1 with freqSel := none } []))
    (fun s => (s.apll.sdmFcw, s.apll.sdmSdin, s.apll.freqSel, s.sdmTrace)) =
    some (Config.apllFcw 1, Config.apllSdin 1, some 1, [.sdmReset, .sdmRelease, .sdmReset]) := rfl

theorem test_lockchk_warns : look (exec .apllLockchk (pllState (chosenRegs 0) [])) (fun s => (s.hcpu.result, s.apll.lockWarn, s.apll.st)) =
    some (.bit false, true, .closedLoopLocked) := by decide

theorem test_lockchk_caches : look (exec .apllLockchk (pllState { chosenRegs 2 with lockDet := true } []))
    (fun s => (s.audPllCache, s.apll.lockWarn)) = some (some (Config.apllHz 2), false) := rfl

theorem test_freqof_44100 : look (exec (.apllFreqof 7) State.reset) (·.hcpu.result) = some (.index 1) := by decide

theorem test_freqof_48000 : look (exec (.apllFreqof 8) State.reset) (·.hcpu.result) = some (.index 0) := by decide

theorem test_check_passes : look (exec (.apllCheck 8) (pllState (runRegs 0) [])) (fun s => (s.hcpu.result, s.hcpu.stopped)) =
    some (.done, none) := by decide

theorem test_check_fatal : look (exec (.apllCheck 7) (pllState (runRegs 0) [])) (·.hcpu.stopped) = some (some .pllIncompatible) := by decide

theorem test_drop : look (exec .apllDrop (pllState (runRegs 0) [])) (·.apll) = some { ApllRegs.reset with code := 16#5 } := by decide

theorem test_drop_not_taken : refusal (exec .apllDrop State.reset) = some .outOfState := by decide

theorem test_meas : look (exec (.apllMeas 14#5) (pllState calRegs (calAnswer 1850#16))) (fun s => (s.hcpu.result, s.apll.fcVco)) =
    some (.count 1850#16, 14#5) := by decide

theorem test_rdier : look (exec (.mbxRdier .lcpu .mbx1 2#5) (mbxState .mbx1 2 { Channel.reset with ier := 0x0105#16 })) (·.lcpu.result) = some (.word 0x0105#32) := by decide

theorem test_wrier : look (exec (.mbxWrier .lcpu .mbx1 0#5 4#16) (mbxState .mbx1 0 { Channel.reset with isr := 4#16, ier := 1#16 })) (fun s => (s.channel .mbx1 0).misr) = some (4#16) := by decide

theorem test_trig : look (exec (.mbxTrig .hcpu .mbx1 2#5 0x8001#16) (mbxState .mbx1 2 { Channel.reset with ier := 1#16, isr := 2#16 })) (fun s => (s.channel .mbx1 2).isr) = some (0x8003#16) := by decide

theorem test_clr : look (exec (.mbxClr .lcpu .mbx1 0#5 2#16) (mbxState .mbx1 0 { Channel.reset with ier := 6#16, isr := 6#16 })) (fun s => ((s.channel .mbx1 0).isr, (s.channel .mbx1 0).irq)) = some (4#16, true) := by decide

theorem test_raw : look (exec (.mbxRaw .lcpu .mbx1 2#5) (mbxState .mbx1 2 { Channel.reset with ier := 1#16, isr := 0x8001#16 })) (·.lcpu.result) = some (.word 0x8001#32) := by decide

theorem test_pend : look (exec (.mbxPend .lcpu .mbx1 2#5) (mbxState .mbx1 2 { Channel.reset with ier := 1#16, isr := 0x8001#16 })) (·.lcpu.result) = some (.word 1#32) := by decide

theorem test_lock_free : look (exec (.mbxLock .bcpu .mbx2 3#5) (mbxState .mbx2 3 Channel.reset)) (fun s => (s.bcpu.result, s.channel .mbx2 3)) = some (.word 1#32, { Channel.reset with ex := false, id := 3#2 }) := by decide

theorem test_lock_held : look (exec (.mbxLock .hcpu .mbx1 0#5) (mbxState .mbx1 0 { Channel.reset with ex := false, id := 2#2 })) (fun s => (s.hcpu.result, (s.channel .mbx1 0).id)) = some (.word 4#32, 2#2) := by decide

theorem test_unlock_by_another : look (exec (.mbxUnlock .hcpu .mbx1 0#5) (mbxState .mbx1 0 { Channel.reset with ex := false, id := 2#2 })) (fun s => s.channel .mbx1 0) = some (Channel.reset) := by decide

theorem test_rdid : look (exec .revRdid (revState 7#8)) (·.hcpu.result) = some (.word 7#32) := by decide

theorem test_class_a3 : look (exec (.revClass 3#8) State.reset) (·.hcpu.result) = some (.revision (.a3OrEarlier 3#8)) := by decide

theorem test_class_invalid : look (exec (.revClass 0x10#8) State.reset) (·.hcpu.result) = some (.revision (.invalid 0x10#8)) := by decide

theorem test_valid_0F : look (exec (.revValid 0x0F#8) State.reset) (·.hcpu.result) = some (.bit true) := by decide

theorem test_valid_10 : look (exec (.revValid 0x10#8) State.reset) (·.hcpu.result) = some (.bit false) := by decide

theorem test_letter_07 : look (exec (.revLetter 7#8) State.reset) (·.hcpu.result) = some (.bit true) := by decide

theorem test_letter_03 : look (exec (.revLetter 3#8) State.reset) (·.hcpu.result) = some (.bit false) := by decide

theorem test_ptype_02 : look (exec (.revPtype 2#8) State.reset) (·.hcpu.result) = some (.patch (some .a3)) := by decide

theorem test_ptype_08 : look (exec (.revPtype 8#8) State.reset) (·.hcpu.result) = some (.patch none) := by decide

/-- Layouts with the addresses of vectors RV1 to RV9 and small capacities. -/
def exampleMap : Config.PatchMap :=
  { a3Record := 0x1000, a3Code := 0x2000, a3CodeMax := 4, lsBuf := 0x3000, lsCode := 0x4000#32, lsCodeMax := 6,
    lsEntryCount := 7#32 }

/-- The bytes patch memory holds over a range after an outcome that is a next state. -/
def bytesAfter (o : Out) (a n : Nat) : Option (List Byte) := look o (·.mem.readBytes a n)

theorem test_install_a3 :
    bytesAfter (installWith exampleMap [1#8, 2#8] [0xAA#8, 0xBB#8] (revState 0#8)) 0x1000 2 = some [1#8, 2#8] ∧
    bytesAfter (installWith exampleMap [1#8, 2#8] [0xAA#8, 0xBB#8] (revState 0#8)) 0x2000 4 =
      some [0xAA#8, 0xBB#8, 0#8, 0#8] := by
  have rd := installWrites_read exampleMap .a3 [1#8, 2#8] [0xAA#8, 0xBB#8] (revState 0#8) (by decide)
  rw [installWith_admitted _ _ _ _ .a3 rfl rfl (by decide) (by decide) (by decide) (by decide)]
  simp only [bytesAfter, look, Memory.readBytes, withResult_mem, rd, installHead_read]
  decide

theorem test_install_letter :
    bytesAfter (installWith exampleMap [1#8, 2#8] [0xAA#8, 0xBB#8] (revState 7#8)) 0x3000 12 =
      some [0x50#8, 0x41#8, 0x43#8, 0x48#8, 7#8, 0#8, 0#8, 0#8, 1#8, 0x40#8, 0#8, 0#8] ∧
    bytesAfter (installWith exampleMap [1#8, 2#8] [0xAA#8, 0xBB#8] (revState 7#8)) 0x4000 6 =
      some [0xAA#8, 0xBB#8, 0#8, 0#8, 0#8, 0#8] := by
  have rd := installWrites_read exampleMap .letterSeries [1#8, 2#8] [0xAA#8, 0xBB#8] (revState 7#8) (by decide)
  rw [installWith_admitted _ _ _ _ .letterSeries rfl rfl (by decide) (by decide) (by decide) (by decide)]
  simp only [bytesAfter, look, Memory.readBytes, withResult_mem, rd, installHead_read]
  decide

/-- Before any write every byte of patch memory holds the free value of reset, which nothing fixes (R385). -/
theorem test_memory_at_reset (a : Nat) : State.reset.mem.read a = Config.memReset a := rfl

theorem test_bus_rdier : look (exec (.busRdier .bcpu .mbx1 0#5) (mbxState .mbx1 0 { Channel.reset with ier := 5#16 })) (·.bcpu.result) = some (.word 5#32) := by decide

theorem test_bus_wrier_high_bits_ignored : look (exec (.busWrier .lcpu .mbx1 0#5 0xFFFF0000#32) (mbxState .mbx1 0 { Channel.reset with ier := 6#16, isr := 6#16 })) (fun s => ((s.channel .mbx1 0).ier, (s.channel .mbx1 0).isr)) = some (0#16, 6#16) := by decide

theorem test_bus_trig : look (exec (.busTrig .hcpu .mbx1 0#5 0x00018001#32) (mbxState .mbx1 0 Channel.reset)) (fun s => (s.channel .mbx1 0).isr) = some (0x8001#16) := by decide

theorem test_bus_clr : look (exec (.busClr .lcpu .mbx1 0#5 1#32) (mbxState .mbx1 0 { Channel.reset with isr := 0x8001#16 })) (fun s => (s.channel .mbx1 0).isr) = some (0x8000#16) := by decide

theorem test_bus_raw : look (exec (.busRaw .lcpu .mbx1 0#5) (mbxState .mbx1 0 { Channel.reset with isr := 0x8001#16 })) (·.lcpu.result) = some (.word 0x8001#32) := by decide

theorem test_bus_pend : look (exec (.busPend .lcpu .mbx1 0#5) (mbxState .mbx1 0 { Channel.reset with isr := 0x8001#16, ier := 1#16 })) (·.lcpu.result) = some (.word 1#32) := by decide

theorem test_bus_lock : look (exec (.busLock .lcpu .mbx1 0#5) (mbxState .mbx1 0 Channel.reset)) (fun s => (s.lcpu.result, (s.channel .mbx1 0).id)) = some (.word 1#32, 2#2) := by decide

theorem test_bus_unlock : look (exec (.busUnlock .hcpu .mbx1 0#5 1#32) (mbxState .mbx1 0 { Channel.reset with ex := false, id := 2#2 })) (fun s => s.channel .mbx1 0) = some (Channel.reset) := by decide

theorem test_bus_unlock_bit0_clear : refusal (exec (.busUnlock .hcpu .mbx1 0#5 2#32) State.reset) = some .reservedAccess := by decide

theorem test_bus_rdItr : refusal (exec (.busRdItr .hcpu .mbx1 0#5) State.reset) = some .reservedAccess := by decide

theorem test_bus_rdIcr : refusal (exec (.busRdIcr .hcpu .mbx1 0#5) State.reset) = some .reservedAccess := by decide

theorem test_bus_wrIsr : refusal (exec (.busWrIsr .hcpu .mbx1 0#5 1#32) State.reset) = some .reservedAccess := by decide

theorem test_bus_wrMisr : refusal (exec (.busWrMisr .hcpu .mbx1 0#5 1#32) State.reset) = some .reservedAccess := by decide

/-! ### Field extraction (vectors X3, X6, X10) -/

/-- The words of the field-extraction vectors. -/
def fieldWords : List Word := [0xDEADBEEF#32, 0x01234567#32, 0x89ABCDEF#32, 0#32, 0#32, 0#32, 0#32, 0xF0000000#32]

theorem test_field_straddles : field256 fieldWords 16 32 = some 0x4567DEAD := by decide

theorem test_field_last_start : field256 fieldWords 223 32 = some 0xE0000000 := by decide

theorem test_field_refused : field256 fieldWords 240 32 = none := by decide

/-! ### Witnesses: something meets the hypotheses of each statement -/


/-- A clock field value and a bus channel at the ends of their ranges. -/
theorem witness_DecodeEncodeAgree :
    (Instr.clkCfg .hdiv 255#16).wf = true ∧ (Instr.busWrMisr .lcpu .mbx2 15#5 0#32).wf = true := by decide

/-- An install with byte lists. -/
theorem witness_LegalDescriptorIsItsEncoding :
    decodeOpd 0x45400000#32 [1#8] [2#8] = .ok (.revInstall [1#8] [2#8]) := rfl

/-- An illegal word and a legal one. -/
theorem witness_IllegalDescriptorsAreRefused :
    (decodeOpd 0x36000000#32 [] [] = .error .noAgent) ∧ decodeOpd 0x36400000#32 [] [] = .ok (.mbxLock .hcpu .mbx1 0#5) := ⟨rfl, rfl⟩

/-- The last channel; a misaligned offset, the first offset past the registers, the first channel past the last; a narrow access; absolute addresses that are misaligned and aligned; another master than HCPU. -/
theorem witness_BusTransactionsDecode :
    15 < 16 ∧ 0x16 % 4 ≠ 0 ∧ 0x18 ≤ 0x18 ∧ 16 ≤ 16 ∧ (⟨false, 2, .chipId, 0#32⟩ : BusTx).size ≠ 4 ∧ 2 % 4 ≠ 0 ∧ 0 % 4 = 0 ∧
      Agent.bcpu ≠ .hcpu := by decide

/-- Two windows side by side, the first and the last byte of the second, its last channel, a CHIPID address just past it, and an address past that. -/
theorem witness_AddressMapResolves :
    RangesDisjoint 0x1000 (16 * 0x18) 0x1180 (4 * 0x18) ∧
      (0x1180 ≤ 0x1180 ∧ 0x1180 < 0x1180 + 4 * 0x18) ∧ (0x1180 ≤ 0x11DF ∧ 0x11DF < 0x1180 + 4 * 0x18) ∧ 3 < 4 ∧
      ((0x11E0 < 0x1000 ∨ 0x1000 + 16 * 0x18 ≤ 0x11E0) ∧ (0x11E0 < 0x1180 ∨ 0x1180 + 4 * 0x18 ≤ 0x11E0)) ∧
      0x11E4 ≠ 0x11E0 ∧ (0x11E4 < 0x1000 ∨ 0x1000 + 16 * 0x18 ≤ 0x11E4) ∧ (0x11E4 < 0x1180 ∨ 0x1180 + 4 * 0x18 ≤ 0x11E4) := ⟨Or.inl (by decide), by decide, by decide, by decide, by decide, by decide, by decide, by decide⟩

/-- The LCPU, out of reset, about to issue a lock read. -/
def lcpuLocks : State := State.reset.scheduleItem .lcpu (.opd 0x36800000#32 [] [])

/-- The BCPU about to read a register on the bus. -/
def bcpuReads : State := State.reset.scheduleItem .bcpu (.bus ⟨false, 4, .mailbox .mbx1 3 0x14, 0#32⟩)

/-- HCPU about to run an item of its program. -/
def hcpuRuns (it : Item) : State := State.reset.scheduleItem .hcpu it

/-- A descriptor of the LCPU and a bus transaction of the BCPU, each at the head of its program and scheduled; and a pseudo-operation, the operations left of one and the unlock left of one. -/
theorem witness_StepRunsTheDecodedOperation :
    (lcpuLocks.turns = .agent .lcpu :: [] ∧ (lcpuLocks.agent .lcpu).stopped = none ∧ lcpuLocks.lcpuRun = true ∧
      (lcpuLocks.agent .lcpu).prog = .opd 0x36800000#32 [] [] :: [] ∧
      decode (.opd 0x36800000#32 [] []) = .ok (.mbxLock .lcpu .mbx1 0#5)) ∧
    (bcpuReads.turns = .agent .bcpu :: [] ∧ (bcpuReads.agent .bcpu).stopped = none ∧
      (bcpuReads.agent .bcpu).prog = .bus ⟨false, 4, .mailbox .mbx1 3 0x14, 0#32⟩ :: [] ∧
      decode (.bus .bcpu ⟨false, 4, .mailbox .mbx1 3 0x14, 0#32⟩) = .ok (.busLock .bcpu .mbx1 3#5)) ∧
    [Item.pseudo .read, .ops [.revRdid], .statusRelease .mbx1 3#5 1#32].all (fun it => decide
      ((hcpuRuns it).turns = .agent .hcpu :: [] ∧ ((hcpuRuns it).agent .hcpu).stopped = none ∧
        ((hcpuRuns it).agent .hcpu).prog = it :: [])) = true := ⟨⟨rfl, rfl, rfl, rfl, rfl⟩, ⟨rfl, rfl, rfl, rfl⟩, by decide⟩

/-- A descriptor of the LCPU and a bus value. -/
theorem witness_PlacedWordRunsNext :
    decodeTableWord 32 0x36800000 = some (.mbxLock .lcpu .mbx1 0#5) ∧
      decodeTableWord 8 0x34 = some (.busUnlock .hcpu .mbx1 0#5 1#32) := ⟨rfl, rfl⟩

/-- The LCPU scheduled while it is held in reset. -/
def lcpuHeld : State := { State.reset with turns := [.agent .lcpu] }

/-- HCPU about to release the LCPU. -/
def hcpuReleases : State := State.reset.scheduleItem .hcpu .release

/-- A held LCPU, and HCPU about to release it. -/
theorem witness_LcpuHeldUntilReleased :
    (lcpuHeld.turns = .agent .lcpu :: [] ∧ lcpuHeld.lcpuRun = false ∧ lcpuHeld.lcpu.stopped = none) ∧
      (hcpuReleases.turns = .agent .hcpu :: [] ∧ hcpuReleases.hcpu.stopped = none ∧
        hcpuReleases.hcpu.prog = .release :: []) := ⟨⟨rfl, rfl, rfl⟩, rfl, rfl, rfl⟩

/-- A pending enabled bit on the last common channel of `MAILBOX1`, with the LCPU out of reset. -/
def irqState : State :=
  { mbxState .mbx1 3 { Channel.reset with ier := 0x8000#16, isr := 0x8000#16 } with lcpuRun := true }

/-- A line that is up, and lines that are down. -/
theorem witness_HandlerEntryNeedsTheLine :
    (irqState.irqTo .lcpu = true ∧ (irqState.agent .lcpu).stopped = none ∧ irqState.lcpuRun = true) ∧
      irqState.irqTo .bcpu = false := by decide

/-- At reset no line reaches any core. -/
theorem witness_IrqDown :
    State.reset.irqTo .hcpu = false ∧ State.reset.irqTo .lcpu = false := by
  have h : ∀ i, State.reset.irq i = false := fun i => by
    unfold State.irq
    rw [List.any_eq_false]
    intro c _
    simp [Channel.irq, Channel.misr, Channel.reset]
  simp [State.irqTo, h]

/-- The first channel and the last one every instance has. -/
theorem witness_MailboxReads :
    (0#5).toNat < Config.nch .mbx1 ∧ (3#5).toNat < Config.nch .mbx2 := ⟨lt_nch_of_lt_4 _ _ (by decide), lt_nch_of_lt_4 _ _ (by decide)⟩

/-- The first channel and the last one every instance has. -/
theorem witness_MailboxMaskWrites :
    (0#5).toNat < Config.nch .mbx1 ∧ (3#5).toNat < Config.nch .mbx2 := ⟨lt_nch_of_lt_4 _ _ (by decide), lt_nch_of_lt_4 _ _ (by decide)⟩

/-- The first channel and the last one every instance has. -/
theorem witness_BusReadsComplete :
    (0#5).toNat < Config.nch .mbx1 ∧ (3#5).toNat < Config.nch .mbx2 := ⟨lt_nch_of_lt_4 _ _ (by decide), lt_nch_of_lt_4 _ _ (by decide)⟩

/-- The first channel and the last one every instance has. -/
theorem witness_TriggerAndClearOrders :
    (0#5).toNat < Config.nch .mbx1 ∧ (3#5).toNat < Config.nch .mbx2 := ⟨lt_nch_of_lt_4 _ _ (by decide), lt_nch_of_lt_4 _ _ (by decide)⟩

/-- A free and a held mutex on existing channels. -/
theorem witness_LockIsTestAndSet :
    ((3#5).toNat < Config.nch .mbx2 ∧ (State.reset.channel .mbx2 3).ex = true) ∧
      ((0#5).toNat < Config.nch .mbx1 ∧ ((mbxState .mbx1 0 { Channel.reset with ex := false, id := 2#2 }).channel .mbx1 0).ex = false) := ⟨⟨lt_nch_of_lt_4 _ _ (by decide), rfl⟩, lt_nch_of_lt_4 _ _ (by decide), rfl⟩

/-- A free mutex on an existing channel. -/
theorem witness_UnlockIsUnchecked :
    (3#5).toNat < Config.nch .mbx1 ∧ (State.reset.channel .mbx1 3).ex = true ∧ (State.reset.channel .mbx1 3).id = 0#2 := ⟨lt_nch_of_lt_4 _ _ (by decide), rfl, rfl⟩

/-- Channel 16 and channel 31, which no instance has. -/
theorem witness_IndexOutOfRangeIsFatal :
    Config.nch .mbx1 ≤ (16#5).toNat ∧ Config.nch .mbx2 ≤ (31#5).toNat := ⟨nch_le_16 _, Nat.le_trans (nch_le_16 _) (by decide)⟩

/-- The last common channel and a data word with bit 0 set. -/
theorem witness_BusWritesComplete :
    (3#5).toNat < Config.nch .mbx1 ∧ (0xFFFF0001#32).getLsbD 0 = true := ⟨lt_nch_of_lt_4 _ _ (by decide), by decide⟩

/-- An existing channel with a data word whose bit 0 is clear, and a channel no instance has. -/
theorem witness_ReservedAccessesAreRefused :
    ((3#5).toNat < Config.nch .mbx1 ∧ (0xFFFFFFFE#32).getLsbD 0 = false) ∧ Config.nch .mbx2 ≤ (16#5).toNat := ⟨⟨lt_nch_of_lt_4 _ _ (by decide), by decide⟩, nch_le_16 _⟩

/-- A trigger and an index violation, each with the channel it names. -/
theorem witness_ChannelsAreIndependent :
    (mbxTarget (.mbxTrig .lcpu .mbx1 3#5 1#16) = some (.mbx1, 3) ∧ ∃ t, exec (.mbxTrig .lcpu .mbx1 3#5 1#16) State.reset = .next t) ∧
      ∃ t, exec (.mbxLock .bcpu .mbx2 31#5) State.reset = .next t := ⟨⟨rfl, _, rfl⟩, _, rfl⟩

/-- The environment about to move, with a measurement requested or not. -/
def envState (requested : Bool) (es : List EnvEvent) : State :=
  { pllState { calRegs with calEn := requested } es with turns := [.env] }

/-- An operation and a step of the environment that answer next states; each event at the head of the environment's list on its turn, and none; a measurement requested and not. -/
theorem witness_RawStatusChangesByTriggerAndClearOnly :
    3 < Config.nch .mbx1 ∧ (∃ t, exec (.mbxClr .lcpu .mbx1 3#5 1#16) State.reset = .next t) ∧
      (∃ t, takeTurn .env (pllState calRegs [.lockDet true]) = .next t) ∧
      [EnvEvent.hxt48Rdy true, .hrc48Rdy true, .lockDet true, .calCnt 0xFFFF#16, .calDone, .expire].all (fun e =>
        decide ((envState false [e]).turns = .env :: [] ∧ (envState false [e]).env = e :: [])) = true ∧
      (envState false []).env = [] ∧ (envState true []).apll.calEn = true ∧ (envState false []).apll.calEn = false := ⟨lt_nch_of_lt_4 _ _ (by decide), ⟨_, rfl⟩, ⟨_, rfl⟩, by decide, rfl, rfl, rfl⟩

/-- A lock read that steps from a state in which the pairs agree. -/
theorem witness_StepKeepsMutexPair :
    State.reset.MutexOk ∧ lcpuLocks.MutexOk ∧ ∃ t, step lcpuLocks = .next t := ⟨fun i c => by simp [Channel.reset], fun i c => by
    have h : lcpuLocks.channel i c = State.reset.channel i c := by cases i <;> rfl
    rw [h]; simp [Channel.reset], _, rfl⟩

/-- A free mutex on the last common channel. -/
theorem witness_OnlyOneLockWins :
    (3#5).toNat < Config.nch .mbx1 ∧ (State.reset.channel .mbx1 3).ex = true ∧ (State.reset.channel .mbx1 3).id = 0#2 := ⟨lt_nch_of_lt_4 _ _ (by decide), rfl, rfl⟩

/-- The five values of R135, each meeting its own clause. -/
theorem witness_LockResultDecode :
    (1#32).getLsbD 0 = true ∧ ((2#32).getLsbD 0 = false ∧ (2#32).extractLsb' 1 2 = 1#2) ∧
      ((4#32).getLsbD 0 = false ∧ (4#32).extractLsb' 1 2 = 2#2) ∧
      ((6#32).getLsbD 0 = false ∧ (6#32).extractLsb' 1 2 = 3#2) ∧
      ((0#32).getLsbD 0 = false ∧ (0#32).extractLsb' 1 2 = 0#2) := by decide

/-- A channel and a bit just out of range, both just in range, and masters that run. -/
theorem witness_PseudoRangeCheckComesFirst :
    (Config.nch .mbx1 ≤ 16 ∧ 15 < 16) ∧ (3 < Config.nch .mbx1 ∧ 15 ≤ 15) ∧ (State.reset.agent .lcpu).stopped = none ∧
      State.reset.hcpu.stopped = none := ⟨⟨nch_le_16 _, by decide⟩, ⟨lt_nch_of_lt_4 _ _ (by decide), by decide⟩, rfl, rfl⟩

/-- An existing channel and a master that runs. -/
theorem witness_EnableIsTwoTransactions :
    3 < Config.nch .mbx2 ∧ (State.reset.agent .lcpu).stopped = none := ⟨lt_nch_of_lt_4 _ _ (by decide), rfl⟩

/-- A free mutex and a held one, and a master that runs. -/
theorem witness_StatusReleasesWhatItTook :
    3 < Config.nch .mbx1 ∧ (State.reset.agent .hcpu).stopped = none ∧ (State.reset.channel .mbx1 3).ex = true ∧
      (State.reset.channel .mbx1 3).id = 0#2 ∧
      ((mbxState .mbx1 3 { Channel.reset with ex := false, id := 3#2 }).channel .mbx1 3).ex = false := ⟨lt_nch_of_lt_4 _ _ (by decide), rfl, rfl, rfl, rfl⟩

/-- A first part that times out, one that stops its master, and one that does neither. -/
theorem witness_FailedPartEndsThePseudoOperation :
    (∃ t, exec .apllCalstep (pllState calRegs [.expire]) = .next t ∧ (t.agent .hcpu).result = .error .timeout) ∧
      (∃ t, exec .apllTake (pllState calRegs []) = .next t ∧ (t.agent .hcpu).stopped ≠ none) ∧
      ∃ t, exec .apllTake State.reset = .next t ∧ (t.agent .hcpu).stopped = none ∧
        ∀ e, (t.agent .hcpu).result ≠ .error e := ⟨⟨_, rfl, rfl⟩, ⟨_, rfl, by decide⟩, _, rfl, rfl, by intro e h; cases h⟩

/-- An operation that is a violation and one that is not. -/
theorem witness_FatalViolationOnlyStopsItsMaster :
    (∃ t, exec (.mbxLock .lcpu .mbx1 16#5) State.reset = .next t) ∧ ∃ t, exec .revRdid State.reset = .next t := ⟨⟨_, rfl⟩, _, rfl⟩

/-- HCPU about to read the chip ID while the LCPU is stopped. -/
def hcpuReadsLcpuStopped : State :=
  ({ State.reset with lcpu := { AgentState.reset with stopped := some .indexOutOfRange } }).scheduleItem .hcpu
    (.opd 0x40400000#32 [] [])

/-- A stopped LCPU while HCPU takes a step, and on its own turn and its handler turn. -/
theorem witness_FatalStopIsForever :
    (hcpuReadsLcpuStopped.agent .lcpu).stopped = some .indexOutOfRange ∧ (∃ t, step hcpuReadsLcpuStopped = .next t) ∧
      ({ hcpuReadsLcpuStopped with turns := [.agent .lcpu] } : State).turns = .agent .lcpu :: [] ∧
      ({ hcpuReadsLcpuStopped with turns := [.handler .lcpu] } : State).turns = .handler .lcpu :: [] := ⟨rfl, ⟨_, rfl⟩, rfl, rfl⟩

/-- A step taken after the LCPU was released. -/
theorem witness_ChipIdAndReleaseAreStable :
    lcpuLocks.lcpuRun = true ∧ ∃ t, step lcpuLocks = .next t := ⟨rfl, _, rfl⟩

/-- Each value of each selector. -/
theorem witness_MultiplexedClocks :
    (clkState { ckRegs with selSys := 0#2 }).clk.selSys = 0#2 ∧ (clkState { ckRegs with selSys := 1#2 }).clk.selSys = 1#2 ∧
      (clkState { ckRegs with selSys := 2#2 }).clk.selSys = 2#2 ∧ (clkState ckRegs).clk.selSys = 3#2 ∧
      State.reset.clk.selPeri = 0#1 ∧ (clkState ckRegs).clk.selPeri = 1#1 ∧ State.reset.clk.selUsb = 0#1 ∧
      (clkState ckRegs).clk.selUsb = 1#1 := by decide

/-- The largest divider, the smallest, and none. -/
theorem witness_DividedBuses :
    (clkState { ckRegs with hdiv := 255#8 }).clk.hdiv ≠ 0#8 ∧ (clkState { ckRegs with hdiv := 1#8 }).clk.hdiv ≠ 0#8 ∧
      (clkState { ckRegs with hdiv := 0#8 }).clk.hdiv = 0#8 := by decide

/-- The lowest and the highest frequency of the tree. -/
theorem witness_ResolvedFrequencyBounds :
    Instr.clkFreqPclk1 ∈ clkFreqTable ∧ Instr.clkFreqPclk1 ≠ .clkFreqClkAudPll ∧
      look (exec .clkFreqPclk1 (clkState { ckRegs with
        dll1Stg := 0#4, dll1OutDiv2 := true, hdiv := 255#8, pdiv1 := 7#3 })) (·.hcpu.result) = some (.freq (some 367)) ∧
      look (exec .clkFreqClkDll1 (clkState { ckRegs with dll1Stg := 15#4 })) (·.hcpu.result) =
        some (.freq (some 384000000)) := by decide

/-- With DLL1 off, an absent node on the longest path, a source off the path of `clk_peri`, and the same with a zero divider. -/
theorem witness_AbsencePropagates :
    ClkNode.clkDll1 ∈ clkPath { ckRegs with dll1En := false } .pclk1 ∧
      freqOf .clkDll1 (clkState { ckRegs with dll1En := false }) = some none ∧
      leafNode .dll1 ∉ clkPath ckRegs .clkPeri ∧
      freqOf .clkDll1 (clkState { ckRegs with dll1En := false, hdiv := 0#8 }) = some none ∧
      ClkNode.clkDll1 ∈ clkPath { ckRegs with dll1En := false, hdiv := 0#8 } .hclk := by decide

/-- The largest value that fits, and another field. -/
theorem witness_ClkCfgWritesOneField :
    (Instr.clkCfg .hdiv 255#16).wf = true ∧ ClkField.hdiv ≠ .pdiv1 := by decide

/-- No step of the environment in between, and a node's own query. -/
theorem witness_DumpReportsEveryNode :
    (clkState ckRegs).envGaps = [] ∧ (Instr.clkFreqClkAudPll, ClkNode.clkAudPll) ∈ clkFreqTable.zip
      [ClkNode.hxt48, .hrc48, .clkDll1, .clkDll2, .clkSys, .clkPeri, .clkPeriDiv2, .hclk, .pclk1, .pclk2, .clkUsb, .clkAudPll] := by decide

/-- The singleton free, and taken. -/
theorem witness_TakeIsCompareAndSwap :
    State.reset.apll.taken = false ∧ State.reset.apll.st = .uninitialized ∧ (pllState calRegs []).apll.taken = true := by decide

/-- The precondition of each of the five. -/
theorem witness_BringUpSteps :
    ((pllState { ApllRegs.reset with taken := true } []).apll.st = .uninitialized ∧
        (pllState { ApllRegs.reset with taken := true } []).apll.taken = true) ∧
      (pllState { ApllRegs.reset with st := .bandgapEnabled } []).apll.st = .bandgapEnabled ∧
      (pllState { ApllRegs.reset with st := .analogPllEnabled } []).apll.st = .analogPllEnabled ∧
      ((pllState { ApllRegs.reset with st := .digitalPllEnabled } []).apll.st = .digitalPllEnabled ∧
        (pllState { ApllRegs.reset with st := .digitalPllEnabled } []).apll.lfCfg = false) ∧
      ((pllState { calRegs with st := .digitalPllEnabled } []).apll.st = .digitalPllEnabled ∧
        (pllState { calRegs with st := .digitalPllEnabled } []).apll.lfCfg = true) := by decide

/-- An untaken PLL past its first state, a running one, a converged search, a finished calibration. -/
theorem witness_OutOfOrderStepsAreRefused :
    ((pllState { calRegs with taken := false } []).apll.taken = false ∧
        (pllState { calRegs with taken := false } []).apll.st ≠ .uninitialized) ∧
      ((pllState (runRegs 0) []).apll.st ≠ .uninitialized ∧ (pllState (runRegs 0) []).apll.st ≠ .bandgapEnabled ∧
        (pllState (runRegs 0) []).apll.st ≠ .analogPllEnabled ∧ (pllState (runRegs 0) []).apll.st ≠ .digitalPllEnabled ∧
        (pllState (runRegs 0) []).apll.st ≠ .openLoopCalibrating) ∧
      (pllState (chosenRegs 0) []).apll.step = 0#4 ∧ (pllState (chosenRegs 0) []).apll.calFin = true ∧
      (pllState (chosenRegs 0) []).apll.freqSel ≠ none ∧ (pllState calRegs []).apll.st ≠ .closedLoopLocked ∧
      State.reset.apll.taken = false := by decide

/-- A calibrating PLL with an answer, and with an expiry, to come. -/
theorem witness_MeasurementCompletesOrTimesOut :
    (pllState calRegs (calAnswer 1838#16)).apll.st = .openLoopCalibrating ∧
      (pllState calRegs (calAnswer 1838#16)).env = calAnswer 1838#16 ++ [] ∧
      (pllState calRegs [.expire]).env = .expire :: [] := by decide

/-- A started calibration with one answer to come. -/
def answeredSearch (n : BitVec 16) : State := pllState calRegs (calAnswer n)

/-- A search with steps left and an answer to come just below the target, at it and just above it, and an expiry to come. -/
theorem witness_SearchStepMovesTowardTheTarget :
    [1837#16, 1838#16, 1839#16].all (fun n => decide ((answeredSearch n).apll.st = .openLoopCalibrating ∧
      (answeredSearch n).apll.step ≠ 0#4 ∧ (answeredSearch n).env = calAnswer n ++ [])) = true ∧
      (pllState calRegs [.expire]).env = .expire :: [] ∧ (1837#16).toNat < 1838 ∧ (1838#16).toNat = 1838 ∧ 1838 < (1839#16).toNat := by decide

/-- A search converged on a code, with answers to come. -/
def refineState (c : BitVec 5) (es : List EnvEvent) : State := pllState { calRegs with code := c, step := 0#4 } es

/-- Converged on 1, 30 and 31 with the answers to come, and with an expiry to come. -/
theorem witness_RefinementPicksTheNearestCode :
    ((refineState 1#5 (calAnswer 1#16 ++ calAnswer 2#16 ++ calAnswer 3#16)).apll.st = .openLoopCalibrating ∧
        (refineState 1#5 (calAnswer 1#16 ++ calAnswer 2#16 ++ calAnswer 3#16)).apll.step = 0#4 ∧
        (refineState 1#5 (calAnswer 1#16 ++ calAnswer 2#16 ++ calAnswer 3#16)).apll.calFin = false ∧
        (refineState 1#5 (calAnswer 1#16 ++ calAnswer 2#16 ++ calAnswer 3#16)).env =
          calAnswer 1#16 ++ calAnswer 2#16 ++ calAnswer 3#16 ++ []) ∧
      1 ≤ (refineState 1#5 []).apll.code.toNat ∧ (refineState 30#5 []).apll.code.toNat ≤ 30 ∧
      ((refineState 31#5 (calAnswer 1#16 ++ calAnswer 2#16)).apll.code = 31#5 ∧
        (refineState 31#5 (calAnswer 1#16 ++ calAnswer 2#16)).env = calAnswer 1#16 ++ calAnswer 2#16 ++ []) ∧
      (refineState 1#5 [.expire]).env = .expire :: [] := by decide

/-- Vector A1, where the count at code c is 1500 + 25 c and the search has converged on 13; and a counter whose search converges on 31. -/
theorem witness_RefinementIsNoWorse :
    (let g := fun c : BitVec 5 => BitVec.ofNat 16 (1500 + 25 * c.toNat)
      let s := refineState 13#5 (calAnswer (g 13#5) ++ calAnswer (g 12#5) ++ calAnswer (g 14#5))
      s.apll.st = .openLoopCalibrating ∧ s.apll.step = 0#4 ∧ s.apll.calFin = false ∧ 1 ≤ s.apll.code.toNat ∧
        s.apll.code.toNat ≤ 30 ∧
        s.env = calAnswer (g s.apll.code) ++ calAnswer (g (s.apll.code - 1#5)) ++ calAnswer (g (s.apll.code + 1#5)) ++ []) ∧
      (let g := fun c : BitVec 5 => BitVec.ofNat 16 (1000 + c.toNat)
       let s := refineState 31#5 (calAnswer (g 31#5) ++ calAnswer (g 30#5))
       s.apll.st = .openLoopCalibrating ∧ s.apll.step = 0#4 ∧ s.apll.calFin = false ∧ s.apll.code = 31#5 ∧
        s.env = calAnswer (g 31#5) ++ calAnswer (g 30#5) ++ []) := by decide

/-- A finished calibration with no frequency chosen. -/
theorem witness_SdmProgramming :
    (pllState { chosenRegs 0 with freqSel := none } []).apll.st = .openLoopCalibrating ∧
      (pllState { chosenRegs 0 with freqSel := none } []).apll.calFin = true ∧
      (pllState { chosenRegs 0 with freqSel := none } []).apll.freqSel = none := by decide

/-- A calibrating PLL with a frequency chosen. -/
theorem witness_LockCheckOnlyWarns :
    (pllState (chosenRegs 2) []).apll.st = .openLoopCalibrating ∧ (pllState (chosenRegs 2) []).apll.freqSel = some 2 := by decide

/-- A running PLL, a rate of its family and one of the other. -/
theorem witness_SampleRateFamiliesAndCheck :
    (pllState (runRegs 1) []).apll.st = .closedLoopLocked ∧ (pllState (runRegs 1) []).apll.freqSel = some 1 ∧
      ([0, 1, 0, 0, 1, 0, 0, 1, 0, 1, 0] : List (Fin 3)).getD (9 : Fin 11).val 0 = 1 ∧
      ([0, 1, 0, 0, 1, 0, 0, 1, 0, 1, 0] : List (Fin 3)).getD (10 : Fin 11).val 0 ≠ 1 := by decide

/-- A running PLL. -/
theorem witness_TeardownFromAnyState :
    (pllState (runRegs 0) []).apll.taken = true := by decide

/-- HCPU about to take one search step, with the audio-PLL registers of a started calibration. -/
def hcpuSearches : State := (pllState calRegs (calAnswer 1900#16)).scheduleItem .hcpu (.opd 0x26400000#32 [] [])

/-- A search step taken from a state that meets the invariant. -/
theorem witness_StepKeepsThePllInvariant :
    hcpuSearches.PllOk ∧ ∃ t, step hcpuSearches = .next t := ⟨⟨by constructor <;> decide, fun _ => .inl ⟨rfl, rfl, rfl⟩, ⟨fun h => (by cases h), fun _ => rfl⟩⟩, _, rfl⟩

/-- A byte of each class, both ends of each run of invalid ones, and an operation that answers a next state. -/
theorem witness_RevisionClassification :
    (0#8 ∈ [0x00#8, 0x01#8, 0x02#8, 0x03#8] ∧ 3#8 ∈ [0x00#8, 0x01#8, 0x02#8, 0x03#8]) ∧ 7#8 = 0x07#8 ∧ 15#8 = 0x0F#8 ∧
      ([4#8, 6#8, 8#8, 14#8, 16#8, 255#8].all fun b => !([0x00#8, 0x01#8, 0x02#8, 0x03#8, 0x07#8, 0x0F#8].contains b)) = true ∧
      ∃ t, exec .revRdid State.reset = .next t := ⟨by decide, rfl, rfl, by decide, _, rfl⟩

/-- The window open and closed; an invalid revision; a code blob one byte too long for each capacity. -/
theorem witness_InstallerChecksInOrder :
    ((revState 3#8).lcpuRun = false ∧ (revState 3#8).iphase = .idle) ∧ [1#8] ≠ [] ∧
      (revState 4#8).chipId.extractLsb' 0 8 ∉ [0x00#8, 0x01#8, 0x02#8, 0x03#8, 0x07#8, 0x0F#8] ∧
      ((revState 3#8).chipId.extractLsb' 0 8 ∈ [0x00#8, 0x01#8, 0x02#8, 0x03#8] ∧
        Config.a3CodeMax < (List.replicate (Config.a3CodeMax + 1) (0#8 : Byte)).length) ∧
      ((revState 15#8).chipId.extractLsb' 0 8 ∈ [0x07#8, 0x0F#8] ∧
        Config.lsCodeMax < (List.replicate (Config.lsCodeMax + 1) (0#8 : Byte)).length) ∧
      ({ revState 3#8 with lcpuRun := true } : State).lcpuRun = true := ⟨⟨rfl, rfl⟩, by decide, by decide, ⟨by decide, by simp⟩, ⟨by decide, by simp⟩, rfl⟩

/-- A part whose own layout has room for a code blob of one byte, whatever the two capacities are: they differ, so one of them
is not 0. -/
def roomyByte : Byte := if Config.a3CodeMax = 0 then 7#8 else 3#8

/-- The window open and code blobs that fill each capacity exactly, on given layouts; and on the part's own layouts a revision byte whose capacity takes one byte. -/
theorem witness_InstallerWritesTheLayout :
    ((revState 0#8).lcpuRun = false ∧ (revState 0#8).iphase = .idle ∧ [1#8] ≠ [] ∧ [1#8, 2#8, 3#8, 4#8] ≠ []) ∧
      ((revState 0#8).chipId.extractLsb' 0 8 ∈ [0x00#8, 0x01#8, 0x02#8, 0x03#8] ∧
        [1#8, 2#8, 3#8, 4#8].length ≤ exampleMap.a3CodeMax) ∧
      ((revState 7#8).chipId.extractLsb' 0 8 ∈ [0x07#8, 0x0F#8] ∧
        [1#8, 2#8, 3#8, 4#8, 5#8, 6#8].length ≤ exampleMap.lsCodeMax) ∧
      ((revState roomyByte).lcpuRun = false ∧ (revState roomyByte).iphase = .idle ∧
        (((revState roomyByte).chipId.extractLsb' 0 8 ∈ [0x00#8, 0x01#8, 0x02#8, 0x03#8] ∧
            [1#8].length ≤ Config.patchMap.a3CodeMax) ∨
          ((revState roomyByte).chipId.extractLsb' 0 8 ∈ [0x07#8, 0x0F#8] ∧
            [1#8].length ≤ Config.patchMap.lsCodeMax))) := by
  refine ⟨by decide, by decide, by decide, rfl, rfl, ?_⟩
  by_cases h : Config.a3CodeMax = 0
  · refine .inr ⟨by rw [roomyByte, if_pos h]; decide, ?_⟩
    show 1 ≤ Config.lsCodeMax
    unfold Config.lsCodeMax
    split <;> omega
  · refine .inl ⟨by rw [roomyByte, if_neg h]; decide, ?_⟩
    show 1 ≤ Config.a3CodeMax
    omega

/-- On each layout an install that returns Ok, the second one right after an install that returned Ok, with regions that do not overlap. -/
theorem witness_InstallPostcondition :
    ((∃ t, installWith exampleMap [1#8, 2#8] [0xAA#8] (revState 3#8) = .next t ∧ t.hcpu.result = .ok) ∧
        (revisionByte (revState 3#8).chipId).toNat ≤ 3) ∧
      ((∃ t, installWith exampleMap [1#8, 2#8] [0xAA#8] ((revState 7#8).withResult .hcpu .ok) = .next t ∧
          t.hcpu.result = .ok) ∧
        3 < (revisionByte (revState 7#8).chipId).toNat) ∧
      RangesDisjoint exampleMap.a3Record 2 exampleMap.a3Code exampleMap.a3CodeMax ∧
      RangesDisjoint exampleMap.lsBuf 12 exampleMap.lsCode.toNat exampleMap.lsCodeMax := ⟨⟨⟨_, installWith_admitted _ _ _ _ .a3 rfl rfl (by decide) (by decide) (by decide) (by decide), rfl⟩, by decide⟩,
    ⟨⟨_, installWith_admitted _ _ _ _ .letterSeries rfl rfl (by decide) (by decide) (by decide) (by decide), rfl⟩,
      by decide⟩, .inl (by decide), .inl (by decide)⟩

/-- One byte of patch memory written after reset, whatever the byte was at reset. -/
def oneByte : Memory := Memory.write [] 0x1000 1#8

/-- A step taken from a state with a byte of patch memory written. -/
theorem witness_StepKeepsMemoryCanonical :
    ({ hcpuSearches with mem := oneByte } : State).MemOk ∧
      ∃ t, step { hcpuSearches with mem := oneByte } = .next t := ⟨memory_wf_write _ _ _ reset_mem_wf, _, rfl⟩

/-- Fields at both ends, and one past each limit. -/
theorem witness_FieldExtraction :
    fieldWords.length = 8 ∧ (1 ≤ 1 ∧ 255 + 1 ≤ 256) ∧ (32 ≤ 32 ∧ 224 + 32 ≤ 256) ∧ 32 < 33 ∧ 256 < 225 + 32 := by decide

/-- A lock read of the BCPU before a search step of HCPU. -/
theorem witness_MailboxCommutesWithHcpuFamilies :
    mbxTarget (.mbxLock .bcpu .mbx1 3#5) ≠ none ∧ (Instr.mbxLock .bcpu .mbx1 3#5).agent ≠ .hcpu ∧
      mbxTarget .apllCalstep = none ∧
      ∃ t u, exec (.mbxLock .bcpu .mbx1 3#5) (pllState calRegs (calAnswer 1900#16)) = .next t ∧
        exec .apllCalstep t = .next u := ⟨by decide, by decide, rfl, _, _, rfl, rfl⟩

/-! ### The environment never clears `cal_done` (R72) -/

theorem test_env_calDone_rises : look (takeTurn .env (envState true [.calDone])) (·.apll.calDone) = some true := by decide

theorem test_env_calDone_needs_request : look (takeTurn .env (envState false [.calDone])) (·.apll.calDone) = some false := by
  decide

end Sys2Proof.Tests
end

section
/-! PROOFS. What a bus transaction decodes to (R11, R92, R97, R122, R123, R128). -/

namespace Sys2Proof

/-! ### A 32-bit transaction, by where it is aimed -/

theorem decodeBus_narrow (a : Agent) (t : BusTx) (h : t.size ≠ 4) : decodeBus a t = .error .busWidth := if_pos h

theorem decodeBus_mailbox (a : Agent) (w : Bool) (i : MbxInst) (c off : Nat) (d : Word) :
    decodeBus a ⟨w, 4, .mailbox i c off, d⟩ = decodeMailboxAt a w i c off d := rfl

theorem decodeBus_chipId (a : Agent) (w : Bool) (d : Word) :
    decodeBus a ⟨w, 4, .chipId, d⟩ = decodeChipIdAt a w := rfl

theorem decodeBus_absolute_misaligned (a : Agent) (w : Bool) (x : Nat) (d : Word) (h : x % 4 ≠ 0) :
    decodeBus a ⟨w, 4, .absolute x, d⟩ = .error .busAlign := if_pos h

theorem decodeBus_absolute_unresolved (a : Agent) (w : Bool) (x : Nat) (d : Word) (h : x % 4 = 0)
    (hr : resolveAbs Config.mbxBase Config.nch Config.chipIdAddr x = none) :
    decodeBus a ⟨w, 4, .absolute x, d⟩ = .error .busNoRegister := by
  simp [decodeBus, h, hr]

theorem decodeBus_absolute_mailbox (a : Agent) (w : Bool) (x : Nat) (d : Word) (i : MbxInst) (c off : Nat) (h : x % 4 = 0)
    (hr : resolveAbs Config.mbxBase Config.nch Config.chipIdAddr x = some (.mailbox i c off)) :
    decodeBus a ⟨w, 4, .absolute x, d⟩ = decodeBus a ⟨w, 4, .mailbox i c off, d⟩ := by
  simp [decodeBus, h, hr]

theorem decodeBus_absolute_chipId (a : Agent) (w : Bool) (x : Nat) (d : Word) (h : x % 4 = 0)
    (hr : resolveAbs Config.mbxBase Config.nch Config.chipIdAddr x = some .chipId) :
    decodeBus a ⟨w, 4, .absolute x, d⟩ = decodeBus a ⟨w, 4, .chipId, d⟩ := by
  simp [decodeBus, h, hr]

/-- A byte address resolves to a mailbox register file, to `CHIPID` or to nothing, never to another byte address, so that
one resolution is enough (R97). -/
theorem resolveAbs_cases (base n : MbxInst → Nat) (chip x : Nat) :
    resolveAbs base n chip x = none ∨ (∃ i c off, resolveAbs base n chip x = some (.mailbox i c off)) ∨
      resolveAbs base n chip x = some .chipId := by
  unfold resolveAbs
  split
  · exact .inr (.inl ⟨_, _, _, rfl⟩)
  · split
    · exact .inr (.inl ⟨_, _, _, rfl⟩)
    · split
      · exact .inr (.inr rfl)
      · exact .inl rfl

/-! ### A transaction to a channel -/

/-- The bus form of a register access: its direction and the register it reaches (R122, R128). -/
def busForm (w : Bool) (k : MbxReg) (a : Agent) (i : MbxInst) (c : BitVec 5) (d : Word) : Instr :=
  match w, k with
  | false, .ier => .busRdier a i c
  | false, .itr => .busRdItr a i c
  | false, .icr => .busRdIcr a i c
  | false, .isr => .busRaw a i c
  | false, .misr => .busPend a i c
  | false, .exr => .busLock a i c
  | true, .ier => .busWrier a i c d
  | true, .itr => .busTrig a i c d
  | true, .icr => .busClr a i c d
  | true, .isr => .busWrIsr a i c d
  | true, .misr => .busWrMisr a i c d
  | true, .exr => .busUnlock a i c d

/-- The six bits of a register's offset under the write bit name the register's access (R122, R123). -/
theorem mbxBusInstr_mbxOff (w : Bool) (k : MbxReg) (a : Agent) (i : MbxInst) (c : BitVec 5) (d : Word) :
    mbxBusInstr ((if w then 1#1 else 0#1) ++ BitVec.ofNat 5 (Config.mbxOff k)) a i c d = some (busForm w k a i c d) := by
  cases w <;> cases k <;> rfl

/-- Every register stands at a multiple of 4 inside the channel's stride (R92). -/
theorem mbxOff_aligned_lt (k : MbxReg) : Config.mbxOff k % 4 = 0 ∧ Config.mbxOff k < 0x18 := by
  cases k <;> decide

theorem decodeMailboxAt_register (a : Agent) (w : Bool) (i : MbxInst) (c : Nat) (k : MbxReg) (d : Word) (hc : c < 16) :
    decodeMailboxAt a w i c (Config.mbxOff k) d = .ok (busForm w k a i (BitVec.ofNat 5 c) d) := by
  obtain ⟨haligned, hlt⟩ := mbxOff_aligned_lt k
  have hin : ¬ (16 ≤ c ∨ 32 ≤ Config.mbxOff k) := by omega
  simp only [decodeMailboxAt, haligned, ne_eq, not_true_eq_false, if_false, if_neg hin, mbxBusInstr_mbxOff]

/-- Offsets 0x18 and 0x1C fit the five offset bits of R122 and name no register (R97). -/
theorem mbxBusInstr_pastRegisters (w : Bool) (off : Nat) (a : Agent) (i : MbxInst) (c : BitVec 5) (d : Word)
    (h : off = 0x18 ∨ off = 0x1C) : mbxBusInstr ((if w then 1#1 else 0#1) ++ BitVec.ofNat 5 off) a i c d = none := by
  rcases h with rfl | rfl <;> cases w <;> rfl

theorem decodeMailboxAt_noRegister (a : Agent) (w : Bool) (i : MbxInst) (c off : Nat) (d : Word)
    (h : off % 4 ≠ 0 ∨ 0x18 ≤ off ∨ 16 ≤ c) : ∃ e, decodeMailboxAt a w i c off d = .error e := by
  unfold decodeMailboxAt
  split
  · exact ⟨_, rfl⟩
  · split
    · exact ⟨_, rfl⟩
    · have hpast : off = 0x18 ∨ off = 0x1C := by omega
      rw [mbxBusInstr_pastRegisters w off a i _ d hpast]
      exact ⟨_, rfl⟩

/-! ### The obligation -/

/-- Settles O5: a transaction is followed to the register file or to `CHIPID`; there the register's offset names the
access, and only the two free offsets of a channel's stride need looking at. -/
theorem busTransactionsDecode : Obligations.BusTransactionsDecode := by
  refine ⟨fun a i c d hc => ?_, fun a w i c off d h => decodeMailboxAt_noRegister a w i c off d h, decodeBus_narrow,
    fun _ _ => rfl, fun _ => rfl, fun a d ha => ?_, decodeBus_absolute_misaligned, fun a w x d hx => ?_⟩
  · have at_register : ∀ w k, decodeBus a ⟨w, 4, .mailbox i c (Config.mbxOff k), d⟩ =
        .ok (busForm w k a i (BitVec.ofNat 5 c) d) := fun w k => decodeMailboxAt_register a w i c k d hc
    exact ⟨at_register false .ier, at_register true .ier, at_register false .itr, at_register true .itr,
      at_register false .icr, at_register true .icr, at_register false .isr, at_register true .isr,
      at_register false .misr, at_register true .misr, at_register false .exr, at_register true .exr⟩
  · exact if_neg ha
  · rcases resolveAbs_cases Config.mbxBase Config.nch Config.chipIdAddr x with hr | ⟨i, c, off, hr⟩ | hr <;> rw [hr]
    · exact decodeBus_absolute_unresolved a w x d hx hr
    · exact decodeBus_absolute_mailbox a w x d i c off hx hr
    · exact decodeBus_absolute_chipId a w x d hx hr

end Sys2Proof
end

section
/-! PROOFS. How a turn reaches the operation it runs (R16, R20). -/

namespace Sys2Proof.Machine

/-- A step takes the first scheduled turn (R20). -/
theorem step_of_turns (s : State) (t : Turn) (ts : List Turn) (h : s.turns = t :: ts) :
    step s = takeTurn t { s with turns := ts } := by
  simp [step, h]

/-- A master that may move runs the head of its program on the state the item has been taken from. -/
theorem agentTurn_runs (a : Agent) (s : State) (it : Item) (rest : List Item) (hst : (s.agent a).stopped = none)
    (hrun : a = .lcpu → s.lcpuRun = true) (hp : (s.agent a).prog = it :: rest) :
    agentTurn a s = runItem a it (s.withProg a rest) := by
  have hfree : ¬ (a = .lcpu ∧ s.lcpuRun = false) := fun ⟨ha, hf⟩ => by simp [hrun ha] at hf
  simp [agentTurn, hst, hfree, hp]

theorem runItem_opd (a : Agent) (w : Word) (record code : List Byte) (i : Instr) (s : State)
    (hd : decode (.opd w record code) = .ok i) (ha : i.agent = a) : runItem a (.opd w record code) s = exec i s := by
  simp [runItem, hd, ha]

theorem runItem_bus (a : Agent) (t : BusTx) (i : Instr) (s : State) (hd : decode (.bus a t) = .ok i) :
    runItem a (.bus t) s = exec i s := by
  simp [runItem, hd]

@[simp] theorem turns_agent (s : State) (ts : List Turn) (a : Agent) :
    ({ s with turns := ts } : State).agent a = s.agent a := by
  cases a <;> rfl

/-- Settles O7: the turn is the master's own and nothing holds the master, so the item at the head is run; a descriptor or
a transaction that decodes is run by executing its operation. -/
theorem stepRunsTheDecodedOperation : Obligations.StepRunsTheDecodedOperation := by
  intro s a ts it rest hturn hst hrun hp
  have hstep : step s = runItem a it ({ s with turns := ts }.withProg a rest) := by
    rw [step_of_turns s _ ts hturn]
    exact agentTurn_runs a _ it rest (by rw [turns_agent]; exact hst) hrun (by rw [turns_agent]; exact hp)
  refine ⟨hstep, fun i hdecode hagent => ?_⟩
  rw [hstep]
  rcases hdecode with ⟨w, record, code, rfl, hd⟩ | ⟨t, rfl, hd⟩
  · exact runItem_opd a w record code i _ hd hagent
  · exact runItem_bus a t i _ hd

end Sys2Proof.Machine
end

section
/-! PROOFS. What may change the raw status of a channel (R33, R35, R36, R94), and what a turn of the environment does (R9). -/

namespace Sys2Proof.Machine

/-! ### Register transactions and the raw status -/

/-- The raw status a write of register `k` leaves in its own channel, from the one it finds (R94). -/
def isrAfterWrite (k : MbxReg) (w : Word) (isr : BitVec 16) : BitVec 16 :=
  match k with
  | .itr => isr ||| low16 w
  | .icr => isr &&& ~~~(low16 w)
  | .ier | .isr | .misr | .exr => isr

/-- An update of a channel decides the raw status of that channel and of no other. -/
theorem setChannel_isr (s : State) (i j : MbxInst) (c d : Nat) (ch : Channel) (hc : c < 16) :
    ((s.setChannel i c ch).channel j d).isr = if i = j ∧ c = d then ch.isr else (s.channel j d).isr := by
  split
  · next h =>
    obtain ⟨rfl, rfl⟩ := h
    rw [setChannel_channel_same _ _ _ _ hc]
  · next h =>
    have hother : j ≠ i ∨ d ≠ c := not_and_or.1 fun ⟨hj, hd⟩ => h ⟨hj.symm, hd.symm⟩
    rw [setChannel_channel_other _ _ _ _ _ _ hother]

/-- A read, the claiming one included, leaves the raw status of every channel alone. -/
theorem regRead_isr (a : Agent) (i j : MbxInst) (c d : Nat) (k : MbxReg) (s s' : State) (v : Word) (hc : c < 16)
    (h : regRead a i c k s = some (v, s')) : (s'.channel j d).isr = (s.channel j d).isr := by
  rcases regRead_cases a i c k s s' v h with rfl | ⟨_, _, rfl⟩
  · rfl
  · rw [setChannel_isr _ _ _ _ _ _ hc]
    split
    · next h =>
      obtain ⟨rfl, rfl⟩ := h
      rfl
    · rfl

theorem regWrite_isr (i j : MbxInst) (c d : Nat) (k : MbxReg) (w : Word) (s s' : State) (hc : c < 16)
    (h : regWrite i c k w s = some s') :
    (s'.channel j d).isr =
      if i = j ∧ c = d then isrAfterWrite k w (s.channel j d).isr else (s.channel j d).isr := by
  have update : ∀ ch : Channel, s' = s.setChannel i c ch → ch.isr = isrAfterWrite k w (s.channel i c).isr →
      (s'.channel j d).isr =
        if i = j ∧ c = d then isrAfterWrite k w (s.channel j d).isr else (s.channel j d).isr := by
    rintro ch rfl hch
    rw [setChannel_isr _ _ _ _ _ _ hc, hch]
    split
    · next h =>
      obtain ⟨rfl, rfl⟩ := h
      rfl
    · rfl
  rcases regWrite_cases i c k w s s' h with ⟨rfl, e⟩ | ⟨rfl, e⟩ | ⟨rfl, e⟩ | ⟨rfl, _, e⟩ <;> exact update _ e rfl

/-! ### The operations and the raw status -/

theorem mbxRead_isr (a : Agent) (i j : MbxInst) (c d : Nat) (k : MbxReg) (s t : State) (h : mbxRead a i c k s = .next t) :
    (t.channel j d).isr = (s.channel j d).isr := by
  rcases mbxRead_next a i c k s t h with ⟨v, s', hc, hr, rfl⟩ | ⟨_, rfl⟩
  · rw [withResult_channel]
    exact regRead_isr a i j c d k s s' v (chanOk_lt_16 i c hc) hr
  · rw [setAgent_channel]

theorem busRead_isr (a : Agent) (i j : MbxInst) (c d : Nat) (k : MbxReg) (s t : State) (h : busRead a i c k s = .next t) :
    (t.channel j d).isr = (s.channel j d).isr := by
  obtain ⟨v, s', hc, hr, rfl⟩ := busRead_next a i c k s t h
  rw [withResult_channel]
  exact regRead_isr a i j c d k s s' v (chanOk_lt_16 i c hc) hr

/-- The channel looked at exists, so a write that stops its master on the index check was not aimed at it. -/
theorem mbxWrite_isr (a : Agent) (i j : MbxInst) (c d : Nat) (k : MbxReg) (w : Word) (s t : State) (hd : d < Config.nch j)
    (h : mbxWrite a i c k w s = .next t) :
    (t.channel j d).isr =
      if i = j ∧ c = d then isrAfterWrite k w (s.channel j d).isr else (s.channel j d).isr := by
  rcases mbxWrite_next a i c k w s t h with ⟨s', hc, hr, rfl⟩ | ⟨hc, rfl⟩
  · rw [withResult_channel]
    exact regWrite_isr i j c d k w s s' (chanOk_lt_16 i c hc) hr
  · have hother : ¬ (i = j ∧ c = d) := by
      rintro ⟨rfl, rfl⟩
      rw [(chanOk_iff i c).2 hd] at hc
      cases hc
    rw [setAgent_channel, if_neg hother]

theorem busWrite_isr (a : Agent) (i j : MbxInst) (c d : Nat) (k : MbxReg) (w : Word) (s t : State)
    (h : busWrite a i c k w s = .next t) :
    (t.channel j d).isr =
      if i = j ∧ c = d then isrAfterWrite k w (s.channel j d).isr else (s.channel j d).isr := by
  obtain ⟨s', hc, hr, rfl⟩ := busWrite_next a i c k w s t h
  rw [withResult_channel]
  exact regWrite_isr i j c d k w s s' (chanOk_lt_16 i c hc) hr

/-! ### The masks of an operation -/

/-- With nothing to set and nothing to reset, the raw status stays. -/
theorem isr_masks_none (r : BitVec 16) : (r ||| 0#16) &&& ~~~0#16 = r := by
  rw [BitVec.or_zero, BitVec.not_zero, BitVec.and_allOnes]

theorem isr_masks_trigger (p : Prop) [Decidable p] (r m : BitVec 16) :
    (r ||| if p then m else 0#16) &&& ~~~0#16 = if p then r ||| m else r := by
  split
  · rw [BitVec.not_zero, BitVec.and_allOnes]
  · exact isr_masks_none r

theorem isr_masks_clear (p : Prop) [Decidable p] (r m : BitVec 16) :
    (r ||| 0#16) &&& ~~~(if p then m else 0#16) = if p then r &&& ~~~m else r := by
  split
  · rw [BitVec.or_zero]
  · exact isr_masks_none r

/-- Only mailbox operations trigger and clear. -/
theorem masks_of_mbxTarget_none (j : Instr) (i : MbxInst) (c : Nat) (h : mbxTarget j = none) :
    setMask j i c = 0#16 ∧ resetMask j i c = 0#16 := by
  revert h
  cases j <;> simp [mbxTarget, setMask, resetMask]

/-- The raw status of an existing channel changes by the triggers and the clears of that channel alone (R33, R35, R36). -/
theorem exec_isr (j : Instr) (s t : State) (i : MbxInst) (c : Nat) (hc : c < Config.nch i) (h : exec j s = .next t) :
    (t.channel i c).isr = ((s.channel i c).isr ||| setMask j i c) &&& ~~~(resetMask j i c) := by
  have keeps : setMask j i c = 0#16 → resetMask j i c = 0#16 → (t.channel i c).isr = (s.channel i c).isr →
      (t.channel i c).isr = ((s.channel i c).isr ||| setMask j i c) &&& ~~~(resetMask j i c) := by
    intro hset hreset hkeep
    rw [hset, hreset, hkeep, isr_masks_none]
  cases hj : mbxTarget j with
  | none =>
    obtain ⟨hset, hreset⟩ := masks_of_mbxTarget_none j i c hj
    exact keeps hset hreset (congrArg Channel.isr ((exec_hcpuOnly j s t hj h).channel i c))
  | some target =>
    cases j <;> simp only [mbxTarget, reduceCtorEq] at hj
    case mbxRdier a i' c' => exact keeps rfl rfl (mbxRead_isr a i' i c'.toNat c .ier s t h)
    case mbxRaw a i' c' => exact keeps rfl rfl (mbxRead_isr a i' i c'.toNat c .isr s t h)
    case mbxPend a i' c' => exact keeps rfl rfl (mbxRead_isr a i' i c'.toNat c .misr s t h)
    case mbxLock a i' c' => exact keeps rfl rfl (mbxRead_isr a i' i c'.toNat c .exr s t h)
    case busRdier a i' c' => exact keeps rfl rfl (busRead_isr a i' i c'.toNat c .ier s t h)
    case busRaw a i' c' => exact keeps rfl rfl (busRead_isr a i' i c'.toNat c .isr s t h)
    case busPend a i' c' => exact keeps rfl rfl (busRead_isr a i' i c'.toNat c .misr s t h)
    case busLock a i' c' => exact keeps rfl rfl (busRead_isr a i' i c'.toNat c .exr s t h)
    case busRdItr a i' c' => exact keeps rfl rfl (busRead_isr a i' i c'.toNat c .itr s t h)
    case busRdIcr a i' c' => exact keeps rfl rfl (busRead_isr a i' i c'.toNat c .icr s t h)
    case mbxWrier a i' c' m =>
      exact keeps rfl rfl ((mbxWrite_isr a i' i c'.toNat c .ier (zext32 m) s t hc h).trans (ite_self _))
    case mbxUnlock a i' c' =>
      exact keeps rfl rfl ((mbxWrite_isr a i' i c'.toNat c .exr Config.exrUnlock s t hc h).trans (ite_self _))
    case busWrier a i' c' w =>
      exact keeps rfl rfl ((busWrite_isr a i' i c'.toNat c .ier w s t h).trans (ite_self _))
    case busUnlock a i' c' w =>
      exact keeps rfl rfl ((busWrite_isr a i' i c'.toNat c .exr w s t h).trans (ite_self _))
    case busWrIsr a i' c' w =>
      exact keeps rfl rfl ((busWrite_isr a i' i c'.toNat c .isr w s t h).trans (ite_self _))
    case busWrMisr a i' c' w =>
      exact keeps rfl rfl ((busWrite_isr a i' i c'.toNat c .misr w s t h).trans (ite_self _))
    case mbxTrig a i' c' m =>
      rw [mbxWrite_isr a i' i c'.toNat c .itr (zext32 m) s t hc h, isrAfterWrite, low16_zext32]
      exact (isr_masks_trigger _ _ m).symm
    case mbxClr a i' c' m =>
      rw [mbxWrite_isr a i' i c'.toNat c .icr (zext32 m) s t hc h, isrAfterWrite, low16_zext32]
      exact (isr_masks_clear _ _ m).symm
    case busTrig a i' c' w =>
      rw [busWrite_isr a i' i c'.toNat c .itr w s t h]
      exact (isr_masks_trigger _ _ (low16 w)).symm
    case busClr a i' c' w =>
      rw [busWrite_isr a i' i c'.toNat c .icr w s t h]
      exact (isr_masks_clear _ _ (low16 w)).symm

/-! ### A turn of the environment -/

theorem envTurn_nil (s : State) (h : s.env = []) : envTurn s = s := by
  simp [envTurn, h]

theorem envTurn_cons (s : State) (e : EnvEvent) (es : List EnvEvent) (h : s.env = e :: es) :
    envTurn s = applyEnv e { s with env := es } := by
  simp [envTurn, h]

/-- The end of a measurement window sets `cal_done` where a measurement is requested (R62). -/
theorem applyEnv_calDone_requested (s : State) (h : s.apll.calEn = true) :
    applyEnv .calDone s = { s with apll := { s.apll with calDone := true } } := by
  simp [applyEnv, h]

theorem applyEnv_calDone_unrequested (s : State) (h : s.apll.calEn = false) : applyEnv .calDone s = s := by
  have hkeep : (s.apll.calDone || s.apll.calEn) = s.apll.calDone := by rw [h, Bool.or_false]
  rw [applyEnv, hkeep]

theorem takeTurn_env_channel (s t : State) (i : MbxInst) (c : Nat) (h : takeTurn .env s = .next t) :
    t.channel i c = s.channel i c := by
  injection h with h
  rw [← h]
  exact (envTurn_envOnly s).channel i c

theorem step_env_cons (s : State) (ts : List Turn) (e : EnvEvent) (es : List EnvEvent) (ht : s.turns = .env :: ts)
    (he : s.env = e :: es) : step s = .next (applyEnv e { s with turns := ts, env := es }) := by
  rw [step_of_turns s _ ts ht]
  exact congrArg Host.Outcome.next (envTurn_cons { s with turns := ts } e es he)

theorem step_env_nil (s : State) (ts : List Turn) (ht : s.turns = .env :: ts) (he : s.env = []) :
    step s = .next { s with turns := ts } := by
  rw [step_of_turns s _ ts ht]
  exact congrArg Host.Outcome.next (envTurn_nil { s with turns := ts } he)

/-- Settles O21: an operation goes through `exec_isr`, a turn of the environment through its next event. -/
theorem rawStatusChangesByTriggerAndClearOnly : Obligations.RawStatusChangesByTriggerAndClearOnly := by
  refine ⟨exec_isr, takeTurn_env_channel, fun s ts ht => ?_⟩
  have event : ∀ e es, s.env = e :: es → step s = .next (applyEnv e { s with turns := ts, env := es }) :=
    fun e es => step_env_cons s ts e es ht
  refine ⟨fun he => ?_, fun b => event (.hxt48Rdy b), fun b => event (.hrc48Rdy b), fun b => event (.lockDet b),
    fun n => event (.calCnt n),
    fun es he hreq => (event .calDone es he).trans (congrArg Host.Outcome.next (applyEnv_calDone_requested _ hreq)),
    fun es he hreq => (event .calDone es he).trans (congrArg Host.Outcome.next (applyEnv_calDone_unrequested _ hreq)),
    event .expire⟩
  rw [step_env_nil s ts ht he, ← he]

end Sys2Proof.Machine
end

section
/-! PROOFS. The interrupt lines (R40, R250), the release of the LCPU (R81), and what holds at reset (R381, R383). -/

namespace Sys2Proof.Machine

/-! ### Interrupt lines -/

/-- A channel's output is up while a bit is both latched and enabled (R34, R40). -/
theorem channel_irq_iff (ch : Channel) :
    ch.irq = true ↔ ∃ b : Nat, b < 16 ∧ ch.isr.getLsbD b = true ∧ ch.ier.getLsbD b = true := by
  have hzero : ch.misr = 0#16 ↔ ∀ b : Nat, b < 16 → ch.misr.getLsbD b = false :=
    ⟨fun h b _ => by simp [h], fun h => BitVec.eq_of_getLsbD_eq fun b hb => by simpa using h b hb⟩
  rw [Channel.irq, decide_eq_true_iff, ne_eq, hzero]
  simp [Channel.misr]

/-- Settles O22: the level is the OR over the channels that exist, and each of those is the OR of its enabled bits. -/
theorem interruptLineIsTheOrOfPendingBits : Obligations.InterruptLineIsTheOrOfPendingBits := by
  intro s i
  have hchannels : s.irq i = true ↔ ∃ c, c < Config.nch i ∧ (s.channel i c).irq = true := by
    simp only [State.irq, List.any_eq_true, List.mem_range, Bool.and_eq_true, chanOk_iff]
    exact ⟨fun ⟨c, _, h⟩ => ⟨c, h⟩, fun ⟨c, hc, h⟩ => ⟨c, Nat.lt_of_lt_of_le hc (nch_le_16 i), hc, h⟩⟩
  simp only [hchannels, channel_irq_iff, exists_and_left]

/-! ### The LCPU in reset -/

/-- The LCPU's turn passes while it is held in reset (R81). -/
theorem agentTurn_lcpu_held (s : State) (hst : s.lcpu.stopped = none) (hheld : s.lcpuRun = false) :
    agentTurn .lcpu s = .next s := by
  simp [agentTurn, State.agent, hst, hheld]

/-- Settles O9: the held LCPU's turn passes, and HCPU is never held, so its event runs. -/
theorem lcpuHeldUntilReleased : Obligations.LcpuHeldUntilReleased := by
  refine ⟨fun s ts ht hheld hst => ?_, fun s ts rest ht hst hp => ?_⟩
  · rw [step_of_turns s _ ts ht]
    exact agentTurn_lcpu_held { s with turns := ts } hst hheld
  · rw [step_of_turns s _ ts ht]
    exact agentTurn_runs .hcpu { s with turns := ts } .release rest hst (fun h => by cases h) hp

/-! ### The invariants at reset -/

theorem reset_mutexOk : State.reset.MutexOk := fun i c => by simp [Channel.reset]

theorem reset_chainOk : ChainOk ApllRegs.reset := by
  constructor <;> simp [ApllRegs.reset, pllRank]

theorem reset_searchOk : SearchOk ApllRegs.reset := fun h => by cases h

theorem reset_cacheOk : State.reset.CacheOk := ⟨fun h => (by cases h), fun _ => rfl⟩

/-- Settles O58. -/
theorem resetMeetsTheInvariants : Obligations.ResetMeetsTheInvariants :=
  ⟨reset_mutexOk, reset_mem_wf, reset_chainOk, reset_searchOk, reset_cacheOk⟩

end Sys2Proof.Machine
end

section
/-! PROOFS. The frame of a mailbox operation (R31, R78), and what every step keeps: the mutex pair (R39), the chip ID (R70)
and the release of the LCPU (R81). -/

namespace Sys2Proof.Machine

/-! ### The frame of a mailbox operation -/

/-- Whatever a mailbox operation does, it is an update of its channel and of its master's result and stop. -/
theorem MbxOutcome.update {a : Agent} {i : MbxInst} {c : Nat} {s t : State} (h : MbxOutcome a i c s t) :
    ∃ ch x, t = (s.setChannel i c ch).setAgent a x ∧ x.prog = (s.agent a).prog := by
  rcases h with ⟨_, ch, r, _, rfl⟩ | rfl
  · exact ⟨ch, _, rfl, by simp⟩
  · exact ⟨s.channel i c, { s.agent a with stopped := some .indexOutOfRange }, by rw [setChannel_self], rfl⟩

/-- Settles O20: the frame of the two updates. -/
theorem channelsAreIndependent : Obligations.ChannelsAreIndependent := by
  intro j i c s t hj h
  obtain ⟨ch, x, rfl, hprog⟩ := (exec_mbx_outcome j i c s t hj h).update
  have hchannels : ∀ (i' : MbxInst) (c' : Nat), i' ≠ i ∨ c' ≠ c →
      ((s.setChannel i c ch).setAgent j.agent x).channel i' c' = s.channel i' c' := fun i' c' hother => by
    rw [setAgent_channel, setChannel_channel_other _ _ _ _ _ _ hother]
  have hmasters : ∀ b : Agent, b ≠ j.agent →
      ((s.setChannel i c ch).setAgent j.agent x).agent b = s.agent b := fun b hb => by
    rw [setAgent_agent_other _ _ _ _ hb, setChannel_agent]
  exact ⟨hchannels, by simp, by simp, by simp, by simp, by simp, by simp, by simp, by simp, by simp, by simp, by simp,
    by simp, by simp, hmasters, by simpa using hprog⟩

/-! ### The mutex pair -/

/-- Each change of a channel keeps its pair: a claim writes a core ID, which is never 0, and a release writes 0 (R39). -/
theorem ChannelStep.keeps_mutexPair {a : Agent} {ch ch' : Channel} (h : ChannelStep a ch ch')
    (hpair : ch.ex = true ↔ ch.id = 0#2) : ch'.ex = true ↔ ch'.id = 0#2 := by
  cases h with
  | same => exact hpair
  | enable m => exact hpair
  | trigger m => exact hpair
  | clear m => exact hpair
  | claim _ => cases a <;> simp [Channel.claim, Agent.code]
  | release => simp [Channel.release]

/-- What leaves the channels alone keeps their pairs. -/
theorem mutexOk_of_channel {s t : State} (h : ∀ i c, t.channel i c = s.channel i c) (hs : s.MutexOk) : t.MutexOk :=
  fun i c => by rw [h]; exact hs i c

theorem MbxOutcome.keeps_mutexOk {a : Agent} {i : MbxInst} {c : Nat} {s t : State} (h : MbxOutcome a i c s t)
    (hs : s.MutexOk) : t.MutexOk := by
  rcases h with ⟨hc, ch, r, hstep, rfl⟩ | rfl
  · intro j d
    rw [withResult_channel]
    by_cases hother : j ≠ i ∨ d ≠ c
    · rw [setChannel_channel_other _ _ _ _ _ _ hother]
      exact hs j d
    · obtain ⟨rfl, rfl⟩ : j = i ∧ d = c := by simpa using hother
      rw [setChannel_channel_same _ _ _ _ hc]
      exact hstep.keeps_mutexPair (hs j d)
  · exact mutexOk_of_channel (setAgent_channel s a _) hs

theorem exec_keeps_mutexOk (j : Instr) (s t : State) (hs : s.MutexOk) (h : exec j s = .next t) : t.MutexOk := by
  cases hj : mbxTarget j with
  | none => exact mutexOk_of_channel (exec_hcpuOnly j s t hj h).channel hs
  | some target => exact (exec_mbx_outcome j target.1 target.2 s t hj h).keeps_mutexOk hs

theorem mutexOk_kept : Kept State.MutexOk where
  result s a r := mutexOk_of_channel (withResult_channel s a r)
  prog s a p := mutexOk_of_channel (withProg_channel s a p)
  stop s a _ hs _ := mutexOk_of_channel (setAgent_channel s a _) hs
  turns _ _ hs := hs
  released _ hs := hs
  env s e es := mutexOk_of_channel (applyEnv_envOnly e { s with env := es }).channel
  exec j s t hs _ := exec_keeps_mutexOk j s t hs

/-- Settles O24: nothing but a mailbox operation reaches a channel, and each of its changes keeps the pair. -/
theorem stepKeepsMutexPair : Obligations.StepKeepsMutexPair := mutexOk_kept.step

/-! ### The chip ID and the release of the LCPU -/

/-- The chip ID is `w`, and the LCPU is out of reset if `r`, whether it was so at the outset, is true. -/
def ChipIdAndRelease (w : Word) (r : Bool) (s : State) : Prop := s.chipId = w ∧ (r = true → s.lcpuRun = true)

theorem exec_chipId_lcpuRun (j : Instr) (s t : State) (h : exec j s = .next t) :
    t.chipId = s.chipId ∧ t.lcpuRun = s.lcpuRun := by
  cases hj : mbxTarget j with
  | none =>
    have hframe := exec_hcpuOnly j s t hj h
    exact ⟨hframe.chipId, hframe.lcpuRun⟩
  | some target =>
    obtain ⟨ch, x, rfl, _⟩ := (exec_mbx_outcome j target.1 target.2 s t hj h).update
    simp

theorem chipIdAndRelease_of_eq {w : Word} {r : Bool} {s t : State} (h : t.chipId = s.chipId ∧ t.lcpuRun = s.lcpuRun)
    (hs : ChipIdAndRelease w r s) : ChipIdAndRelease w r t :=
  ⟨h.1.trans hs.1, fun hr => h.2.trans (hs.2 hr)⟩

theorem chipIdAndRelease_kept (w : Word) (r : Bool) : Kept (ChipIdAndRelease w r) where
  result _ _ _ := chipIdAndRelease_of_eq (by simp)
  prog _ _ _ := chipIdAndRelease_of_eq (by simp)
  stop _ _ _ hs _ := chipIdAndRelease_of_eq (by simp) hs
  turns _ _ hs := hs
  released _ hs := ⟨hs.1, fun _ => rfl⟩
  env s e es :=
    have hframe := applyEnv_envOnly e { s with env := es }
    chipIdAndRelease_of_eq ⟨hframe.chipId, hframe.lcpuRun⟩
  exec j s t hs _ h := chipIdAndRelease_of_eq (exec_chipId_lcpuRun j s t h) hs

/-- Settles O33: no operation writes either, and the release only sets `lcpu_run`. -/
theorem chipIdAndReleaseAreStable : Obligations.ChipIdAndReleaseAreStable :=
  fun s t h => (chipIdAndRelease_kept s.chipId s.lcpuRun).step s t ⟨rfl, id⟩ h

end Sys2Proof.Machine
end

section
/-! PROOFS. The families CLK, APLL and REV work beside any mailboxes and any other masters, and, the installer apart, beside
any patch memory (R31, R76, R78); so only an install changes patch memory, whose form every step keeps (R95). -/

namespace Sys2Proof.Machine

/-- `s` with the mailboxes and the masters LCPU and BCPU of `x`, and patch memory `m`. -/
def State.beside (s x : State) (m : Memory) : State :=
  { s with mbx1 := x.mbx1, mbx2 := x.mbx2, lcpu := x.lcpu, bcpu := x.bcpu, mem := m }

/-- An outcome with its next state changed by `f`. -/
def onNext (f : State → State) : Out → Out
  | .next s => .next (f s)
  | .fault e => .fault e
  | .refused r => .refused r

/-- A measurement's outcome with its state changed by `f`. -/
def Measured.onState {α : Type} (f : State → State) : Measured α → Measured α
  | .got v s => .got v (f s)
  | .expired s => .expired (f s)

/-- The request of a measurement at a tuning code (R203). -/
def requestMeasure (code : BitVec 5) (s : State) : State :=
  { s with apll := { s.apll with fcVco := code, calDone := false, calEn := true } }

/-- What a measurement makes of its wait (R203, R216). -/
def measuredOf (p : Bool × State) : Measured (BitVec 16) :=
  if p.1 then .got p.2.apll.calCnt { p.2 with apll := { p.2.apll with calEn := false } } else .expired p.2

/-- A measurement is its request, the wait, and the reading of the wait (R203). -/
theorem measure_eq (code : BitVec 5) (s : State) :
    measure code s = measuredOf (awaitCal s.env (requestMeasure code s)) := by
  unfold measure requestMeasure
  dsimp only
  obtain ⟨_ | _, u⟩ := awaitCal s.env _ <;> rfl

theorem beside_self (s : State) : s.beside s s.mem = s := rfl

theorem onNext_eq_next {f : State → State} {o : Out} {u : State} (h : onNext f o = .next u) :
    ∃ t, o = .next t ∧ u = f t := by
  cases o with
  | next t =>
    injection h with h
    exact ⟨t, rfl, h.symm⟩
  | fault e => cases h
  | refused r => cases h

theorem onNext_ite (f : State → State) (p : Prop) [Decidable p] (o q : Out) :
    onNext f (if p then o else q) = if p then onNext f o else onNext f q := apply_ite _ _ _ _

theorem onNext_requiring (f : State → State) (p : Bool) (o : Out) :
    onNext f (requiring p o) = requiring p (onNext f o) := onNext_ite f p o _

/-! ### The families CLK, APLL and REV beside any mailboxes and any patch memory -/

section
variable (s x : State) (m : Memory)

theorem answer_hcpu_beside (r : Result) :
    answer .hcpu r (s.beside x m) = onNext (·.beside x m) (answer .hcpu r s) := rfl

variable {s x m} in
theorem requiring_beside {p : Bool} {o o' : Out} (h : o' = onNext (·.beside x m) o) :
    requiring p o' = onNext (·.beside x m) (requiring p o) := by
  rw [onNext_requiring, h]

theorem answerFreq_beside (q : Option (Option Frequency)) :
    answerFreq q (s.beside x m) = onNext (·.beside x m) (answerFreq q s) := by
  cases q <;> rfl

theorem applyEnv_beside (e : EnvEvent) : applyEnv e (s.beside x m) = (applyEnv e s).beside x m := by
  cases e <;> rfl

theorem applyEnvs_beside (es : List EnvEvent) : applyEnvs es (s.beside x m) = (applyEnvs es s).beside x m := by
  induction es generalizing s with
  | nil => rfl
  | cons e es ih => rw [applyEnvs, applyEnvs, applyEnv_beside, ih]

theorem envGap_beside : envGap (s.beside x m) = (envGap s).beside x m := by
  have hgaps : (s.beside x m).envGaps = s.envGaps := rfl
  unfold envGap
  rw [hgaps]
  cases s.envGaps with
  | nil => rfl
  | cons g gs => exact applyEnvs_beside { s with envGaps := gs } x m g

theorem dumpRest_beside (ns : List ClkNode) :
    dumpRest ns (s.beside x m) = ((dumpRest ns s).1, (dumpRest ns s).2.beside x m) := by
  induction ns generalizing s with
  | nil => rfl
  | cons n ns ih =>
    have hquery : freqOf n ((envGap s).beside x m) = freqOf n (envGap s) := by cases n <;> rfl
    simp only [dumpRest, envGap_beside, ih, hquery]

theorem execClkDump_beside : execClkDump (s.beside x m) = onNext (·.beside x m) (execClkDump s) := by
  have hdump : dump (s.beside x m) = ((dump s).1, (dump s).2.beside x m) := by
    simp only [dump, dumpRest_beside]
    rfl
  rw [execClkDump, hdump]
  rfl

theorem awaitCal_beside (es : List EnvEvent) :
    awaitCal es (s.beside x m) = ((awaitCal es s).1, (awaitCal es s).2.beside x m) := by
  induction es generalizing s with
  | nil =>
    have hdraws : (s.beside x m).draws = s.draws := rfl
    unfold awaitCal
    rw [hdraws]
    cases Config.calDraw s.draws <;> rfl
  | cons e es ih =>
    have hflag : ((applyEnv e s).beside x m).apll.calDone = (applyEnv e s).apll.calDone := rfl
    simp only [awaitCal, applyEnv_beside, hflag, ih]
    split
    · rfl
    · split <;> rfl

theorem measure_beside (code : BitVec 5) :
    measure code (s.beside x m) = (measure code s).onState (·.beside x m) := by
  have hwait : awaitCal (s.beside x m).env (requestMeasure code (s.beside x m)) = _ :=
    awaitCal_beside (requestMeasure code s) x m s.env
  rw [measure_eq, measure_eq, hwait]
  obtain ⟨_ | _, u⟩ := awaitCal s.env (requestMeasure code s) <;> rfl

theorem measureNeighbour_beside (p : Bool) (code : BitVec 5) :
    measureNeighbour p code (s.beside x m) = (measureNeighbour p code s).onState (·.beside x m) := by
  cases p with
  | false => rfl
  | true =>
    simp only [measureNeighbour, measure_beside, if_true]
    cases measure code s <;> rfl

theorem execApllMeas_beside (code : BitVec 5) :
    execApllMeas code (s.beside x m) = onNext (·.beside x m) (execApllMeas code s) := by
  unfold execApllMeas
  rw [onNext_requiring, measure_beside]
  cases measure code s <;> rfl

theorem execApllCalstep_beside : execApllCalstep (s.beside x m) = onNext (·.beside x m) (execApllCalstep s) := by
  have hcode : (s.beside x m).apll = s.apll := rfl
  unfold execApllCalstep
  rw [onNext_requiring, measure_beside, hcode]
  cases measure s.apll.code s <;> rfl

theorem execApllCalrefine_beside : execApllCalrefine (s.beside x m) = onNext (·.beside x m) (execApllCalrefine s) := by
  have hcode : (s.beside x m).apll = s.apll := rfl
  unfold execApllCalrefine
  rw [onNext_requiring, measure_beside, hcode]
  cases measure s.apll.code s with
  | expired s1 => rfl
  | got n s1 =>
    simp only [Measured.onState, measureNeighbour_beside]
    cases measureNeighbour (s.apll.code != 0#5) (s.apll.code - 1#5) s1 with
    | expired s2 => rfl
    | got dLo s2 =>
      simp only [Measured.onState, measureNeighbour_beside]
      cases measureNeighbour (s.apll.code != 31#5) (s.apll.code + 1#5) s2 <;> rfl

theorem execApllTake_beside : execApllTake (s.beside x m) = onNext (·.beside x m) (execApllTake s) := by
  unfold execApllTake
  rw [onNext_ite, onNext_requiring]
  rfl

theorem execApllLockchk_beside : execApllLockchk (s.beside x m) = onNext (·.beside x m) (execApllLockchk s) := by
  have hapll : (s.beside x m).apll = s.apll := rfl
  unfold execApllLockchk
  rw [hapll]
  cases s.apll.freqSel with
  | none => rfl
  | some k =>
    simp only [onNext_requiring]
    cases s.apll.lockDet <;> rfl

theorem execApllCheck_beside (sr : Fin 11) :
    execApllCheck sr (s.beside x m) = onNext (·.beside x m) (execApllCheck sr s) := by
  have hapll : (s.beside x m).apll = s.apll := rfl
  unfold execApllCheck
  rw [hapll]
  cases s.apll.freqSel with
  | none => rfl
  | some k =>
    simp only [onNext_requiring, onNext_ite]
    rfl

/-- An operation of family CLK, APLL or REV but the installer reads and writes neither the mailboxes, nor the other masters,
nor patch memory (R31, R76, R78). -/
theorem exec_beside (k : Instr) (hk : mbxTarget k = none) (hinstall : ∀ record code, k ≠ .revInstall record code) :
    exec k (s.beside x m) = onNext (·.beside x m) (exec k s) := by
  cases k <;> simp only [mbxTarget, reduceCtorEq] at hk
  case clkFreqHxt48 => rfl
  case clkFreqHrc48 => rfl
  case clkFreqClkDll1 => rfl
  case clkFreqClkDll2 => rfl
  case clkFreqClkSys => rfl
  case clkFreqClkPeri => rfl
  case clkFreqClkPeriDiv2 => rfl
  case clkFreqHclk => exact answerFreq_beside s x m (freqHclk s.clk)
  case clkFreqPclk1 => exact answerFreq_beside s x m (freqPclk1 s.clk)
  case clkFreqPclk2 => exact answerFreq_beside s x m (freqPclk2 s.clk)
  case clkFreqClkUsb => rfl
  case clkFreqClkAudPll => rfl
  case clkCfg f v => rfl
  case clkDump => exact execClkDump_beside s x m
  case apllTake => exact execApllTake_beside s x m
  case apllBgon => exact requiring_beside rfl
  case apllAnaon => exact requiring_beside rfl
  case apllDigon => exact requiring_beside rfl
  case apllLfcfg => exact requiring_beside rfl
  case apllCalstart => exact requiring_beside rfl
  case apllCalstep => exact execApllCalstep_beside s x m
  case apllCalrefine => exact execApllCalrefine_beside s x m
  case apllSdmprog k => exact requiring_beside rfl
  case apllLockchk => exact execApllLockchk_beside s x m
  case apllFreqof sr => rfl
  case apllCheck sr => exact execApllCheck_beside s x m sr
  case apllDrop => exact requiring_beside rfl
  case apllMeas code => exact execApllMeas_beside s x m code
  case revRdid => rfl
  case revClass b => rfl
  case revValid b => rfl
  case revLetter b => rfl
  case revPtype b => rfl
  case revInstall record code => exact absurd rfl (hinstall record code)

/-- The writes of an install read no mailbox and no other master. -/
theorem installWrites_beside (L : Config.PatchMap) (p : PatchType) (record code : List Byte) :
    installWrites L p record code (s.beside x s.mem) =
      (installWrites L p record code s).beside x (installWrites L p record code s).mem := by
  cases p <;> rfl

/-- The installer works on its own patch memory beside any mailboxes (R78, R95). -/
theorem installWith_beside (L : Config.PatchMap) (record code : List Byte) :
    installWith L record code (s.beside x s.mem) = onNext (fun t => t.beside x t.mem) (installWith L record code s) := by
  have hrun : (s.beside x s.mem).lcpuRun = s.lcpuRun := rfl
  have hphase : (s.beside x s.mem).iphase = s.iphase := rfl
  have hchip : (s.beside x s.mem).chipId = s.chipId := rfl
  unfold installWith
  rw [onNext_ite, onNext_ite, onNext_ite, hrun, hphase, hchip]
  cases revisionPatch (classify (revisionByte s.chipId)) with
  | none => rfl
  | some p =>
    simp only [onNext_ite, installWrites_beside]
    rfl

end

/-- Of the families CLK, APLL and REV the installer alone changes patch memory: any other operation, run beside the memory it
found, leaves that memory (R76). -/
theorem exec_mem_of_not_install (k : Instr) (s t : State) (hk : mbxTarget k = none)
    (hinstall : ∀ record code, k ≠ .revInstall record code) (h : exec k s = .next t) : t.mem = s.mem := by
  have hself := exec_beside s s s.mem k hk hinstall
  rw [beside_self, h] at hself
  injection hself with ht
  rw [ht]
  rfl

/-- An operation of family CLK, APLL or REV reads and writes neither the mailboxes nor the other masters (R31, R78). -/
theorem exec_hcpu_beside (k : Instr) (s x : State) (hk : mbxTarget k = none) :
    exec k (s.beside x s.mem) = onNext (fun t => t.beside x t.mem) (exec k s) := by
  by_cases hinstall : ∃ record code, k = .revInstall record code
  · obtain ⟨record, code, rfl⟩ := hinstall
    exact installWith_beside s x Config.patchMap record code
  · have hno : ∀ record code, k ≠ .revInstall record code := fun record code e => hinstall ⟨record, code, e⟩
    rw [exec_beside s x s.mem k hk hno]
    cases h : exec k s with
    | next t => rw [onNext, onNext, exec_mem_of_not_install k s t hk hno h]
    | fault e => rfl
    | refused r => rfl

/-! ### Patch memory stays canonical -/

theorem installWrites_mem_wf (L : Config.PatchMap) (p : PatchType) (record code : List Byte) (s : State) (h : s.MemOk) :
    (installWrites L p record code s).MemOk := by
  have hhead : (installHead L p record { s with iphase := .checked }).mem.wf := by
    cases p <;> exact memory_wf_writeBytes _ _ _ h
  exact memory_wf_writeBytes _ _ _ (memory_wf_writeBytes _ _ _ hhead)

theorem memOk_of_mem {s t : State} (h : t.mem = s.mem) (hs : s.MemOk) : t.MemOk := by
  rw [State.MemOk, h]
  exact hs

theorem exec_keeps_memOk (k : Instr) (s t : State) (hs : s.MemOk) (h : exec k s = .next t) : t.MemOk := by
  cases hk : mbxTarget k with
  | some target =>
    obtain ⟨ch, x, rfl, _⟩ := (exec_mbx_outcome k target.1 target.2 s t hk h).update
    exact memOk_of_mem (by simp) hs
  | none =>
    by_cases hinstall : ∃ record code, k = .revInstall record code
    · obtain ⟨record, code, rfl⟩ := hinstall
      rcases installWith_next Config.patchMap record code s t h with ⟨e, rfl⟩ | ⟨p, _, _, rfl⟩
      · exact hs
      · exact installWrites_mem_wf Config.patchMap p record code s hs
    · have hno : ∀ record code, k ≠ .revInstall record code := fun record code e => hinstall ⟨record, code, e⟩
      exact memOk_of_mem (exec_mem_of_not_install k s t hk hno h) hs

theorem memOk_kept : Kept State.MemOk where
  result s a r := memOk_of_mem (withResult_mem s a r)
  prog s a p := memOk_of_mem (withProg_mem s a p)
  stop s a _ hs _ := memOk_of_mem (setAgent_mem s a _) hs
  turns _ _ hs := hs
  released _ hs := hs
  env s e es := memOk_of_mem (applyEnv_envOnly e { s with env := es }).mem
  exec k s t hs _ := exec_keeps_memOk k s t hs

/-- Settles O57: only an install writes patch memory, and each of its writes keeps the form. -/
theorem stepKeepsMemoryCanonical : Obligations.StepKeepsMemoryCanonical := memOk_kept.step

end Sys2Proof.Machine
end

section
/-! PROOFS. The mailbox operations of LCPU and BCPU work beside any blocks of HCPU, so that they commute with the families
CLK, APLL and REV (R31, R78). -/

namespace Sys2Proof.Machine

/-! ### The mailbox operations of LCPU and BCPU -/

theorem beside_channel (s x : State) (m : Memory) (i : MbxInst) (c : Nat) : (s.beside x m).channel i c = x.channel i c := by
  cases i <;> rfl

theorem setChannel_beside (s x : State) (m : Memory) (i : MbxInst) (c : Nat) (ch : Channel) :
    (s.beside x m).setChannel i c ch = s.beside (x.setChannel i c ch) m := by
  cases i <;> rfl

section
variable (s x : State) (m : Memory) (a : Agent) (i : MbxInst) (c : Nat) (k : MbxReg) (w : Word)

theorem regRead_beside :
    regRead a i c k (s.beside x m) = (regRead a i c k x).map fun p => (p.1, s.beside p.2 m) := by
  cases k <;> simp only [regRead, beside_channel, Option.map]
  case exr =>
    rw [setChannel_beside]
    split <;> rfl

theorem regWrite_beside : regWrite i c k w (s.beside x m) = (regWrite i c k w x).map (s.beside · m) := by
  cases k <;> simp only [regWrite, beside_channel, setChannel_beside, Option.map]
  case exr => split <;> rfl

variable (ha : a ≠ .hcpu)
include ha

theorem answer_beside (r : Result) : answer a r (s.beside x m) = onNext (s.beside · m) (answer a r x) := by
  cases a
  case hcpu => exact absurd rfl ha
  case lcpu => rfl
  case bcpu => rfl

theorem raiseFatal_beside (cause : FatalCause) :
    raiseFatal a cause (s.beside x m) = onNext (s.beside · m) (raiseFatal a cause x) := by
  cases a
  case hcpu => exact absurd rfl ha
  case lcpu => rfl
  case bcpu => rfl

theorem mbxRead_beside : mbxRead a i c k (s.beside x m) = onNext (s.beside · m) (mbxRead a i c k x) := by
  unfold mbxRead
  rw [onNext_ite, regRead_beside, raiseFatal_beside s x m a ha]
  cases regRead a i c k x with
  | none => rfl
  | some p => exact congrArg (if chanOk i c then · else _) (answer_beside s p.2 m a ha _)

theorem mbxWrite_beside : mbxWrite a i c k w (s.beside x m) = onNext (s.beside · m) (mbxWrite a i c k w x) := by
  unfold mbxWrite
  rw [onNext_ite, regWrite_beside, raiseFatal_beside s x m a ha]
  cases regWrite i c k w x with
  | none => rfl
  | some y => exact congrArg (if chanOk i c then · else _) (answer_beside s y m a ha _)

theorem busRead_beside : busRead a i c k (s.beside x m) = onNext (s.beside · m) (busRead a i c k x) := by
  unfold busRead
  rw [onNext_ite, regRead_beside]
  cases regRead a i c k x with
  | none => rfl
  | some p => exact congrArg (if chanOk i c then · else _) (answer_beside s p.2 m a ha _)

theorem busWrite_beside : busWrite a i c k w (s.beside x m) = onNext (s.beside · m) (busWrite a i c k w x) := by
  unfold busWrite
  rw [onNext_ite, regWrite_beside]
  cases regWrite i c k w x with
  | none => rfl
  | some y => exact congrArg (if chanOk i c then · else _) (answer_beside s y m a ha _)

end

/-- A mailbox operation of LCPU or BCPU reads and writes the mailboxes and its master alone (R31, R78). -/
theorem exec_mbx_beside (j : Instr) (s x : State) (m : Memory) (hj : mbxTarget j ≠ none) (ha : j.agent ≠ .hcpu) :
    exec j (s.beside x m) = onNext (s.beside · m) (exec j x) := by
  cases j <;> simp only [mbxTarget, ne_eq, not_true_eq_false] at hj
  case mbxRdier a i c => exact mbxRead_beside s x m a i c.toNat .ier ha
  case mbxWrier a i c v => exact mbxWrite_beside s x m a i c.toNat .ier (zext32 v) ha
  case mbxTrig a i c v => exact mbxWrite_beside s x m a i c.toNat .itr (zext32 v) ha
  case mbxClr a i c v => exact mbxWrite_beside s x m a i c.toNat .icr (zext32 v) ha
  case mbxRaw a i c => exact mbxRead_beside s x m a i c.toNat .isr ha
  case mbxPend a i c => exact mbxRead_beside s x m a i c.toNat .misr ha
  case mbxLock a i c => exact mbxRead_beside s x m a i c.toNat .exr ha
  case mbxUnlock a i c => exact mbxWrite_beside s x m a i c.toNat .exr Config.exrUnlock ha
  case busRdier a i c => exact busRead_beside s x m a i c.toNat .ier ha
  case busWrier a i c w => exact busWrite_beside s x m a i c.toNat .ier w ha
  case busTrig a i c w => exact busWrite_beside s x m a i c.toNat .itr w ha
  case busClr a i c w => exact busWrite_beside s x m a i c.toNat .icr w ha
  case busRaw a i c => exact busRead_beside s x m a i c.toNat .isr ha
  case busPend a i c => exact busRead_beside s x m a i c.toNat .misr ha
  case busLock a i c => exact busRead_beside s x m a i c.toNat .exr ha
  case busUnlock a i c w => exact busWrite_beside s x m a i c.toNat .exr w ha
  case busRdItr a i c => exact busRead_beside s x m a i c.toNat .itr ha
  case busRdIcr a i c => exact busRead_beside s x m a i c.toNat .icr ha
  case busWrIsr a i c w => exact busWrite_beside s x m a i c.toNat .isr w ha
  case busWrMisr a i c w => exact busWrite_beside s x m a i c.toNat .misr w ha

/-! ### Operations of different sides commute -/

/-- Settles O60: `t` is `s` with the mailbox side moved on, so HCPU's operation does on `s` what it did on `t`, and the
mailbox operation then does beside its outcome what it did beside `s`. -/
theorem mailboxCommutesWithHcpuFamilies : Obligations.MailboxCommutesWithHcpuFamilies := by
  intro j k s t u hj ha hk hjs hkt
  have ht : t = s.beside t s.mem := by
    have hself := exec_mbx_beside j s s s.mem hj ha
    rw [beside_self, hjs] at hself
    injection hself
  rw [ht, exec_hcpu_beside k s t hk] at hkt
  obtain ⟨t', hks, rfl⟩ := onNext_eq_next hkt
  refine ⟨t', hks, ?_⟩
  have ht' : t' = t'.beside s t'.mem := by
    have hself := exec_hcpu_beside k s s hk
    rw [beside_self, hks] at hself
    injection hself
  rw [ht', exec_mbx_beside j t' s t'.mem hj ha, hjs]
  rfl

end Sys2Proof.Machine
end

section
/-! PROOFS. The memory map of the mailbox windows and `CHIPID` (R96, R97). -/

namespace Sys2Proof.Machine

/-- Byte address `a` lies in the window of instance `i`, for given bases and channel counts (R97). -/
def InWindow (base n : MbxInst → Nat) (i : MbxInst) (a : Nat) : Prop := base i ≤ a ∧ a < base i + n i * 0x18

theorem not_inWindow_iff {base n : MbxInst → Nat} {i : MbxInst} {a : Nat} :
    ¬ InWindow base n i a ↔ a < base i ∨ base i + n i * 0x18 ≤ a := by
  unfold InWindow
  omega

theorem not_inWindow_mbx1_of_mbx2 {base n : MbxInst → Nat} {a : Nat}
    (hdisj : RangesDisjoint (base .mbx1) (n .mbx1 * 0x18) (base .mbx2) (n .mbx2 * 0x18))
    (h : InWindow base n .mbx2 a) : ¬ InWindow base n .mbx1 a := by
  unfold RangesDisjoint at hdisj
  unfold InWindow at h ⊢
  omega

/-- The resolver asks for the first window first, so an address of the second needs the windows apart. -/
theorem resolveAbs_inWindow (base n : MbxInst → Nat) (chip : Nat)
    (hdisj : RangesDisjoint (base .mbx1) (n .mbx1 * 0x18) (base .mbx2) (n .mbx2 * 0x18))
    (i : MbxInst) (a : Nat) (h : InWindow base n i a) :
    resolveAbs base n chip a = some (.mailbox i ((a - base i) / 0x18) ((a - base i) % 0x18)) := by
  cases i with
  | mbx1 => exact if_pos h
  | mbx2 => exact (if_neg (not_inWindow_mbx1_of_mbx2 hdisj h)).trans (if_pos h)

theorem resolveAbs_outside (base n : MbxInst → Nat) (chip a : Nat) (h : ∀ i, ¬ InWindow base n i a) :
    resolveAbs base n chip a = if a = chip then some .chipId else none :=
  (if_neg (h .mbx1)).trans (if_neg (h .mbx2))

/-- The channel an address of a window falls in exists. -/
theorem InWindow.channel_lt {base n : MbxInst → Nat} {i : MbxInst} {a : Nat} (h : InWindow base n i a) :
    (a - base i) / 0x18 < n i := by
  obtain ⟨hlow, hhigh⟩ := h
  omega

/-- A register stands inside its channel's stride, so its address gives its channel and its offset back (R97). -/
theorem busAddress_inWindow (base n : MbxInst → Nat) (i : MbxInst) (c : Nat) (k : MbxReg) (hc : c < n i) :
    InWindow base n i (busAddress (base i) c k) ∧ (busAddress (base i) c k - base i) / 0x18 = c ∧
      (busAddress (base i) c k - base i) % 0x18 = Config.mbxOff k := by
  obtain ⟨_, hoff⟩ := mbxOff_aligned_lt k
  simp only [InWindow, busAddress, Config.mbxStride]
  omega

/-- Settles O6: inside a window by the window's own test, outside both by the last test of the resolver. -/
theorem addressMapResolves : Obligations.AddressMapResolves := by
  intro base n chip hdisj
  refine ⟨fun i a hlow hhigh => ?_, fun i c k hc => ?_, fun hchip => ?_, fun a ha hout => ?_⟩
  · have hin : InWindow base n i a := ⟨hlow, hhigh⟩
    exact ⟨resolveAbs_inWindow base n chip hdisj i a hin, hin.channel_lt⟩
  · obtain ⟨hin, hchannel, hoffset⟩ := busAddress_inWindow base n i c k hc
    have hres := resolveAbs_inWindow base n chip hdisj i _ hin
    rwa [hchannel, hoffset] at hres
  · rw [resolveAbs_outside base n chip chip fun i => not_inWindow_iff.2 (hchip i), if_pos rfl]
  · rw [resolveAbs_outside base n chip a fun i => not_inWindow_iff.2 (hout i), if_neg ha]

end Sys2Proof.Machine
end

section
/-! PROOFS. A trigger and a clear of the same bits, in either order (R104, R399). -/

namespace Sys2Proof.Machine

section
variable (a : Agent) (i : MbxInst) (c : BitVec 5) (m : BitVec 16) (s : State) (hc : c.toNat < Config.nch i)
include hc

/-- A trigger on an existing channel completes and latches its mask over what was latched (R35). -/
theorem exec_mbxTrig_latches :
    ∃ t, exec (.mbxTrig a i c m) s = .next t ∧ (t.channel i c.toNat).isr = (s.channel i c.toNat).isr ||| m := by
  have h : exec (.mbxTrig a i c m) s = .next _ := mbxWrite_some a i c.toNat .itr (zext32 m) s hc _ rfl
  refine ⟨_, h, ?_⟩
  rw [mbxWrite_isr a i i c.toNat c.toNat .itr (zext32 m) s _ hc h, if_pos ⟨rfl, rfl⟩, isrAfterWrite, low16_zext32]

/-- A clear on an existing channel completes and takes its mask out of what was latched (R36). -/
theorem exec_mbxClr_unlatches :
    ∃ t, exec (.mbxClr a i c m) s = .next t ∧ (t.channel i c.toNat).isr = (s.channel i c.toNat).isr &&& ~~~m := by
  have h : exec (.mbxClr a i c m) s = .next _ := mbxWrite_some a i c.toNat .icr (zext32 m) s hc _ rfl
  refine ⟨_, h, ?_⟩
  rw [mbxWrite_isr a i i c.toNat c.toNat .icr (zext32 m) s _ hc h, if_pos ⟨rfl, rfl⟩, isrAfterWrite, low16_zext32]

end

theorem or_mask_and_mask (r m : BitVec 16) : (r ||| m) &&& m = m := by
  ext b
  simpa using Or.inr

/-- Settles O23: the later of the two decides the bits of the mask, whatever the earlier left there. -/
theorem triggerAndClearOrders : Obligations.TriggerAndClearOrders := by
  intro a b i c m s hc
  constructor
  · obtain ⟨t, ht, _⟩ := exec_mbxTrig_latches a i c m s hc
    obtain ⟨u, hu, hcleared⟩ := exec_mbxClr_unlatches b i c m t hc
    refine ⟨t, u, ht, hu, ?_⟩
    rw [hcleared, BitVec.and_assoc, BitVec.not_and_self]
    exact BitVec.and_zero
  · obtain ⟨t, ht, _⟩ := exec_mbxClr_unlatches b i c m s hc
    obtain ⟨u, hu, hlatched⟩ := exec_mbxTrig_latches a i c m t hc
    refine ⟨t, u, ht, hu, ?_⟩
    rw [hlatched, or_mask_and_mask]

end Sys2Proof.Machine
end

section
/-! PROOFS. Descriptors: what the decoder accepts, family by family, and that it is the encoder's own (R120 to R124, R132). -/

namespace Sys2Proof

/-! ### A descriptor, by its family -/

/-- A check of the decoder that refuses what meets `p`. -/
theorem error_if_eq_ok_iff {p : Prop} [Decidable p] {e : DecodeError} {x : Except DecodeError Instr} {j : Instr} :
    (if p then .error e else x) = .ok j ↔ ¬ p ∧ x = .ok j := by
  by_cases h : p <;> simp [h]

/-- A check of the decoder that refuses what does not meet `p`. -/
theorem if_error_eq_ok_iff {p : Prop} [Decidable p] {e : DecodeError} {x : Except DecodeError Instr} {j : Instr} :
    (if p then x else .error e) = .ok j ↔ p ∧ x = .ok j := by
  by_cases h : p <;> simp [h]

/-- Byte lists stand beside a descriptor of `REV.INSTALL` alone (R132). -/
def ListsFit (fam op : BitVec 4) (record code : List Byte) : Prop :=
  (record = [] ∧ code = []) ∨ (fam = 4#4 ∧ op = 5#4)

theorem ListsFit.empty {fam op : BitVec 4} {record code : List Byte} (h : ListsFit fam op record code)
    (hno : ¬ (fam = 4#4 ∧ op = 5#4)) : record = [] ∧ code = [] := h.resolve_right hno

/-- What the decoder of the family makes of the fields of a descriptor of HCPU alone (R11). -/
def HcpuDecodes (fam op : BitVec 4) (idx : BitVec 5) (imm : BitVec 16) (record code : List Byte) (j : Instr) : Prop :=
  (fam = 1#4 ∧ decodeClk op idx imm = .ok j) ∨ (fam = 2#4 ∧ decodeApll op idx imm = .ok j) ∨
    (fam = 4#4 ∧ decodeRev op idx imm record code = .ok j)

/-- A descriptor decodes where its agent exists, its byte lists fit, and the decoder of its family accepts the rest; the
families of HCPU alone ask for HCPU and a clear `inst` bit as well (R11, R121, R129). -/
theorem decodeOpd_ok_iff (w : Word) (record code : List Byte) (j : Instr) :
    decodeOpd w record code = .ok j ↔
      ∃ a, Agent.ofCode (opdAgent w) = some a ∧ ListsFit (opdFam w) (opdOp w) record code ∧
        ((opdFam w = 3#4 ∧
            decodeMbx (opdOp w) a (MbxInst.ofBit (opdInst w)) (opdIdx w) (opdImm w) = .ok j) ∨
          (a = .hcpu ∧ opdInst w = 0#1 ∧
            HcpuDecodes (opdFam w) (opdOp w) (opdIdx w) (opdImm w) record code j)) := by
  unfold decodeOpd
  cases Agent.ofCode (opdAgent w) with
  | none => simp
  | some a =>
    have hfit : ¬ ((record ≠ [] ∨ code ≠ []) ∧ ¬ (opdFam w = 4#4 ∧ opdOp w = 5#4)) ↔
        ListsFit (opdFam w) (opdOp w) record code := by
      unfold ListsFit
      tauto
    simp only [error_if_eq_ok_iff, hfit, Option.some.injEq, exists_eq_left', HcpuDecodes]
    refine and_congr_right fun _ => ?_
    by_cases h3 : opdFam w = 3#4
    · simp [h3]
    by_cases h1 : opdFam w = 1#4
    · simp [h1, if_error_eq_ok_iff]
    by_cases h2 : opdFam w = 2#4
    · simp [h2, if_error_eq_ok_iff]
    by_cases h4 : opdFam w = 4#4
    · simp [h4, if_error_eq_ok_iff]
    · simp [h1, h2, h3, h4]

section
variable {fam op : BitVec 4} {idx : BitVec 5} {imm : BitVec 16} {record code : List Byte} {j : Instr}

theorem decode_hcpuWord (hlists : ListsFit fam op record code) (h : HcpuDecodes fam op idx imm record code j) :
    decode (.opd (opdWord fam op Agent.hcpu.code 0#1 idx imm) record code) = .ok j :=
  (decodeOpd_ok_iff _ _ _ _).2 ⟨.hcpu, by simp, by simpa using hlists, .inr ⟨rfl, by simp, by simpa using h⟩⟩

theorem decode_encodeClk (h : decodeClk op idx imm = .ok j) : decode (encodeHcpu 1#4 op idx imm) = .ok j :=
  decode_hcpuWord (.inl ⟨rfl, rfl⟩) (.inl ⟨rfl, h⟩)

theorem decode_encodeApll (h : decodeApll op idx imm = .ok j) : decode (encodeHcpu 2#4 op idx imm) = .ok j :=
  decode_hcpuWord (.inl ⟨rfl, rfl⟩) (.inr (.inl ⟨rfl, h⟩))

theorem decode_encodeRev (h : decodeRev op idx imm [] [] = .ok j) : decode (encodeHcpu 4#4 op idx imm) = .ok j :=
  decode_hcpuWord (.inl ⟨rfl, rfl⟩) (.inr (.inr ⟨rfl, h⟩))

theorem decode_encodeMbx {a : Agent} {i : MbxInst} (h : decodeMbx op a i idx imm = .ok j) :
    decode (encodeMbx op a i idx imm) = .ok j :=
  (decodeOpd_ok_iff _ _ _ _).2 ⟨a, by simp, .inl ⟨rfl, rfl⟩, .inl ⟨by simp, by simpa using h⟩⟩

end

/-! ### Operations by their encodings -/

/-- A register access of a channel number below 16 comes back as its bus form (R122). -/
theorem decode_encodeBus {w : Bool} {k : MbxReg} {a : Agent} {i : MbxInst} {c : BitVec 5} {d : Word}
    (hc : Instr.busChannelOk c = true) : decode (encodeBus w k a i c d) = .ok (busForm w k a i c d) := by
  have hlt : c.toNat < 16 := by simpa [Instr.busChannelOk] using hc
  have h := decodeMailboxAt_register a w i c.toNat k d hlt
  rwa [BitVec.ofNat_toNat, BitVec.setWidth_eq] at h

theorem decodeClk_cfg (f : ClkField) (v : BitVec 16) (h : (Instr.clkCfg f v).wf = true) :
    decodeClk 1#4 f.code v = .ok (.clkCfg f v) := by
  have hfits : v.toNat < 2 ^ Config.fieldWidth f := by simpa [Instr.wf] using h
  simp [decodeClk, hfits]

theorem decodeApll_sdmprog (k : Fin 3) : decodeApll 8#4 (BitVec.ofNat 5 k.val) 0#16 = .ok (.apllSdmprog k) := by
  simp [decodeApll, apllPlain, Nat.mod_eq_of_lt (show k.val < 32 by omega)]

theorem decodeApll_freqof (sr : Fin 11) : decodeApll 0xA#4 (BitVec.ofNat 5 sr.val) 0#16 = .ok (.apllFreqof sr) := by
  simp [decodeApll, apllPlain, Nat.mod_eq_of_lt (show sr.val < 32 by omega)]

theorem decodeApll_check (sr : Fin 11) : decodeApll 0xB#4 (BitVec.ofNat 5 sr.val) 0#16 = .ok (.apllCheck sr) := by
  simp [decodeApll, apllPlain, Nat.mod_eq_of_lt (show sr.val < 32 by omega)]

/-- A revision byte zero-extended to `imm16` decodes as itself (R126 (a)). -/
theorem decodeRev_ofByte {op : BitVec 4} {b : Byte} {j : Instr} (h : revOfByte op b = some j) :
    decodeRev op 0#5 (b.setWidth 16) [] [] = .ok j := by
  have hlow : (b.setWidth 16).extractLsb' 0 8 = b := by
    ext k hk
    simp [show k < 16 by omega]
    rfl
  have hhigh : (b.setWidth 16).extractLsb' 8 8 = 0#8 := by
    ext k hk
    simp
  simp [decodeRev, hlow, hhigh, h]

/-- Settles O1: each operation is traced to the decoder of its family or to its register, which gives it back from the
operands its encoding carries. -/
theorem decodeEncodeAgree : Obligations.DecodeEncodeAgree := by
  intro j hwf
  cases j with
  | clkFreqHxt48 | clkFreqHrc48 | clkFreqClkDll1 | clkFreqClkDll2 | clkFreqClkSys | clkFreqClkPeri | clkFreqClkPeriDiv2
  | clkFreqHclk | clkFreqPclk1 | clkFreqPclk2 | clkFreqClkUsb | clkFreqClkAudPll | clkDump => exact decode_encodeClk rfl
  | clkCfg f v => exact decode_encodeClk (decodeClk_cfg f v hwf)
  | apllTake | apllBgon | apllAnaon | apllDigon | apllLfcfg | apllCalstart | apllCalstep | apllCalrefine | apllLockchk
  | apllDrop | apllMeas => exact decode_encodeApll rfl
  | apllSdmprog k => exact decode_encodeApll (decodeApll_sdmprog k)
  | apllFreqof sr => exact decode_encodeApll (decodeApll_freqof sr)
  | apllCheck sr => exact decode_encodeApll (decodeApll_check sr)
  | mbxRdier | mbxWrier | mbxTrig | mbxClr | mbxRaw | mbxPend | mbxLock | mbxUnlock => exact decode_encodeMbx rfl
  | revRdid => exact decode_encodeRev rfl
  | revClass | revValid | revLetter | revPtype => exact decode_encodeRev (decodeRev_ofByte rfl)
  | revInstall record code => exact decode_hcpuWord (.inr ⟨rfl, rfl⟩) (.inr (.inr ⟨rfl, rfl⟩))
  | busRdier | busWrier | busTrig | busClr | busRaw | busPend | busLock | busUnlock | busRdItr | busRdIcr | busWrIsr
  | busWrMisr => exact decode_encodeBus hwf


/-! ### What decodes is its own encoding -/

/-- `e` is the encoding of `j`, and `j` is well formed. -/
def EncodedAs (e : Encoded) (j : Instr) : Prop := j.wf = true ∧ encode j = e

/-- The operations of `CLK.FREQ` are listed by their node numbers (R124). -/
theorem clkFreqTable_encodedAs (idx : BitVec 5) :
    ∀ j ∈ clkFreqTable[idx.toNat]?, EncodedAs (encodeHcpu 1#4 0#4 idx 0#16) j := by
  unfold EncodedAs
  revert idx
  decide

theorem clkField_code_of_ofCode (idx : BitVec 5) : ∀ f ∈ ClkField.ofCode idx, f.code = idx := by
  revert idx
  decide

theorem apllPlain_encodedAs (op : BitVec 4) : ∀ j ∈ apllPlain op, EncodedAs (encodeHcpu 2#4 op 0#5 0#16) j := by
  unfold EncodedAs
  revert op
  decide


theorem EncodedAs.of_ok {e : Encoded} {i j : Instr} (hi : EncodedAs e i) (h : Except.ok (ε := DecodeError) i = .ok j) :
    EncodedAs e j := by
  injection h with h
  exact h ▸ hi

section
variable {op : BitVec 4} {idx : BitVec 5} {imm : BitVec 16} {j : Instr}

theorem decodeClk_encodedAs (h : decodeClk op idx imm = .ok j) : EncodedAs (encodeHcpu 1#4 op idx imm) j := by
  unfold decodeClk at h
  split at h
  · next hop =>
    rw [if_error_eq_ok_iff] at h
    obtain ⟨rfl, h⟩ := h
    subst hop
    split at h
    · next i hi => exact (clkFreqTable_encodedAs idx i hi).of_ok h
    · cases h
  split at h
  · next hop =>
    subst hop
    split at h
    · next f hf =>
      rw [if_error_eq_ok_iff] at h
      obtain ⟨hfits, h⟩ := h
      refine EncodedAs.of_ok ⟨?_, ?_⟩ h
      · simpa [Instr.wf] using hfits
      · rw [encode, clkField_code_of_ofCode idx f hf]
    · cases h
  split at h
  · next hop =>
    rw [if_error_eq_ok_iff] at h
    obtain ⟨⟨rfl, rfl⟩, h⟩ := h
    subst hop
    exact EncodedAs.of_ok ⟨rfl, rfl⟩ h
  · cases h

/-- An operation whose `idx` counts into a table is the encoding of what it decodes to (R124). -/
theorem indexed_encodedAs {n : Nat} (build : Fin n → Instr)
    (hbuild : ∀ k, EncodedAs (encodeHcpu 2#4 op (BitVec.ofNat 5 k.val) 0#16) (build k))
    (h : (if imm ≠ 0#16 then .error DecodeError.unusedField
      else if h : idx.toNat < n then .ok (build ⟨idx.toNat, h⟩) else .error DecodeError.indexRange) = Except.ok j) :
    EncodedAs (encodeHcpu 2#4 op idx imm) j := by
  rw [error_if_eq_ok_iff] at h
  obtain ⟨himm, h⟩ := h
  obtain rfl := not_not.1 himm
  split at h
  · next hidx =>
    have henc := hbuild ⟨idx.toNat, hidx⟩
    rw [BitVec.ofNat_toNat, BitVec.setWidth_eq] at henc
    exact henc.of_ok h
  · cases h

theorem decodeApll_encodedAs (h : decodeApll op idx imm = .ok j) : EncodedAs (encodeHcpu 2#4 op idx imm) j := by
  unfold decodeApll at h
  split at h
  · next i hi =>
    rw [if_error_eq_ok_iff] at h
    obtain ⟨⟨rfl, rfl⟩, h⟩ := h
    exact (apllPlain_encodedAs op i hi).of_ok h
  split at h
  · next hop => exact indexed_encodedAs .apllSdmprog (fun _ => by subst hop; exact ⟨rfl, rfl⟩) h
  split at h
  · next hop => exact indexed_encodedAs .apllFreqof (fun _ => by subst hop; exact ⟨rfl, rfl⟩) h
  split at h
  · next hop => exact indexed_encodedAs .apllCheck (fun _ => by subst hop; exact ⟨rfl, rfl⟩) h
  split at h
  · next hop =>
    rw [if_error_eq_ok_iff] at h
    obtain ⟨rfl, h⟩ := h
    subst hop
    exact EncodedAs.of_ok ⟨rfl, rfl⟩ h
  · cases h


/-- The operations of family MBX that take no mask, by their numbers (R123). -/
theorem mbxMaskless_cases {a : Agent} {i : MbxInst} {c : BitVec 5} (h : mbxMaskless op a i c = some j) :
    (op = 0#4 ∧ j = .mbxRdier a i c) ∨ (op = 4#4 ∧ j = .mbxRaw a i c) ∨ (op = 5#4 ∧ j = .mbxPend a i c) ∨
      (op = 6#4 ∧ j = .mbxLock a i c) ∨ (op = 7#4 ∧ j = .mbxUnlock a i c) := by
  unfold mbxMaskless at h
  split_ifs at h <;> simp_all

theorem mbxMaskless_encodedAs {a : Agent} {i : MbxInst} {c : BitVec 5} (h : mbxMaskless op a i c = some j) :
    EncodedAs (encodeMbx op a i c 0#16) j := by
  rcases mbxMaskless_cases h with ⟨rfl, rfl⟩ | ⟨rfl, rfl⟩ | ⟨rfl, rfl⟩ | ⟨rfl, rfl⟩ | ⟨rfl, rfl⟩ <;> exact ⟨rfl, rfl⟩

theorem decodeMbx_encodedAs {a : Agent} {i : MbxInst} {c : BitVec 5} (h : decodeMbx op a i c imm = .ok j) :
    EncodedAs (encodeMbx op a i c imm) j := by
  unfold decodeMbx at h
  split at h
  · next _ x hx =>
    rw [if_error_eq_ok_iff] at h
    obtain ⟨rfl, h⟩ := h
    exact (mbxMaskless_encodedAs hx).of_ok h
  split at h
  · next hop => exact hop ▸ EncodedAs.of_ok ⟨rfl, rfl⟩ h
  split at h
  · next hop => exact hop ▸ EncodedAs.of_ok ⟨rfl, rfl⟩ h
  split at h
  · next hop => exact hop ▸ EncodedAs.of_ok ⟨rfl, rfl⟩ h
  · cases h


/-- The classification operations of family REV, by their numbers (R123). -/
theorem revOfByte_cases {b : Byte} (h : revOfByte op b = some j) :
    (op = 1#4 ∧ j = .revClass b) ∨ (op = 2#4 ∧ j = .revValid b) ∨ (op = 3#4 ∧ j = .revLetter b) ∨
      (op = 4#4 ∧ j = .revPtype b) := by
  unfold revOfByte at h
  split_ifs at h <;> simp_all

theorem revOfByte_encodedAs {b : Byte} (h : revOfByte op b = some j) :
    EncodedAs (encodeHcpu 4#4 op 0#5 (b.setWidth 16)) j := by
  rcases revOfByte_cases h with ⟨rfl, rfl⟩ | ⟨rfl, rfl⟩ | ⟨rfl, rfl⟩ | ⟨rfl, rfl⟩ <;> exact ⟨rfl, rfl⟩

/-- A revision byte's `imm16` holds no more than the byte (R126 (a), R129). -/
theorem highByte_eq_zero_iff (imm : BitVec 16) : imm.extractLsb' 8 8 = 0#8 ↔ imm.toNat < 256 := by
  rw [← BitVec.toNat_inj, BitVec.extractLsb'_toNat, Nat.shiftRight_eq_div_pow, BitVec.toNat_ofNat]
  have := imm.isLt
  omega

theorem setWidth_lowByte (h : imm.toNat < 256) : (imm.extractLsb' 0 8).setWidth 16 = imm := by
  apply BitVec.eq_of_toNat_eq
  simp only [BitVec.toNat_setWidth, BitVec.extractLsb'_toNat, Nat.shiftRight_zero]
  omega

theorem decodeRev_encodedAs {record code : List Byte} (hlists : ListsFit 4#4 op record code)
    (h : decodeRev op idx imm record code = .ok j) :
    EncodedAs (.opd (opdWord 4#4 op Agent.hcpu.code 0#1 idx imm) record code) j := by
  unfold decodeRev at h
  rw [error_if_eq_ok_iff] at h
  obtain ⟨hidx, h⟩ := h
  obtain rfl := not_not.1 hidx
  split at h
  · next x hx =>
    rw [if_error_eq_ok_iff] at h
    obtain ⟨hhigh, h⟩ := h
    have hop : op ≠ 5#4 := by
      rintro rfl
      cases hx
    obtain ⟨rfl, rfl⟩ := hlists.empty fun ⟨_, e⟩ => hop e
    have henc := revOfByte_encodedAs hx
    rw [setWidth_lowByte ((highByte_eq_zero_iff imm).1 hhigh)] at henc
    exact henc.of_ok h
  split at h
  · next hop =>
    subst hop
    rw [if_error_eq_ok_iff] at h
    obtain ⟨rfl, h⟩ := h
    obtain ⟨rfl, rfl⟩ := hlists.empty (by decide)
    exact EncodedAs.of_ok ⟨rfl, rfl⟩ h
  split at h
  · next hop =>
    subst hop
    rw [if_error_eq_ok_iff] at h
    obtain ⟨rfl, h⟩ := h
    exact EncodedAs.of_ok ⟨rfl, rfl⟩ h
  · cases h

end

/-- Settles O2: the fields the decoder checked are the fields the encoder writes, so the descriptor put together from them
is the one that was read. -/
theorem legalDescriptorIsItsEncoding : Obligations.LegalDescriptorIsItsEncoding := by
  intro w record code j h
  obtain ⟨a, hagent, hlists, hfamily⟩ := (decodeOpd_ok_iff w record code j).1 h
  have hcode := agent_code_of_ofCode _ a hagent
  suffices hfields : EncodedAs
      (.opd (opdWord (opdFam w) (opdOp w) a.code (opdInst w) (opdIdx w) (opdImm w)) record code) j by
    rwa [hcode, opdWord_fields] at hfields
  rcases hfamily with ⟨hfam, hmbx⟩ | ⟨rfl, hinst, hhcpu⟩
  · obtain ⟨rfl, rfl⟩ := hlists.empty (by simp [hfam])
    have henc := decodeMbx_encodedAs hmbx
    rw [encodeMbx, inst_bit_ofBit, ← hfam] at henc
    exact henc
  rw [hinst]
  rcases hhcpu with ⟨hfam, hclk⟩ | ⟨hfam, hapll⟩ | ⟨hfam, hrev⟩
  · obtain ⟨rfl, rfl⟩ := hlists.empty (by simp [hfam])
    rw [hfam]
    exact decodeClk_encodedAs hclk
  · obtain ⟨rfl, rfl⟩ := hlists.empty (by simp [hfam])
    rw [hfam]
    exact decodeApll_encodedAs hapll
  · rw [hfam] at hlists ⊢
    exact decodeRev_encodedAs hlists hrev

end Sys2Proof
end

section
/-! PROOFS. The descriptors R129 calls illegal are the ones the decoder refuses. -/

namespace Sys2Proof
open Machine

/-! ### R129, turned around -/

/-- What R129 asks of the operands of a descriptor whose opcode is `n`: the opcode is known, a field it does not use is 0, and
the ranges of the fields it uses. -/
def OperandsLegal (n : Nat) (idx : BitVec 5) (imm : BitVec 16) : Prop :=
  n ∈ opcodes ∧ (idx ≠ 0#5 → n ∈ idxOpcodes) ∧ (imm ≠ 0#16 → n ∈ immOpcodes) ∧
    (n = 0x10 ∨ n = 0x11 → idx.toNat ≤ 11) ∧ (n = 0x28 → idx.toNat ≤ 2) ∧ (n = 0x2A ∨ n = 0x2B → idx.toNat ≤ 10) ∧
    (n ∈ [0x41, 0x42, 0x43, 0x44] → imm.toNat < 256) ∧ (n = 0x11 → imm.toNat < 2 ^ fieldWidthOf idx.toNat)

theorem not_illegalDescriptor_iff (w : Word) :
    ¬ IllegalDescriptor w ↔ opdAgent w ≠ 0#2 ∧ (opdAgent w ≠ 1#2 → opdFam w = 3#4) ∧
      (opdInst w ≠ 0#1 → opdFam w = 3#4) ∧ OperandsLegal (opcodeOf w) (opdIdx w) (opdImm w) := by
  simp only [IllegalDescriptor, OperandsLegal, not_or, not_and, not_lt, not_le, not_not]
  exact ⟨fun ⟨hknown, hagent, hhcpu, hinst, hoperands⟩ => ⟨hagent, hhcpu, hinst, hknown, hoperands⟩,
    fun ⟨hagent, hhcpu, hinst, hknown, hoperands⟩ => ⟨hknown, hagent, hhcpu, hinst, hoperands⟩⟩

/-- The opcode is the family and the operation side by side (R121). -/
theorem opcodeOf_eq (w : Word) : opcodeOf w = 16 * (opdFam w).toNat + (opdOp w).toNat := by
  simp only [opcodeOf, opdFam, opdOp, BitVec.extractLsb'_toNat, Nat.shiftRight_eq_div_pow]
  omega

/-- Every opcode of the map is of one of the four families (R123). -/
theorem family_of_known (fam op : BitVec 4) (h : 16 * fam.toNat + op.toNat ∈ opcodes) :
    fam = 1#4 ∨ fam = 2#4 ∨ fam = 3#4 ∨ fam = 4#4 := by
  revert fam op
  decide

section
variable (idx : BitVec 5) (imm : BitVec 16)

/-- An operation of no operand asks for two clear fields. -/
theorem operandsLegal_plain {n : Nat} (hn : n ∈ opcodes) (hidx : n ∉ idxOpcodes) (himm : n ∉ immOpcodes) :
    OperandsLegal n idx imm ↔ idx = 0#5 ∧ imm = 0#16 := by
  constructor
  · rintro ⟨_, hi, hm, _⟩
    exact ⟨by_contra fun h => hidx (hi h), by_contra fun h => himm (hm h)⟩
  · rintro ⟨rfl, rfl⟩
    have hvalue : n ≠ 0x11 := by
      rintro rfl
      exact himm (by decide)
    simp [OperandsLegal, hn, hvalue]

theorem operandsLegal_freq : OperandsLegal 0x10 idx imm ↔ imm = 0#16 ∧ idx.toNat ≤ 11 := by
  simp [OperandsLegal, opcodes, idxOpcodes, immOpcodes]

theorem operandsLegal_cfg : OperandsLegal 0x11 idx imm ↔ idx.toNat ≤ 11 ∧ imm.toNat < 2 ^ fieldWidthOf idx.toNat := by
  simp [OperandsLegal, opcodes, idxOpcodes, immOpcodes]

theorem operandsLegal_sdmprog : OperandsLegal 0x28 idx imm ↔ imm = 0#16 ∧ idx.toNat ≤ 2 := by
  simp [OperandsLegal, opcodes, idxOpcodes, immOpcodes]

theorem operandsLegal_rate {n : Nat} (h : n = 0x2A ∨ n = 0x2B) :
    OperandsLegal n idx imm ↔ imm = 0#16 ∧ idx.toNat ≤ 10 := by
  rcases h with rfl | rfl <;> simp [OperandsLegal, opcodes, idxOpcodes, immOpcodes]

theorem operandsLegal_idxOnly {n : Nat} (h : n ∈ [0x2D, 0x30, 0x34, 0x35, 0x36, 0x37]) :
    OperandsLegal n idx imm ↔ imm = 0#16 := by
  fin_cases h <;> simp [OperandsLegal, opcodes, idxOpcodes, immOpcodes]

theorem operandsLegal_mask {n : Nat} (h : n ∈ [0x31, 0x32, 0x33]) : OperandsLegal n idx imm := by
  fin_cases h <;> simp [OperandsLegal, opcodes, idxOpcodes, immOpcodes]

theorem operandsLegal_byte {n : Nat} (h : n ∈ [0x41, 0x42, 0x43, 0x44]) :
    OperandsLegal n idx imm ↔ idx = 0#5 ∧ imm.toNat < 256 := by
  fin_cases h <;> simp [OperandsLegal, opcodes, idxOpcodes, immOpcodes]

theorem not_operandsLegal_of_unknown {n : Nat} (h : n ∉ opcodes) : ¬ OperandsLegal n idx imm := fun hl => h hl.1

/-! ### What the decoder of each family accepts -/

/-- The decoder accepts. -/
def Accepted (x : Except DecodeError Instr) : Prop := ∃ j, x = .ok j

theorem accepted_ok (j : Instr) : Accepted (.ok j) := ⟨j, rfl⟩

theorem not_accepted_error (e : DecodeError) : ¬ Accepted (.error e) := fun ⟨_, h⟩ => by cases h

theorem accepted_if_error {p : Prop} [Decidable p] {x : Except DecodeError Instr} {e : DecodeError} :
    Accepted (if p then x else .error e) ↔ p ∧ Accepted x := by
  simp only [Accepted, if_error_eq_ok_iff, exists_and_left]

theorem accepted_error_if {p : Prop} [Decidable p] {x : Except DecodeError Instr} {e : DecodeError} :
    Accepted (if p then .error e else x) ↔ ¬ p ∧ Accepted x := by
  simp only [Accepted, error_if_eq_ok_iff, exists_and_left]

/-- An operation whose `idx` counts into a table of `n` entries is accepted below `n`. -/
theorem accepted_indexed {n : Nat} (build : Fin n → Instr) :
    Accepted (if imm ≠ 0#16 then .error .unusedField
      else if h : idx.toNat < n then .ok (build ⟨idx.toNat, h⟩) else .error .indexRange) ↔
    imm = 0#16 ∧ idx.toNat < n := by
  rw [accepted_error_if, not_not]
  refine and_congr_right fun _ => ?_
  split
  · next hlt => exact iff_of_true (accepted_ok _) hlt
  · next hge => exact iff_of_false (not_accepted_error _) hge

variable (op : BitVec 4)

/-- The nodes are numbered 0 to 11 (R124). -/
theorem clkFreqTable_isSome : clkFreqTable[idx.toNat]?.isSome = true ↔ idx.toNat ≤ 11 := by
  revert idx
  decide

/-- The fields are numbered 0 to 11, and their widths are those of R54 to R57 (R124). -/
theorem clkField_ofCode_width :
    ∀ f ∈ ClkField.ofCode idx, idx.toNat ≤ 11 ∧ Config.fieldWidth f = fieldWidthOf idx.toNat := by
  revert idx
  decide

theorem clkField_ofCode_none : ClkField.ofCode idx = none → 11 < idx.toNat := by
  revert idx
  decide

theorem decodeClk_accepted : Accepted (decodeClk op idx imm) ↔ OperandsLegal (0x10 + op.toNat) idx imm := by
  unfold decodeClk
  split
  · next hop =>
    subst hop
    refine Iff.trans (accepted_if_error.trans (and_congr_right fun _ => ?_)) (operandsLegal_freq idx imm).symm
    rw [← clkFreqTable_isSome]
    cases clkFreqTable[idx.toNat]? <;> simp [accepted_ok, not_accepted_error]
  split
  · next hop =>
    subst hop
    refine Iff.trans ?_ (operandsLegal_cfg idx imm).symm
    cases hf : ClkField.ofCode idx with
    | none =>
      have hidx := clkField_ofCode_none idx hf
      exact iff_of_false (not_accepted_error _) (by omega)
    | some f =>
      obtain ⟨hidx, hwidth⟩ := clkField_ofCode_width idx f hf
      simp [accepted_if_error, accepted_ok, hidx, hwidth]
  split
  · next hop =>
    subst hop
    rw [accepted_if_error, operandsLegal_plain idx imm (by decide) (by decide) (by decide)]
    exact and_iff_left (accepted_ok _)
  · next h0 h1 h2 =>
    have hunknown : 0x10 + op.toNat ∉ opcodes := by
      revert op
      decide
    exact iff_of_false (not_accepted_error _) (not_operandsLegal_of_unknown idx imm hunknown)

theorem apllPlain_some_opcode (h : (apllPlain op).isSome = true) :
    0x20 + op.toNat ∈ opcodes ∧ 0x20 + op.toNat ∉ idxOpcodes ∧ 0x20 + op.toNat ∉ immOpcodes := by
  revert op
  decide

theorem apllPlain_none_opcode (h : apllPlain op = none) (h8 : op ≠ 0x8#4) (hA : op ≠ 0xA#4) (hB : op ≠ 0xB#4)
    (hD : op ≠ 0xD#4) : 0x20 + op.toNat ∉ opcodes := by
  revert op
  decide

theorem decodeApll_accepted : Accepted (decodeApll op idx imm) ↔ OperandsLegal (0x20 + op.toNat) idx imm := by
  unfold decodeApll
  split
  · next i hi =>
    obtain ⟨hknown, hidx, himm⟩ := apllPlain_some_opcode op (by rw [hi]; rfl)
    rw [accepted_if_error, operandsLegal_plain idx imm hknown hidx himm]
    exact and_iff_left (accepted_ok _)
  next hplain =>
  split
  · next hop =>
    subst hop
    refine (accepted_indexed idx imm .apllSdmprog).trans ?_
    rw [Nat.lt_succ_iff]
    exact (operandsLegal_sdmprog idx imm).symm
  split
  · next hop =>
    subst hop
    refine (accepted_indexed idx imm .apllFreqof).trans ?_
    rw [Nat.lt_succ_iff]
    exact (operandsLegal_rate idx imm (.inl rfl)).symm
  split
  · next hop =>
    subst hop
    refine (accepted_indexed idx imm .apllCheck).trans ?_
    rw [Nat.lt_succ_iff]
    exact (operandsLegal_rate idx imm (.inr rfl)).symm
  split
  · next hop =>
    subst hop
    rw [accepted_if_error, operandsLegal_idxOnly idx imm (by decide)]
    exact and_iff_left (accepted_ok _)
  · next h8 hA hB hD =>
    have hunknown := apllPlain_none_opcode op hplain h8 hA hB hD
    exact iff_of_false (not_accepted_error _) (not_operandsLegal_of_unknown idx imm hunknown)

theorem mbxMaskless_none_opcode {a : Agent} {i : MbxInst} {c : BitVec 5} (h : mbxMaskless op a i c = none)
    (h1 : op ≠ 1#4) (h2 : op ≠ 2#4) (h3 : op ≠ 3#4) : 0x30 + op.toNat ∉ opcodes := by
  have hmask : op ≠ 0#4 ∧ op ≠ 4#4 ∧ op ≠ 5#4 ∧ op ≠ 6#4 ∧ op ≠ 7#4 := by
    refine ⟨?_, ?_, ?_, ?_, ?_⟩ <;> rintro rfl <;> cases h
  clear h
  revert op
  decide

theorem decodeMbx_accepted (a : Agent) (i : MbxInst) (c : BitVec 5) :
    Accepted (decodeMbx op a i c imm) ↔ OperandsLegal (0x30 + op.toNat) c imm := by
  unfold decodeMbx
  split
  · next j hj =>
    have hidxOnly : 0x30 + op.toNat ∈ [0x2D, 0x30, 0x34, 0x35, 0x36, 0x37] := by
      rcases mbxMaskless_cases hj with ⟨rfl, _⟩ | ⟨rfl, _⟩ | ⟨rfl, _⟩ | ⟨rfl, _⟩ | ⟨rfl, _⟩ <;> decide
    rw [accepted_if_error, operandsLegal_idxOnly c imm hidxOnly]
    exact and_iff_left (accepted_ok _)
  next hmasked =>
  split
  · next hop => exact iff_of_true (accepted_ok _) (operandsLegal_mask c imm (by subst hop; decide))
  split
  · next hop => exact iff_of_true (accepted_ok _) (operandsLegal_mask c imm (by subst hop; decide))
  split
  · next hop => exact iff_of_true (accepted_ok _) (operandsLegal_mask c imm (by subst hop; decide))
  · next h1 h2 h3 =>
    have hunknown := mbxMaskless_none_opcode op hmasked h1 h2 h3
    exact iff_of_false (not_accepted_error _) (not_operandsLegal_of_unknown c imm hunknown)

theorem revOfByte_none_opcode {b : Byte} (h : revOfByte op b = none) (h0 : op ≠ 0#4) (h5 : op ≠ 5#4) :
    0x40 + op.toNat ∉ opcodes := by
  have hbyte : op ≠ 1#4 ∧ op ≠ 2#4 ∧ op ≠ 3#4 ∧ op ≠ 4#4 := by
    refine ⟨?_, ?_, ?_, ?_⟩ <;> rintro rfl <;> cases h
  clear h
  revert op
  decide

/-- No operation of family REV uses `idx` (R123). -/
theorem operandsLegal_rev_idx (h : OperandsLegal (0x40 + op.toNat) idx imm) : idx = 0#5 := by
  have hunused : 0x40 + op.toNat ∉ idxOpcodes := by
    clear h
    revert op
    decide
  exact by_contra fun hidx => hunused (h.2.1 hidx)

theorem decodeRev_accepted : Accepted (decodeRev op idx imm [] []) ↔ OperandsLegal (0x40 + op.toNat) idx imm := by
  unfold decodeRev
  rw [accepted_error_if, not_not]
  refine Iff.trans (and_congr_right fun hidx => ?_) (and_iff_right_of_imp (operandsLegal_rev_idx idx imm op))
  split
  · next j hj =>
    have hbyte : 0x40 + op.toNat ∈ [0x41, 0x42, 0x43, 0x44] := by
      rcases revOfByte_cases hj with ⟨rfl, _⟩ | ⟨rfl, _⟩ | ⟨rfl, _⟩ | ⟨rfl, _⟩ <;> decide
    rw [accepted_if_error, operandsLegal_byte idx imm hbyte, highByte_eq_zero_iff, and_iff_right hidx]
    exact and_iff_left (accepted_ok _)
  next hplain =>
  split
  · next hop =>
    subst hop
    rw [accepted_if_error, operandsLegal_plain idx imm (by decide) (by decide) (by decide), and_iff_right hidx]
    exact and_iff_left (accepted_ok _)
  split
  · next hop =>
    subst hop
    rw [accepted_if_error, operandsLegal_plain idx imm (by decide) (by decide) (by decide), and_iff_right hidx]
    exact and_iff_left (accepted_ok _)
  · next h0 h5 =>
    have hunknown := revOfByte_none_opcode op hplain h0 h5
    exact iff_of_false (not_accepted_error _) (not_operandsLegal_of_unknown idx imm hunknown)

/-- Among the families of HCPU alone, what is accepted is what R129 leaves of their opcodes. -/
theorem hcpuDecodes_iff (fam : BitVec 4) :
    (∃ j, HcpuDecodes fam op idx imm [] [] j) ↔
      fam ≠ 3#4 ∧ OperandsLegal (16 * fam.toNat + op.toNat) idx imm := by
  constructor
  · rintro ⟨j, ⟨rfl, h⟩ | ⟨rfl, h⟩ | ⟨rfl, h⟩⟩
    · exact ⟨by decide, (decodeClk_accepted idx imm op).1 ⟨j, h⟩⟩
    · exact ⟨by decide, (decodeApll_accepted idx imm op).1 ⟨j, h⟩⟩
    · exact ⟨by decide, (decodeRev_accepted idx imm op).1 ⟨j, h⟩⟩
  · rintro ⟨hfam, hlegal⟩
    rcases family_of_known fam op hlegal.1 with rfl | rfl | rfl | rfl
    · obtain ⟨j, h⟩ := (decodeClk_accepted idx imm op).2 hlegal
      exact ⟨j, .inl ⟨rfl, h⟩⟩
    · obtain ⟨j, h⟩ := (decodeApll_accepted idx imm op).2 hlegal
      exact ⟨j, .inr (.inl ⟨rfl, h⟩)⟩
    · exact absurd rfl hfam
    · obtain ⟨j, h⟩ := (decodeRev_accepted idx imm op).2 hlegal
      exact ⟨j, .inr (.inr ⟨rfl, h⟩)⟩

end

/-! ### The obligation -/

theorem agent_ofCode_eq_none_iff (b : BitVec 2) : Agent.ofCode b = none ↔ b = 0#2 := by
  revert b
  decide

theorem agent_ofCode_hcpu_iff (b : BitVec 2) : Agent.ofCode b = some .hcpu ↔ b = 1#2 := by
  revert b
  decide

/-- What the decoder accepts with no byte list beside it is what R129 leaves. -/
theorem decodeOpd_accepted (w : Word) : Accepted (decodeOpd w [] []) ↔ ¬ IllegalDescriptor w := by
  rw [not_illegalDescriptor_iff, opcodeOf_eq]
  have hempty : ListsFit (opdFam w) (opdOp w) [] [] := .inl ⟨rfl, rfl⟩
  constructor
  · rintro ⟨j, hj⟩
    obtain ⟨a, hagent, _, hfamily⟩ := (decodeOpd_ok_iff w [] [] j).1 hj
    have hsome : opdAgent w ≠ 0#2 := fun h0 => by
      rw [(agent_ofCode_eq_none_iff _).2 h0] at hagent
      cases hagent
    rcases hfamily with ⟨hfam, hmbx⟩ | ⟨rfl, hinst, hhcpu⟩
    · have hlegal := (decodeMbx_accepted _ _ _ _ _).1 ⟨j, hmbx⟩
      exact ⟨hsome, fun _ => hfam, fun _ => hfam, by rw [hfam]; exact hlegal⟩
    · obtain ⟨_, hlegal⟩ := (hcpuDecodes_iff _ _ _ _).1 ⟨j, hhcpu⟩
      exact ⟨hsome, fun h1 => absurd ((agent_ofCode_hcpu_iff _).1 hagent) h1, fun h0 => absurd hinst h0, hlegal⟩
  · rintro ⟨hsome, hhcpu, hinst, hlegal⟩
    by_cases hfam : opdFam w = 3#4
    · cases hagent : Agent.ofCode (opdAgent w) with
      | none => exact absurd ((agent_ofCode_eq_none_iff _).1 hagent) hsome
      | some a =>
        rw [hfam] at hlegal
        obtain ⟨j, hj⟩ := (decodeMbx_accepted _ _ a (MbxInst.ofBit (opdInst w)) _).2 hlegal
        exact ⟨j, (decodeOpd_ok_iff w [] [] j).2 ⟨a, hagent, hempty, .inl ⟨hfam, hj⟩⟩⟩
    · have hagent := (agent_ofCode_hcpu_iff _).2 (not_not.1 (mt hhcpu hfam))
      obtain ⟨j, hj⟩ := (hcpuDecodes_iff _ _ _ _).2 ⟨hfam, hlegal⟩
      exact ⟨j, (decodeOpd_ok_iff w [] [] j).2 ⟨.hcpu, hagent, hempty, .inr ⟨rfl, not_not.1 (mt hinst hfam), hj⟩⟩⟩

/-- Settles O3: the decoder refuses what it does not accept. -/
theorem illegalDescriptorsAreRefused : Obligations.IllegalDescriptorsAreRefused := by
  intro w
  rw [← not_iff_not, ← decodeOpd_accepted]
  cases decodeOpd w [] [] with
  | error e => exact iff_of_false (fun h => h ⟨e, rfl⟩) (not_accepted_error e)
  | ok j => exact iff_of_true (fun ⟨e, h⟩ => by cases h) (accepted_ok j)

end Sys2Proof
end

section
/-! PROOFS. The opcode table's words: what they decode to, and that a word placed is what runs next (R20, R121, R122). -/

namespace Sys2Proof

/-- The encoding of every operation names the bus master that issues it (R121, R122). -/
theorem encode_master (j : Instr) : (encode j).master = some j.agent := by
  cases j with
  | clkFreqHxt48 | clkFreqHrc48 | clkFreqClkDll1 | clkFreqClkDll2 | clkFreqClkSys | clkFreqClkPeri | clkFreqClkPeriDiv2
  | clkFreqHclk | clkFreqPclk1 | clkFreqPclk2 | clkFreqClkUsb | clkFreqClkAudPll | clkCfg | clkDump
  | apllTake | apllBgon | apllAnaon | apllDigon | apllLfcfg | apllCalstart | apllCalstep | apllCalrefine | apllSdmprog
  | apllLockchk | apllFreqof | apllCheck | apllDrop | apllMeas
  | revRdid | revClass | revValid | revLetter | revPtype => exact encodeHcpu_master _ _ _ _
  | mbxRdier | mbxWrier | mbxTrig | mbxClr | mbxRaw | mbxPend | mbxLock | mbxUnlock => exact encodeMbx_master _ _ _ _ _
  | revInstall record code => exact encodeInstall_master record code
  | busRdier | busWrier | busTrig | busClr | busRaw | busPend | busLock | busUnlock | busRdItr | busRdIcr | busWrIsr
  | busWrMisr => rfl

/-- The master of a descriptor's operation is the one its `agent` field names (R121). -/
theorem decodeOpd_agent (w : Word) (record code : List Byte) (j : Instr) (h : decodeOpd w record code = .ok j) :
    Agent.ofCode (opdAgent w) = some j.agent := by
  obtain ⟨_, henc⟩ := legalDescriptorIsItsEncoding w record code j h
  have hmaster := encode_master j
  rwa [henc] at hmaster

/-- Settles O4: the words are closed, so decoding them is evaluation. -/
theorem specWordsDecode : Obligations.SpecWordsDecode := by
  unfold Obligations.SpecWordsDecode
  decide

end Sys2Proof

namespace Sys2Proof.Machine

theorem ok_of_toOption_eq_some {x : Except DecodeError Instr} {j : Instr} (h : x.toOption = some j) : x = .ok j := by
  cases x with
  | error e => cases h
  | ok i =>
    injection h with h
    rw [h]

/-- A row's bits are a bus value of HCPU or a descriptor of the master its `agent` field names. -/
theorem decodeTableWord_cases {nbits w : Nat} {j : Instr} (h : decodeTableWord nbits w = some j) :
    (nbits ≤ 8 ∧ decodeBus .hcpu (tableBusTx w) = .ok j) ∨ (¬ nbits ≤ 8 ∧ decodeOpd (BitVec.ofNat 32 w) [] [] = .ok j) := by
  unfold decodeTableWord at h
  split at h
  · next hbus =>
    split at h
    · exact .inl ⟨hbus, ok_of_toOption_eq_some h⟩
    · cases h
  next hopd =>
  split at h
  · split at h
    · exact .inr ⟨hopd, ok_of_toOption_eq_some h⟩
    · cases h
  · cases h

theorem fetchAgent_of_decodeTableWord {nbits w : Nat} {j : Instr} (h : decodeTableWord nbits w = some j) :
    fetchAgent nbits w = j.agent := by
  rcases decodeTableWord_cases h with ⟨hn, hd⟩ | ⟨hn, hd⟩
  · rw [decodeBus_agent _ _ _ hd, fetchAgent, if_pos hn]
  · rw [fetchAgent, if_neg hn, decodeOpd_agent _ _ _ _ hd, Option.getD_some]

theorem runItem_fetchItem {nbits w : Nat} {j : Instr} (h : decodeTableWord nbits w = some j) (s : State) :
    runItem j.agent (fetchItem nbits w) s = exec j s := by
  rcases decodeTableWord_cases h with ⟨hn, hd⟩ | ⟨hn, hd⟩
  · rw [fetchItem, if_pos hn, decodeBus_agent _ _ _ hd]
    exact runItem_bus .hcpu _ j s hd
  · rw [fetchItem, if_neg hn]
    exact runItem_opd j.agent _ [] [] j s hd rfl

/-- A scheduled item is what the next step runs, and the schedule and the program are back where they were (R20). -/
theorem step_scheduleItem (s : State) (a : Agent) (it : Item) :
    step (s.scheduleItem a it) = runItem a it { s.setAgent a { s.agent a with stopped := none } with
      lcpuRun := s.lcpuRun || decide (a = .lcpu) } := by
  rw [step_of_turns _ (.agent a) s.turns rfl, takeTurn, agentTurn_runs a _ it (s.agent a).prog]
  · cases a <;> rfl
  · cases a <;> rfl
  · rintro rfl
    exact Bool.or_true _
  · cases a <;> rfl

/-- Settles O8: the word is scheduled as the item it decodes from, and that item runs the operation it decodes to. -/
theorem placedWordRunsNext : Obligations.PlacedWordRunsNext := by
  intro s nbits w j h
  rw [State.withFetchWord, fetchAgent_of_decodeTableWord h, step_scheduleItem, runItem_fetchItem h]

end Sys2Proof.Machine
end

section
/-! PROOFS. The 256-bit value and its fields (R131). -/

namespace Sys2Proof.Machine

/-- Bit `n` of the 256-bit value is bit `n mod 32` of word `n / 32`, the first word the least significant (R131). -/
theorem value256_testBit (ws : List Word) (n : Nat) :
    (value256 ws).testBit n = (ws.getD (n / 32) 0#32).getLsbD (n % 32) := by
  induction ws generalizing n with
  | nil => simp [value256]
  | cons w ws ih =>
    rw [value256, Nat.add_comm, Nat.testBit_two_pow_mul_add _ w.isLt]
    split
    · next hlow =>
      rw [Nat.div_eq_of_lt hlow, Nat.mod_eq_of_lt hlow]
      rfl
    · next hhigh =>
      have hword : n / 32 = (n - 32) / 32 + 1 := by omega
      have hbit : n % 32 = (n - 32) % 32 := by omega
      rw [ih, hword, hbit, List.getD_cons_succ]

/-- Settles O59: dividing drops the bits below the field and the remainder those above it. -/
theorem fieldExtraction : Obligations.FieldExtraction := by
  intro ws start width _
  refine ⟨fun hpos hle hend => ⟨_, if_pos ⟨hpos, hle, hend⟩, Nat.mod_lt _ (Nat.two_pow_pos width), fun k hk => ?_⟩,
    fun hbad => if_neg (by omega)⟩
  rw [Nat.testBit_mod_two_pow, Nat.testBit_div_two_pow, value256_testBit, Nat.add_comm k start]
  simp [hk]

end Sys2Proof.Machine
end

section
/-! PROOFS. The bus forms of the mailbox registers and the lock result (R120, R127, R128, R135). -/

namespace Sys2Proof.Machine

/-! ### Bus reads and writes -/

/-- What a read of the exclusive register leaves in its channel: the claim where the mutex was free (R247). -/
theorem regRead_exr_channel (a : Agent) (i : MbxInst) (c : Nat) (s : State) (hc : c < 16) :
    ∃ v t, regRead a i c .exr s = some (v, t) ∧
      t.channel i c = if (s.channel i c).ex then (s.channel i c).claim a else s.channel i c := by
  refine ⟨_, _, rfl, ?_⟩
  split
  · exact setChannel_channel_same _ _ _ _ hc
  · rfl

/-- Settles O17: on an existing channel a bus read is the register read, as the operation's is. -/
theorem busReadsComplete : Obligations.BusReadsComplete := by
  intro a i c s hc
  obtain ⟨v, t, hread, hchannel⟩ := regRead_exr_channel a i c.toNat s (Nat.lt_of_lt_of_le hc (nch_le_16 i))
  have hbus : exec (.busLock a i c) s = .next (t.withResult a (.word v)) :=
    busRead_some a i c.toNat .exr s hc v t hread
  have hmbx : exec (.mbxLock a i c) s = .next (t.withResult a (.word v)) :=
    mbxRead_some a i c.toNat .exr s hc v t hread
  exact ⟨busRead_some a i c.toNat .ier s hc _ _ rfl, busRead_some a i c.toNat .isr s hc _ _ rfl,
    busRead_some a i c.toNat .misr s hc _ _ rfl, hbus.trans hmbx.symm, _, hbus, (withResult_channel ..).trans hchannel⟩

theorem regWrite_exr_unlock (i : MbxInst) (c : Nat) (w : Word) (s : State) (h : w.getLsbD 0 = true) :
    regWrite i c .exr w s = some (s.setChannel i c (s.channel i c).release) := if_pos h

theorem regWrite_exr_reserved (i : MbxInst) (c : Nat) (w : Word) (s : State) (h : w.getLsbD 0 = false) :
    regWrite i c .exr w s = none := if_neg (by rw [exBit_eq, h]; decide)

/-- Settles O18: on an existing channel a bus write is the register write of the whole datum. -/
theorem busWritesComplete : Obligations.BusWritesComplete := by
  intro a i c w s hc
  exact ⟨busWrite_some a i c.toNat .ier w s hc _ rfl, busWrite_some a i c.toNat .itr w s hc _ rfl,
    busWrite_some a i c.toNat .icr w s hc _ rfl,
    fun h => busWrite_some a i c.toNat .exr w s hc _ (regWrite_exr_unlock i c.toNat w s h)⟩

/-- Settles O19: no register read or write answers a reserved access, and none is made past the last channel. -/
theorem reservedAccessesAreRefused : Obligations.ReservedAccessesAreRefused := by
  constructor
  · intro a i c w s hc
    exact ⟨busRead_none a i c.toNat .itr s hc rfl, busRead_none a i c.toNat .icr s hc rfl,
      busWrite_none a i c.toNat .isr w s hc rfl, busWrite_none a i c.toNat .misr w s hc rfl,
      fun h => busWrite_none a i c.toNat .exr w s hc (regWrite_exr_reserved i c.toNat w s h)⟩
  · intro a i c w s hc
    have hread := fun k => busRead_noRegister a i c.toNat k s hc
    have hwrite := fun k => busWrite_noRegister a i c.toNat k w s hc
    simp [exec, execBusRdier, execBusWrier, execBusTrig, execBusClr, execBusRaw, execBusPend, execBusLock, execBusUnlock,
      execBusRdItr, execBusRdIcr, execBusWrIsr, execBusWrMisr, hread, hwrite]

/-! ### The lock result -/

/-- Settles O26: `EX` decides first; of the owner codes each names its master, and 0 is no master's. -/
theorem lockResultDecode : Obligations.LockResultDecode := by
  intro v
  have hheld : v.getLsbD 0 = false → ∀ n : BitVec 2, v.extractLsb' 1 2 = n → lockCoreOf v = lockOwner n := by
    rintro h n rfl
    rw [lockCoreOf, exBit_eq, h]
    rfl
  exact ⟨fun h => if_pos h, fun h => hheld h 1#2, fun h => hheld h 2#2, fun h => hheld h 3#2, fun h => hheld h 0#2⟩

end Sys2Proof.Machine
end

section
/-! PROOFS. The range check of a pseudo-operation and its expansion (R134, R249, R253, R335). -/

namespace Sys2Proof.Machine

theorem runItem_pseudo_inRange (a : Agent) (p : Pseudo) (s : State) (h : pseudoInRange p = true) :
    runItem a (.pseudo p) s = startPseudo a p s := if_pos h

/-- Out of range a pseudo-operation only stops its master (R331, R335). -/
theorem runItem_pseudo_outOfRange (a : Agent) (p : Pseudo) (s : State) (h : pseudoInRange p = false) :
    runItem a (.pseudo p) s = .next (s.setAgent a { s.agent a with stopped := some .indexOutOfRange }) :=
  if_neg (by rw [h]; decide)

/-- The range check of a single-bit form (R253). -/
theorem bitInRange_iff (i : MbxInst) (c b : Nat) :
    (chanOk i c && decide (b < Config.nbit)) = true ↔ c < Config.nch i ∧ b ≤ 15 := by
  rw [Bool.and_eq_true, chanOk_iff, decide_eq_true_iff, Config.nbit, Nat.lt_succ_iff]

/-- An existing channel's number comes back from the five bits of its operand. -/
theorem toNat_ofNat_channel (i : MbxInst) (c : Nat) (h : c < Config.nch i) : (BitVec.ofNat 5 c).toNat = c := by
  have := nch_le_16 i
  rw [BitVec.toNat_ofNat]
  omega

/-- What follows an operation that handed a word to a master that runs. -/
theorem andThen_word (a : Agent) (s : State) (v : Word) (k : State → State) (h : (s.agent a).stopped = none) :
    andThen a (.next (s.withResult a (.word v))) k = .next (k (s.withResult a (.word v))) := by
  simp [andThen, State.failed, h]

theorem exec_mbxPend (a : Agent) (i : MbxInst) (c : BitVec 5) (s : State) :
    exec (.mbxPend a i c) s = mbxRead a i c.toNat .misr s := rfl

theorem exec_revRdid (s : State) : exec .revRdid s = .next (s.withResult .hcpu (.word s.chipId)) := rfl

/-- `MBX.ISPEND` hands back bit `b` of the masked status (R254). -/
theorem startPseudo_ispend (a : Agent) (i : MbxInst) (c b : Nat) (s : State) (hc : c < Config.nch i) (hb : b ≤ 15)
    (h : (s.agent a).stopped = none) :
    startPseudo a (.ispend i c b) s =
      .next (s.withResult a (.bit (((s.channel i c).isr &&& (s.channel i c).ier).getLsbD b))) := by
  have hpend : exec (.mbxPend a i (BitVec.ofNat 5 c)) s =
      .next (s.withResult a (.word (zext32 (s.channel i c).misr))) := by
    rw [exec_mbxPend, toNat_ofNat_channel i c hc]
    exact mbxRead_some a i c .misr s hc _ _ rfl
  have hbit : (zext32 (s.channel i c).misr).getLsbD b = (s.channel i c).misr.getLsbD b := by
    rw [zext32, BitVec.getLsbD_setWidth, decide_eq_true (by omega), Bool.true_and]
  rw [startPseudo, hpend, andThen_word a s _ _ h, withResult_resultWord, withResult_withResult, hbit]
  rfl

/-- `REV.READ` reads `CHIPID` and leaves the classification of its revision byte (R134). -/
theorem startPseudo_read (s : State) (h : s.hcpu.stopped = none) :
    startPseudo .hcpu .read s = .next
      ((s.withResult .hcpu (.word s.chipId)).pushItem .hcpu (.ops [.revClass (s.chipId.extractLsb' 0 8)])) := by
  rw [startPseudo, if_pos rfl, exec_revRdid, andThen_word .hcpu s _ _ h, withResult_resultWord]
  rfl

/-- Settles O27: the range check decides between the stop and the expansion. -/
theorem pseudoRangeCheckComesFirst : Obligations.PseudoRangeCheckComesFirst := by
  refine ⟨fun a i c b m s => ⟨fun hout => ?_, fun hout => ?_, fun hc hb => ?_⟩, fun _ => rfl, fun _ _ => rfl,
    startPseudo_read⟩
  · have hrange : (chanOk i c && decide (b < Config.nbit)) = false := by
      rw [Bool.eq_false_iff, ne_eq, bitInRange_iff]
      omega
    exact ⟨runItem_pseudo_outOfRange a _ s hrange, runItem_pseudo_outOfRange a _ s hrange,
      runItem_pseudo_outOfRange a _ s hrange, runItem_pseudo_outOfRange a _ s hrange,
      runItem_pseudo_outOfRange a _ s hrange⟩
  · have hrange : chanOk i c = false := by
      rw [Bool.eq_false_iff, ne_eq, chanOk_iff]
      omega
    exact ⟨runItem_pseudo_outOfRange a _ s hrange, runItem_pseudo_outOfRange a _ s hrange,
      runItem_pseudo_outOfRange a _ s hrange, runItem_pseudo_outOfRange a _ s hrange⟩
  · have hbit := (bitInRange_iff i c b).2 ⟨hc, hb⟩
    have hchan := (chanOk_iff i c).2 hc
    refine ⟨runItem_pseudo_inRange a _ s hbit, runItem_pseudo_inRange a _ s hbit, ?_, ?_, fun hst => ?_⟩
    · rw [runItem_pseudo_inRange a (.enb i c b) s hbit, runItem_pseudo_inRange a (.en i c _) s hchan]
      rfl
    · rw [runItem_pseudo_inRange a (.disb i c b) s hbit, runItem_pseudo_inRange a (.dis i c _) s hchan]
      rfl
    · rw [runItem_pseudo_inRange a (.ispend i c b) s hbit]
      exact startPseudo_ispend a i c b s hc hb hst

end Sys2Proof.Machine
end

section
/-! PROOFS. The clock tree as a graph (R51, R153): the query of a node by its number, what a node makes of the answer of the
node it follows, and that the chain a node follows ends. -/

namespace Sys2Proof.Machine

/-! ### The query of a node -/

/-- The operation that queries a node (R124). -/
def clkFreqInstr : ClkNode → Instr
  | .hxt48 => .clkFreqHxt48
  | .hrc48 => .clkFreqHrc48
  | .clkDll1 => .clkFreqClkDll1
  | .clkDll2 => .clkFreqClkDll2
  | .clkSys => .clkFreqClkSys
  | .clkPeri => .clkFreqClkPeri
  | .clkPeriDiv2 => .clkFreqClkPeriDiv2
  | .hclk => .clkFreqHclk
  | .pclk1 => .clkFreqPclk1
  | .pclk2 => .clkFreqPclk2
  | .clkUsb => .clkFreqClkUsb
  | .clkAudPll => .clkFreqClkAudPll

/-- The twelve nodes in the order of their numbers (R124). -/
def clkNodes : List ClkNode :=
  [.hxt48, .hrc48, .clkDll1, .clkDll2, .clkSys, .clkPeri, .clkPeriDiv2, .hclk, .pclk1, .pclk2, .clkUsb, .clkAudPll]

theorem clkFreqTable_eq_map : clkFreqTable = clkNodes.map clkFreqInstr := rfl

theorem exec_clkFreqInstr (n : ClkNode) (s : State) : exec (clkFreqInstr n) s = answerFreq (freqOf n s) s := by
  cases n <;> rfl

theorem exec_clkFreqInstr_of_some {n : ClkNode} {s : State} {q : Option Frequency} (h : freqOf n s = some q) :
    exec (clkFreqInstr n) s = .next (s.withResult .hcpu (.freq q)) := by
  rw [exec_clkFreqInstr, h]
  rfl

theorem exec_clkFreqInstr_of_none {n : ClkNode} {s : State} (h : freqOf n s = none) :
    exec (clkFreqInstr n) s = .refused .zeroDivider := by
  rw [exec_clkFreqInstr, h]
  rfl

/-- A query that completes hands back the node's answer. -/
theorem freqOf_of_exec {n : ClkNode} {s t : State} {q : Option Frequency} (h : exec (clkFreqInstr n) s = .next t)
    (hq : t.hcpu.result = .freq q) : freqOf n s = some q := by
  cases hn : freqOf n s with
  | none =>
    rw [exec_clkFreqInstr_of_none hn] at h
    cases h
  | some p =>
    rw [exec_clkFreqInstr_of_some hn] at h
    cases h
    cases hq
    rfl

/-! ### Sources and multiplexers -/

theorem freqOf_leafNode (l : ClkLeaf) (s : State) : freqOf (leafNode l) s = some (freqLeaf s.clk l) := by
  cases l <;> rfl

theorem freqClkSys_eq_bind (r : ClkRegs) : freqClkSys r = (Config.muxSys r.selSys).bind (freqLeaf r) := by
  unfold freqClkSys
  cases Config.muxSys r.selSys <;> rfl

/-- `clk_usb` follows `clk_sys` or a source and answers what that one does (R165). -/
theorem clkUsb_cases (r : ClkRegs) :
    (upstream r .clkUsb = some .clkSys ∧ freqClkUsb r = freqClkSys r) ∨
      ∃ l, upstream r .clkUsb = some (leafNode l) ∧ freqClkUsb r = freqLeaf r l := by
  unfold upstream freqClkUsb
  cases Config.muxUsb r.selUsb with
  | clkSys => exact .inl ⟨rfl, rfl⟩
  | leaf l => exact .inr ⟨l, rfl, rfl⟩

theorem freqHclk_of_ne {r : ClkRegs} (h : r.hdiv ≠ 0#8) : freqHclk r = some ((freqClkSys r).map (· / r.hdiv.toNat)) :=
  if_neg h

theorem freqHclk_of_zero {r : ClkRegs} (h : r.hdiv = 0#8) : freqHclk r = none := if_pos h

/-! ### The edges selected now -/

/-- What a node makes of the answer of the node it follows (R161 to R169). -/
def alongEdge (r : ClkRegs) (n : ClkNode) (f : Option Frequency) : Option (Option Frequency) :=
  match n with
  | .clkPeriDiv2 => some (f.map (· / 2))
  | .hclk => if r.hdiv = 0#8 then none else some (f.map (· / r.hdiv.toNat))
  | .pclk1 => some (f.map (· >>> r.pdiv1.toNat))
  | .pclk2 => some (f.map (· >>> r.pdiv2.toNat))
  | .hxt48 | .hrc48 | .clkDll1 | .clkDll2 | .clkSys | .clkPeri | .clkUsb | .clkAudPll => some f

/-- A node that follows another answers what it makes of that one's answer, and is refused where that one is. -/
theorem freqOf_of_upstream {s : State} {n m : ClkNode} (h : upstream s.clk n = some m) :
    freqOf n s = (freqOf m s).bind (alongEdge s.clk n) := by
  cases n with
  | hxt48 | hrc48 | clkDll1 | clkDll2 | clkAudPll => cases h
  | clkSys =>
    obtain ⟨l, hl, rfl⟩ := Option.map_eq_some_iff.1 h
    rw [freqOf_leafNode, freqOf, freqClkSys_eq_bind, hl]
    rfl
  | clkPeri =>
    cases h
    rw [freqOf_leafNode]
    rfl
  | clkUsb =>
    rcases clkUsb_cases s.clk with ⟨hup, hf⟩ | ⟨l, hup, hf⟩ <;> cases h.symm.trans hup
    · exact congrArg some hf
    · rw [freqOf_leafNode]
      exact congrArg some hf
  | clkPeriDiv2 | hclk =>
    cases h
    rfl
  | pclk1 | pclk2 =>
    cases h
    exact Option.map_eq_bind

/-- An absent source makes a node absent; only `hclk` with a zero divider is refused instead (R152, R167, R171). -/
theorem alongEdge_absent (r : ClkRegs) (n : ClkNode) :
    alongEdge r n none = some none ∨ (alongEdge r n none = none ∧ r.hdiv = 0#8) := by
  cases n with
  | hclk =>
    by_cases hz : r.hdiv = 0#8
    · exact .inr ⟨if_pos hz, hz⟩
    · exact .inl (if_neg hz)
  | _ => exact .inl rfl

/-- A node that follows none is a source, the audio PLL, or `clk_sys` with a selector value that names no source. -/
theorem upstream_eq_none {r : ClkRegs} {n : ClkNode} (h : upstream r n = none) :
    (∃ l, n = leafNode l) ∨ n = .clkAudPll ∨ (n = .clkSys ∧ Config.muxSys r.selSys = none) := by
  cases n with
  | hxt48 => exact .inl ⟨.hxt48, rfl⟩
  | hrc48 => exact .inl ⟨.hrc48, rfl⟩
  | clkDll1 => exact .inl ⟨.dll1, rfl⟩
  | clkDll2 => exact .inl ⟨.dll2, rfl⟩
  | clkAudPll => exact .inr (.inl rfl)
  | clkSys => exact .inr (.inr ⟨rfl, Option.map_eq_none_iff.1 h⟩)
  | clkUsb => rcases clkUsb_cases r with ⟨hup, _⟩ | ⟨l, hup, _⟩ <;> cases h.symm.trans hup
  | clkPeri | clkPeriDiv2 | hclk | pclk1 | pclk2 => cases h

/-- How many edges a node can be from the end of its chain. -/
def clkHeight : ClkNode → Nat
  | .hxt48 | .hrc48 | .clkDll1 | .clkDll2 | .clkAudPll => 0
  | .clkSys | .clkPeri => 1
  | .clkPeriDiv2 | .hclk | .clkUsb => 2
  | .pclk1 | .pclk2 => 3

theorem clkHeight_leafNode (l : ClkLeaf) : clkHeight (leafNode l) = 0 := by cases l <;> rfl

theorem clkHeight_lt_four (n : ClkNode) : clkHeight n < 4 := by cases n <;> decide

/-- The chain of edges ends (R153). -/
theorem clkHeight_upstream_lt {r : ClkRegs} {n m : ClkNode} (h : upstream r n = some m) : clkHeight m < clkHeight n := by
  cases n with
  | hxt48 | hrc48 | clkDll1 | clkDll2 | clkAudPll => cases h
  | clkSys =>
    obtain ⟨l, _, rfl⟩ := Option.map_eq_some_iff.1 h
    rw [clkHeight_leafNode]
    decide
  | clkPeri =>
    cases h
    rw [clkHeight_leafNode]
    decide
  | clkUsb =>
    rcases clkUsb_cases r with ⟨hup, _⟩ | ⟨l, hup, _⟩ <;> cases h.symm.trans hup
    · decide
    · rw [clkHeight_leafNode]
      decide
  | clkPeriDiv2 | hclk | pclk1 | pclk2 =>
    cases h
    decide

theorem mem_pathFrom_succ {r : ClkRegs} {k : Nat} {n x : ClkNode} :
    x ∈ pathFrom r (k + 1) n ↔ x = n ∨ ∃ m, upstream r n = some m ∧ x ∈ pathFrom r k m := by
  cases h : upstream r n <;> simp [pathFrom, h]

theorem self_mem_pathFrom (r : ClkRegs) (k : Nat) (n : ClkNode) : n ∈ pathFrom r k n := by
  cases k with
  | zero => exact List.mem_singleton_self n
  | succ k => exact mem_pathFrom_succ.2 (.inl rfl)

end Sys2Proof.Machine
end

section
/-! PROOFS. The clock tree: bounds, absence, and the frequency of each node (R150 to R172). -/

namespace Sys2Proof.Machine

/-! ### Bounds -/

theorem gated_bounds {rdy : Bool} {f : Nat} (h : gated rdy 48000000 = some f) : 12000000 ≤ f ∧ f ≤ 384000000 := by
  cases rdy <;> cases h
  decide

/-- The slowest DLL is halved at stage 0, the fastest runs at stage 15 (R159). -/
theorem dllFreq_bounds {en d : Bool} {stg : BitVec 4} {f : Nat} (h : dllFreq en stg d = some f) :
    12000000 ≤ f ∧ f ≤ 384000000 := by
  have hstg := stg.isLt
  cases en <;> cases h
  cases d <;> simp [Config.fDllRef] <;> omega

theorem freqLeaf_bounds {r : ClkRegs} {l : ClkLeaf} {f : Nat} (h : freqLeaf r l = some f) :
    12000000 ≤ f ∧ f ≤ 384000000 := by
  cases l with
  | hxt48 | hrc48 => exact gated_bounds h
  | dll1 | dll2 => exact dllFreq_bounds h

theorem freqClkSys_bounds {r : ClkRegs} {f : Nat} (h : freqClkSys r = some f) : 12000000 ≤ f ∧ f ≤ 384000000 := by
  rw [freqClkSys_eq_bind] at h
  obtain ⟨l, _, hl⟩ := Option.bind_eq_some_iff.1 h
  exact freqLeaf_bounds hl

/-- 47058 is 12 MHz divided by 255 (R167). -/
theorem freqHclk_bounds {r : ClkRegs} {f : Nat} (h : freqHclk r = some (some f)) : 47058 ≤ f ∧ f ≤ 384000000 := by
  by_cases hz : r.hdiv = 0#8
  · rw [freqHclk_of_zero hz] at h
    cases h
  rw [freqHclk_of_ne hz, Option.some_inj] at h
  obtain ⟨g, hg, rfl⟩ := Option.map_eq_some_iff.1 h
  obtain ⟨hlow, hhigh⟩ := freqClkSys_bounds hg
  have hpos : 0 < r.hdiv.toNat := Nat.pos_of_ne_zero fun h0 => hz (BitVec.eq_of_toNat_eq h0)
  have hle : r.hdiv.toNat ≤ 255 := Nat.le_of_lt_succ r.hdiv.isLt
  constructor
  · calc 47058 = 12000000 / 255 := rfl
      _ ≤ g / 255 := Nat.div_le_div_right hlow
      _ ≤ g / r.hdiv.toNat := Nat.div_le_div_left hle hpos
  · exact (Nat.div_le_self _ _).trans hhigh

/-- 367 is 47058 shifted right by 7, the largest exponent (R168, R169). -/
theorem shiftRight_bounds {g : Nat} (k : BitVec 3) (h : 47058 ≤ g ∧ g ≤ 384000000) :
    367 ≤ g >>> k.toNat ∧ g >>> k.toNat ≤ 384000000 := by
  have hk : k.toNat ≤ 7 := Nat.le_of_lt_succ k.isLt
  rw [Nat.shiftRight_eq_div_pow]
  constructor
  · calc 367 = 47058 / 2 ^ 7 := rfl
      _ ≤ g / 2 ^ 7 := Nat.div_le_div_right h.1
      _ ≤ g / 2 ^ k.toNat := Nat.div_le_div_left (Nat.pow_le_pow_right (by decide) hk) (Nat.two_pow_pos _)
  · exact (Nat.div_le_self _ _).trans h.2

/-- `pclk1` and `pclk2`: the frequency of `hclk` shifted right (R168, R169). -/
theorem shiftedHclk_bounds {r : ClkRegs} (k : BitVec 3) {f : Nat}
    (h : (freqHclk r).map (Option.map (· >>> k.toNat)) = some (some f)) : 367 ≤ f ∧ f ≤ 384000000 := by
  obtain ⟨q, hq, hf⟩ := Option.map_eq_some_iff.1 h
  obtain ⟨g, rfl, rfl⟩ := Option.map_eq_some_iff.1 hf
  exact shiftRight_bounds k (freqHclk_bounds hq)

theorem freqOf_bounds {n : ClkNode} {s : State} {f : Nat} (hn : n ≠ .clkAudPll) (h : freqOf n s = some (some f)) :
    367 ≤ f ∧ f ≤ 384000000 := by
  have hfast : 12000000 ≤ f ∧ f ≤ 384000000 → 367 ≤ f ∧ f ≤ 384000000 := by omega
  cases n with
  | hxt48 => exact hfast (freqLeaf_bounds (l := .hxt48) (Option.some.inj h))
  | hrc48 => exact hfast (freqLeaf_bounds (l := .hrc48) (Option.some.inj h))
  | clkDll1 => exact hfast (freqLeaf_bounds (l := .dll1) (Option.some.inj h))
  | clkDll2 => exact hfast (freqLeaf_bounds (l := .dll2) (Option.some.inj h))
  | clkSys => exact hfast (freqClkSys_bounds (Option.some.inj h))
  | clkPeri => exact hfast (freqLeaf_bounds (Option.some.inj h))
  | clkPeriDiv2 =>
    obtain ⟨g, hg, rfl⟩ := Option.map_eq_some_iff.1 (Option.some.inj h)
    have := freqLeaf_bounds hg
    omega
  | hclk =>
    have := freqHclk_bounds h
    omega
  | pclk1 => exact shiftedHclk_bounds s.clk.pdiv1 h
  | pclk2 => exact shiftedHclk_bounds s.clk.pdiv2 h
  | clkUsb =>
    rcases clkUsb_cases s.clk with ⟨_, hf⟩ | ⟨l, _, hf⟩
    · exact hfast (freqClkSys_bounds (hf.symm.trans (Option.some.inj h)))
    · exact hfast (freqLeaf_bounds (hf.symm.trans (Option.some.inj h)))
  | clkAudPll => exact absurd rfl hn

/-- Settles O37: a query that completes hands back the node's own frequency, which is bounded. -/
theorem resolvedFrequencyBounds : Obligations.ResolvedFrequencyBounds := by
  intro j s t f hj hne hexec hresult
  rw [clkFreqTable_eq_map] at hj
  obtain ⟨n, _, rfl⟩ := List.mem_map.1 hj
  refine freqOf_bounds (fun hn => hne ?_) (freqOf_of_exec hexec hresult)
  rw [hn]
  rfl

/-! ### Absence -/

/-- An absent node on a path makes the node the path starts at absent or refused, edge by edge. -/
theorem absent_of_mem_pathFrom {s : State} {m : ClkNode} (hm : freqOf m s = some none) (k : Nat) (n : ClkNode)
    (h : m ∈ pathFrom s.clk k n) : freqOf n s = some none ∨ (freqOf n s = none ∧ s.clk.hdiv = 0#8) := by
  induction k generalizing n with
  | zero =>
    cases List.mem_singleton.1 h
    exact .inl hm
  | succ k ih =>
    rcases mem_pathFrom_succ.1 h with rfl | ⟨m', hup, hmem⟩
    · exact .inl hm
    · rw [freqOf_of_upstream hup]
      rcases ih m' hmem with habsent | ⟨hrefused, hz⟩
      · rw [habsent]
        exact alongEdge_absent s.clk n
      · rw [hrefused]
        exact .inr ⟨rfl, hz⟩

theorem freqLeaf_disableSource_same (l : ClkLeaf) (r : ClkRegs) : freqLeaf (disableSource l r) l = none := by
  cases l <;> rfl

theorem freqLeaf_disableSource_other {l l' : ClkLeaf} (h : l' ≠ l) (r : ClkRegs) :
    freqLeaf (disableSource l r) l' = freqLeaf r l' := by
  cases l <;> cases l' <;> first | contradiction | rfl

theorem upstream_disableSource (l : ClkLeaf) (r : ClkRegs) (n : ClkNode) :
    upstream (disableSource l r) n = upstream r n := by
  cases l <;> rfl

theorem alongEdge_disableSource (l : ClkLeaf) (r : ClkRegs) (n : ClkNode) :
    alongEdge (disableSource l r) n = alongEdge r n := by
  cases l <;> rfl

/-- Disabling a source changes no other node that follows none. -/
theorem freqOf_disableSource_of_root {s : State} {l : ClkLeaf} {n : ClkNode} (hup : upstream s.clk n = none)
    (hn : leafNode l ≠ n) : freqOf n { s with clk := disableSource l s.clk } = freqOf n s := by
  rcases upstream_eq_none hup with ⟨l', rfl⟩ | rfl | ⟨rfl, hmux⟩
  · have hl : l' ≠ l := fun e => hn (congrArg leafNode e.symm)
    rw [freqOf_leafNode, freqOf_leafNode, freqLeaf_disableSource_other hl]
  · rfl
  · have hsel : (disableSource l s.clk).selSys = s.clk.selSys := by cases l <;> rfl
    rw [freqOf, freqOf, freqClkSys_eq_bind, freqClkSys_eq_bind, hsel, hmux]
    rfl

/-- Disabling a source off a node's path changes nothing along that path, so not the node's answer. -/
theorem freqOf_disableSource_of_not_mem {s : State} {l : ClkLeaf} (k : Nat) (n : ClkNode) (hk : clkHeight n ≤ k)
    (h : leafNode l ∉ pathFrom s.clk k n) : freqOf n { s with clk := disableSource l s.clk } = freqOf n s := by
  induction k generalizing n with
  | zero =>
    cases hup : upstream s.clk n with
    | none => exact freqOf_disableSource_of_root hup (h <| List.mem_singleton.2 ·)
    | some m => exact absurd (clkHeight_upstream_lt hup) (by omega)
  | succ k ih =>
    rw [mem_pathFrom_succ, not_or] at h
    obtain ⟨hn, hrest⟩ := h
    cases hup : upstream s.clk n with
    | none => exact freqOf_disableSource_of_root hup hn
    | some m =>
      have hlower := clkHeight_upstream_lt hup
      have hup' := (upstream_disableSource l s.clk n).trans hup
      rw [freqOf_of_upstream hup, freqOf_of_upstream (s := { s with clk := disableSource l s.clk }) hup',
        ih m (by omega) fun hmem => hrest ⟨m, hup, hmem⟩, alongEdge_disableSource]

/-- Settles O38: along the edges an absence is passed on, and so is an answer a source does not reach. -/
theorem absencePropagates : Obligations.AbsencePropagates := by
  refine ⟨fun s n m hmem hm => absent_of_mem_pathFrom hm 4 n hmem, fun s l => ?_,
    fun s l n hmem => freqOf_disableSource_of_not_mem 4 n (clkHeight_lt_four n).le hmem⟩
  rw [freqOf_leafNode, freqLeaf_disableSource_same]

/-! ### The dump -/

theorem dumpRest_fst (ns : List ClkNode) (s : State) : (dumpRest ns s).1.map Prod.fst = ns := by
  induction ns generalizing s with
  | nil => rfl
  | cons n ns ih => rw [dumpRest, List.map_cons, ih]

/-- With no step of the environment in between, every query sees the state the first one saw (R107, R176). -/
theorem dumpRest_quiet (ns : List ClkNode) {s : State} (h : s.envGaps = []) :
    dumpRest ns s = (ns.map fun n => (n, dumpLine (freqOf n s)), s) := by
  induction ns with
  | nil => rfl
  | cons n ns ih => rw [dumpRest, envGap_eq_self s h, ih, List.map_cons]

theorem dump_quiet {s : State} (h : s.envGaps = []) :
    dump s = (clkNodes.map fun n => (n, dumpLine (freqOf n s)), s) := by
  rw [dump, dumpRest_quiet _ h]
  rfl

theorem dump_fst (s : State) : (dump s).1.map Prod.fst = clkNodes :=
  congrArg (ClkNode.hxt48 :: ·) (dumpRest_fst _ s)

theorem exec_clkDump (s : State) : exec .clkDump s = .next ((dump s).2.withResult .hcpu (.dump (dump s).1)) := rfl

/-- Settles O40: the report by the walk over the nodes, the frame by what the environment may change between them. -/
theorem dumpReportsEveryNode : Obligations.DumpReportsEveryNode := by
  refine ⟨fun s h => ?_, fun s => ?_, fun s p hp => ?_⟩
  · rw [exec_clkDump, dump_quiet h]
    rfl
  · have henv := dump_envOnly s
    exact ⟨_, _, exec_clkDump s, rfl, dump_fst s, henv.clk, henv.apll, henv.mbx1, henv.mbx2, henv.mem, henv.cache,
      henv.iphase, henv.lcpuRun, henv.sdmTrace, henv.lcpu, henv.bcpu⟩
  · have hzip : p ∈ clkNodes.map fun n => (clkFreqInstr n, n) := hp
    obtain ⟨n, _, rfl⟩ := List.mem_map.1 hzip
    exact exec_clkFreqInstr n s

/-! ### The frequency of each node -/

/-- Settles O34: each source answers from its own fields. -/
theorem sourceFrequencies : Obligations.SourceFrequencies := by
  refine ⟨by decide, by decide, by decide, by decide, fun n => by omega, fun s => ?_⟩
  exact ⟨exec_clkFreqInstr_of_some (n := .hxt48) rfl, exec_clkFreqInstr_of_some (n := .hrc48) rfl,
    exec_clkFreqInstr_of_some (n := .clkDll1) rfl, exec_clkFreqInstr_of_some (n := .clkDll2) rfl⟩

theorem freqClkSys_of_selSys {r : ClkRegs} {v : BitVec 2} (h : r.selSys = v) :
    freqClkSys r = (Config.muxSys v).bind (freqLeaf r) := by
  rw [freqClkSys_eq_bind, h]

theorem freqClkPeri_of_selPeri {r : ClkRegs} {v : BitVec 1} (h : r.selPeri = v) :
    freqClkPeri r = freqLeaf r (Config.muxPeri v) := by
  rw [freqClkPeri, h]

/-- Settles O35: the selector's value picks the node, and its answer is handed back. -/
theorem multiplexedClocks : Obligations.MultiplexedClocks := by
  intro s
  have hsys := fun (v : BitVec 2) (h : s.clk.selSys = v) =>
    exec_clkFreqInstr_of_some (n := .clkSys) (congrArg some (freqClkSys_of_selSys h))
  have hperi := fun (v : BitVec 1) (h : s.clk.selPeri = v) =>
    exec_clkFreqInstr_of_some (n := .clkPeri) (congrArg some (freqClkPeri_of_selPeri h))
  refine ⟨hsys 0#2, hsys 1#2, hsys 2#2, hsys 3#2, hperi 0#1, hperi 1#1, fun h => ?_, fun h => ?_, ?_,
    exec_clkFreqInstr_of_some (n := .clkAudPll) rfl⟩
  · exact exec_clkFreqInstr_of_some (n := .clkUsb) (by rw [freqOf, freqClkUsb, h]; rfl)
  · exact exec_clkFreqInstr_of_some (n := .clkUsb) (by rw [freqOf, freqClkUsb, h]; rfl)
  · refine exec_clkFreqInstr_of_some (n := .clkPeriDiv2) ?_
    rw [freqOf, freqClkPeriDiv2]
    cases freqClkPeri s.clk <;> rfl

/-- A shifted `hclk` is `clk_sys` divided twice, truncated each time (R167 to R169). -/
theorem shiftedHclk_of_ne {r : ClkRegs} (h : r.hdiv ≠ 0#8) (k : Nat) :
    (freqHclk r).map (Option.map (· >>> k)) = some ((freqClkSys r).map (· / r.hdiv.toNat / 2 ^ k)) := by
  rw [freqHclk_of_ne h, Option.map_some, Option.map_map]
  exact congrArg (fun g => some (Option.map g _)) (funext fun f => Nat.shiftRight_eq_div_pow _ k)

/-- Settles O36: a zero divider refuses all three, any other divides. -/
theorem dividedBuses : Obligations.DividedBuses := by
  intro s
  refine ⟨fun hne => ?_, fun hz => ?_⟩
  · refine ⟨exec_clkFreqInstr_of_some (n := .hclk) ((freqHclk_of_ne hne).trans ?_),
      exec_clkFreqInstr_of_some (n := .pclk1) ((shiftedHclk_of_ne hne _).trans ?_),
      exec_clkFreqInstr_of_some (n := .pclk2) ((shiftedHclk_of_ne hne _).trans ?_)⟩
    all_goals cases freqClkSys s.clk <;> rfl
  · have hhclk := freqHclk_of_zero hz
    exact ⟨exec_clkFreqInstr_of_none (n := .hclk) hhclk,
      exec_clkFreqInstr_of_none (n := .pclk1) (by rw [freqOf, freqPclk1, hhclk]; rfl),
      exec_clkFreqInstr_of_none (n := .pclk2) (by rw [freqOf, freqPclk2, hhclk]; rfl)⟩

/-! ### The field write -/

/-- What a clock field holds, as a number. -/
def clkFieldValue (f : ClkField) (r : ClkRegs) : Nat :=
  match f with
  | .dll1En => r.dll1En.toNat
  | .dll1Stg => r.dll1Stg.toNat
  | .dll1OutDiv2 => r.dll1OutDiv2.toNat
  | .dll2En => r.dll2En.toNat
  | .dll2Stg => r.dll2Stg.toNat
  | .dll2OutDiv2 => r.dll2OutDiv2.toNat
  | .selSys => r.selSys.toNat
  | .selPeri => r.selPeri.toNat
  | .selUsb => r.selUsb.toNat
  | .hdiv => r.hdiv.toNat
  | .pdiv1 => r.pdiv1.toNat
  | .pdiv2 => r.pdiv2.toNat

theorem toNat_lowestBit (v : BitVec 16) : (v.getLsbD 0).toNat = v.toNat % 2 ^ 1 :=
  (Nat.toNat_testBit v.toNat 0).trans (by rw [pow_zero, Nat.div_one, pow_one])

theorem clkFieldValue_setClkField_same (f : ClkField) (v : BitVec 16) (r : ClkRegs) :
    clkFieldValue f (setClkField f v r) = v.toNat % 2 ^ Config.fieldWidth f := by
  cases f with
  | dll1En | dll1OutDiv2 | dll2En | dll2OutDiv2 => exact toNat_lowestBit v
  | dll1Stg | dll2Stg | selSys | selPeri | selUsb | hdiv | pdiv1 | pdiv2 => exact BitVec.toNat_setWidth _ v

theorem clkFieldValue_setClkField_other {f g : ClkField} (h : g ≠ f) (v : BitVec 16) (r : ClkRegs) :
    clkFieldValue g (setClkField f v r) = clkFieldValue g r := by
  cases f <;> cases g <;> first | contradiction | rfl

theorem setClkField_ready (f : ClkField) (v : BitVec 16) (r : ClkRegs) :
    (setClkField f v r).hxt48Rdy = r.hxt48Rdy ∧ (setClkField f v r).hrc48Rdy = r.hrc48Rdy := by
  cases f <;> exact ⟨rfl, rfl⟩

theorem clkCfg_wf_iff (f : ClkField) (v : BitVec 16) :
    (Instr.clkCfg f v).wf = true ↔ v.toNat < 2 ^ Config.fieldWidth f := decide_eq_true_iff

/-- Settles O39: the named field takes the value modulo its width, which keeps a value that fits. -/
theorem clkCfgWritesOneField : Obligations.ClkCfgWritesOneField := by
  intro f v s
  obtain ⟨hhxt, hhrc⟩ := setClkField_ready f v s.clk
  have hsame := clkFieldValue_setClkField_same f v s.clk
  refine ⟨rfl, hhxt, hhrc, hsame, fun hwf => ?_, fun g hg => clkFieldValue_setClkField_other hg v s.clk⟩
  exact hsame.trans (Nat.mod_eq_of_lt ((clkCfg_wf_iff f v).1 hwf))

end Sys2Proof.Machine
end

section
/-! PROOFS. The audio-PLL operations that make no measurement: the bring-up steps, the divider programming, the lock check,
the sample-rate families and the teardown (R191, R192, R197 to R202, R204, R210 to R213, R215). -/

namespace Sys2Proof.Machine

/-! ### The requirement of an operation -/

theorem requiring_of {p : Bool} (h : p = true) (k : Out) : requiring p k = k := by rw [h]; rfl

theorem requiring_refuses {p : Bool} (h : p = false) (k : Out) : requiring p k = .refused .outOfState := by rw [h]; rfl

theorem execApllTake_free {s : State} (h : s.apll.taken = false) :
    execApllTake s = requiring (s.apll.st = .uninitialized)
      (answer .hcpu .done { s with apll := { s.apll with taken := true } }) := by
  rw [execApllTake, h]
  rfl

theorem execApllTake_taken {s : State} (h : s.apll.taken = true) :
    execApllTake s = raiseFatal .hcpu .doubleConstruct s := by
  rw [execApllTake, h]
  rfl

theorem execApllLockchk_none {s : State} (h : s.apll.freqSel = none) : execApllLockchk s = .refused .outOfState := by
  rw [execApllLockchk, h]

theorem execApllLockchk_some {s : State} {k : Fin 3} (h : s.apll.freqSel = some k) :
    execApllLockchk s = requiring (s.apll.st = .openLoopCalibrating)
      (answer .hcpu (.bit s.apll.lockDet)
        (completeBringUp k (if s.apll.lockDet then s else warn .pllNotLocked s))) := by
  rw [execApllLockchk, h]

theorem execApllCheck_none {s : State} (sr : Fin 11) (h : s.apll.freqSel = none) :
    execApllCheck sr s = .refused .outOfState := by
  rw [execApllCheck, h]

theorem execApllCheck_some {s : State} {k : Fin 3} (sr : Fin 11) (h : s.apll.freqSel = some k) :
    execApllCheck sr s = requiring (s.apll.st = .closedLoopLocked)
      (if rateFamily sr = k then answer .hcpu .done s else raiseFatal .hcpu .pllIncompatible s) := by
  rw [execApllCheck, h]

/-! ### The singleton flag and the bring-up steps -/

/-- Settles O41. -/
theorem takeIsCompareAndSwap : Obligations.TakeIsCompareAndSwap := by
  have first : ∀ s : State, s.apll.taken = false → s.apll.st = .uninitialized →
      exec .apllTake s = .next ({ s with apll := { s.apll with taken := true } }.withResult .hcpu .done) :=
    fun s hfree hst => (execApllTake_free hfree).trans (requiring_of (decide_eq_true hst) _)
  have second : ∀ s : State, s.apll.taken = true →
      exec .apllTake s = .next (s.setAgent .hcpu { s.hcpu with stopped := some .doubleConstruct }) :=
    fun s htaken => execApllTake_taken htaken
  exact ⟨first, second, _, _, first State.reset rfl rfl, second _ rfl, rfl⟩

/-- Settles O42. -/
theorem bringUpSteps : Obligations.BringUpSteps := by
  refine ⟨rfl, rfl, rfl, rfl, rfl, fun s hst htaken => ?_, fun s hst => ?_, fun s hst => ?_, fun s hst hlf => ?_,
    fun s hst hlf => ?_⟩
  · exact requiring_of (by simp [hst, htaken]) _
  · exact requiring_of (decide_eq_true hst) _
  · exact requiring_of (decide_eq_true hst) _
  · exact requiring_of (by simp [hst, hlf]) _
  · exact requiring_of (by simp [hst, hlf]) _

/-- The lock check is refused off its state, and without a chosen frequency (R191). -/
theorem execApllLockchk_refused {s : State} (h : s.apll.st ≠ .openLoopCalibrating ∨ s.apll.freqSel = none) :
    execApllLockchk s = .refused .outOfState := by
  cases hsel : s.apll.freqSel with
  | none => exact execApllLockchk_none hsel
  | some k =>
    have hst : s.apll.st ≠ .openLoopCalibrating := h.resolve_right (by simp [hsel])
    exact (execApllLockchk_some hsel).trans (requiring_refuses (decide_eq_false hst) _)

/-- The sample-rate check is refused unless the PLL runs (R191). -/
theorem execApllCheck_refused {s : State} (sr : Fin 11) (h : s.apll.st ≠ .closedLoopLocked) :
    execApllCheck sr s = .refused .outOfState := by
  cases hsel : s.apll.freqSel with
  | none => exact execApllCheck_none sr hsel
  | some k => exact (execApllCheck_some sr hsel).trans (requiring_refuses (decide_eq_false h) _)

theorem execApllDrop_refused {s : State} (h : s.apll.taken = false) : execApllDrop s = .refused .outOfState :=
  requiring_refuses h _

/-- Settles O43: each operation has one guard, which any failing requirement makes false. -/
theorem outOfOrderStepsAreRefused : Obligations.OutOfOrderStepsAreRefused := by
  intro s k sr code
  refine ⟨fun hfree hst => (execApllTake_free hfree).trans (requiring_refuses (decide_eq_false hst) _),
    fun h => requiring_refuses ?bgon _,
    fun hst => requiring_refuses (decide_eq_false hst) _,
    fun hst => requiring_refuses (decide_eq_false hst) _,
    fun h => requiring_refuses ?lfcfg _,
    fun h => requiring_refuses ?calstart _,
    fun hst => requiring_refuses (decide_eq_false hst) _,
    fun h => requiring_refuses ?calstep _,
    fun h => requiring_refuses ?calrefine _,
    fun h => requiring_refuses ?sdmprog _,
    execApllLockchk_refused,
    execApllCheck_refused sr,
    execApllDrop_refused⟩
  case bgon | lfcfg | calstart | calstep => rcases h with h | h <;> simp [h]
  case calrefine | sdmprog => rcases h with h | h | h <;> simp [h, Option.isSome_iff_ne_none]

/-! ### Programming, lock check, sample rates, teardown -/

/-- Settles O48. -/
theorem sdmProgramming : Obligations.SdmProgramming := fun _ _ hst hfin hsel =>
  requiring_of (by simp [hst, hfin, hsel]) _

/-- A missing lock sets the warning and changes nothing else (R211, R333). -/
theorem warn_pllNotLocked_unless (s : State) :
    (if s.apll.lockDet then s else warn .pllNotLocked s) =
      { s with apll := { s.apll with lockWarn := s.apll.lockWarn || !s.apll.lockDet } } := by
  cases hlock : s.apll.lockDet with
  | false => simp [warn, hlock]
  | true => simp

/-- The lock check while calibrating with a frequency chosen (R211, R212). -/
theorem exec_apllLockchk_locks {k : Fin 3} {s : State} (hst : s.apll.st = .openLoopCalibrating)
    (hsel : s.apll.freqSel = some k) :
    exec .apllLockchk s = .next
      ({ s with
          audPllCache := some (Config.apllHz k)
          apll := { s.apll with st := .closedLoopLocked, lockWarn := s.apll.lockWarn || !s.apll.lockDet }
        }.withResult .hcpu (.bit s.apll.lockDet)) := by
  show execApllLockchk s = _
  rw [execApllLockchk_some hsel, requiring_of (decide_eq_true hst), warn_pllNotLocked_unless]
  rfl

/-- Settles O49. -/
theorem lockCheckOnlyWarns : Obligations.LockCheckOnlyWarns := fun _ _ => exec_apllLockchk_locks

/-- The families of the eleven sample rates (R197). -/
theorem rateFamily_eq_table (sr : Fin 11) :
    rateFamily sr = ([0, 1, 0, 0, 1, 0, 0, 1, 0, 1, 0] : List (Fin 3)).getD sr.val 0 := by
  revert sr
  decide

/-- No sample rate is of the third family. -/
theorem rateFamily_ne_two (sr : Fin 11) : rateFamily sr ≠ 2 := by
  rw [rateFamily]
  split <;> decide

/-- Settles O50: the check compares the family of the rate with the configured one. -/
theorem sampleRateFamiliesAndCheck : Obligations.SampleRateFamiliesAndCheck := by
  refine ⟨fun sr s => ?_, fun sr k s hst hsel => ?_⟩
  · rw [← rateFamily_eq_table]
    rfl
  · have hcheck : exec (.apllCheck sr) s =
        if rateFamily sr = k then answer .hcpu .done s else raiseFatal .hcpu .pllIncompatible s :=
      (execApllCheck_some sr hsel).trans (requiring_of (decide_eq_true hst) _)
    rw [← rateFamily_eq_table]
    refine ⟨fun heq => hcheck.trans (if_pos heq), fun hne => hcheck.trans (if_neg hne), ?_⟩
    rintro rfl
    exact rateFamily_ne_two sr

/-- Settles O51: the teardown asks for the singleton flag alone, and clears it. -/
theorem teardownFromAnyState : Obligations.TeardownFromAnyState := fun s htaken =>
  ⟨_, rfl, (requiring_of htaken _ : execApllDrop s = _), execApllDrop_refused rfl⟩

end Sys2Proof.Machine
end

section
/-! PROOFS. What calibration measurements leave (R203, R216), and the three operations made of them: APLL.MEAS (R203),
APLL.CALSTEP (R205, R206) and APLL.CALREFINE (R208, R209). -/

namespace Sys2Proof.Machine

/-! ### The frame of a measurement -/

theorem CalibratingOnly.refl (s : State) : CalibratingOnly s s := by
  constructor <;> intros <;> rfl

theorem CalibratingOnly.trans {s t u : State} (h : CalibratingOnly s t) (g : CalibratingOnly t u) :
    CalibratingOnly s u where
  clk := by rw [g.clk, h.clk]
  cache := g.cache.trans h.cache
  channels i c := (g.channels i c).trans (h.channels i c)
  chipId := g.chipId.trans h.chipId
  bytes x := (g.bytes x).trans (h.bytes x)
  iphase := g.iphase.trans h.iphase
  lcpuRun := g.lcpuRun.trans h.lcpuRun
  trace := g.trace.trans h.trace
  hcpu := by rw [g.hcpu, h.hcpu]
  lcpu := g.lcpu.trans h.lcpu
  bcpu := g.bcpu.trans h.bcpu
  turns := g.turns.trans h.turns

theorem EnvOnly.calibratingOnly {s t : State} (h : EnvOnly s t) : CalibratingOnly s t where
  clk := h.clk
  cache := h.cache
  channels := h.channel
  chipId := h.chipId
  bytes x := by rw [h.mem]
  iphase := h.iphase
  lcpuRun := h.lcpuRun
  trace := h.sdmTrace
  hcpu := by rw [h.hcpu]
  lcpu := h.lcpu
  bcpu := h.bcpu
  turns := h.turns

/-- The audio-PLL registers and the result HCPU is handed are outside the frame. -/
theorem CalibratingOnly.setApll {s t : State} (h : CalibratingOnly s t) (r : ApllRegs) :
    CalibratingOnly s { t with apll := r } :=
  h.trans (by constructor <;> intros <;> rfl)

theorem CalibratingOnly.result {s t : State} (h : CalibratingOnly s t) (r : Result) :
    CalibratingOnly s (t.withResult .hcpu r) :=
  h.trans (by constructor <;> intros <;> rfl)

/-- What measurements that all got their counts leave: the frame, and of the audio-PLL registers the code applied, the flag
seen, the request withdrawn, and what the environment drives (R203). -/
structure Counted (s t : State) : Prop where
  frame : CalibratingOnly s t
  apll : t.apll = { s.apll with
    fcVco := t.apll.fcVco, calDone := true, calEn := false, calCnt := t.apll.calCnt, lockDet := t.apll.lockDet }

/-- What measurements the last of which let its wait expire leave: the same, but the request stands and the flag is clear
(R203, R216). -/
structure TimedOut (s t : State) : Prop where
  frame : CalibratingOnly s t
  apll : t.apll = { s.apll with
    fcVco := t.apll.fcVco, calDone := false, calEn := true, calCnt := t.apll.calCnt, lockDet := t.apll.lockDet }

theorem Counted.trans {s t u : State} (h : Counted s t) (g : Counted t u) : Counted s u where
  frame := h.frame.trans g.frame
  apll := by rw [g.apll, h.apll]

theorem Counted.timedOut {s t u : State} (h : Counted s t) (g : TimedOut t u) : TimedOut s u where
  frame := h.frame.trans g.frame
  apll := by rw [g.apll, h.apll]

theorem measure_counted {code : BitVec 5} {s t : State} {n : BitVec 16} (h : measure code s = .got n t) :
    Counted s t ∧ t.apll.fcVco = code ∧ t.apll.calCnt = n := by
  obtain ⟨hcode, hdone, hen, hcnt, henv⟩ := measure_got code s t n h
  refine ⟨⟨((CalibratingOnly.refl s).setApll _).trans henv.calibratingOnly, ?_⟩, hcode, hcnt⟩
  rw [hcode, ← hdone]
  exact henv.apll

theorem measure_timedOut {code : BitVec 5} {s t : State} (h : measure code s = .expired t) :
    TimedOut s t ∧ t.apll.fcVco = code := by
  obtain ⟨hcode, hdone, _, henv⟩ := measure_expired code s t h
  refine ⟨⟨((CalibratingOnly.refl s).setApll _).trans henv.calibratingOnly, ?_⟩, hcode⟩
  rw [hcode, ← hdone]
  exact henv.apll

/-- A neighbour's measurement after one that got its count; a neighbour that does not exist leaves the state as it is. -/
theorem Counted.neighbour_got {s t u : State} {p : Bool} {code : BitVec 5} {d : Option Nat} (h : Counted s t)
    (hm : measureNeighbour p code t = .got d u) : Counted s u := by
  rcases measureNeighbour_got p code t u d hm with ⟨_, _, rfl⟩ | ⟨_, n, _, hn⟩
  · exact h
  · exact h.trans (measure_counted hn).1

theorem Counted.neighbour_expired {s t u : State} {p : Bool} {code : BitVec 5} (h : Counted s t)
    (hm : measureNeighbour p code t = .expired u) : TimedOut s u :=
  h.timedOut (measure_timedOut (measureNeighbour_expired p code t u hm).2).1

/-! ### One measurement -/

theorem exec_apllMeas_got {code : BitVec 5} {s t : State} {n : BitVec 16} (hst : s.apll.st = .openLoopCalibrating)
    (hm : measure code s = .got n t) : exec (.apllMeas code) s = .next (t.withResult .hcpu (.count n)) := by
  show execApllMeas code s = _
  rw [execApllMeas, requiring_of (decide_eq_true hst), hm]
  rfl

theorem exec_apllMeas_expired {code : BitVec 5} {s t : State} (hst : s.apll.st = .openLoopCalibrating)
    (hm : measure code s = .expired t) :
    exec (.apllMeas code) s = .next (t.withResult .hcpu (.error .timeout)) := by
  show execApllMeas code s = _
  rw [execApllMeas, requiring_of (decide_eq_true hst), hm]
  rfl

/-- What APLL.MEAS does, whatever the environment does (R203, R216). -/
theorem exec_apllMeas_outcome (code : BitVec 5) {s : State} (hst : s.apll.st = .openLoopCalibrating) :
    ∃ t, exec (.apllMeas code) s = .next t ∧
      ((∃ n, t.hcpu.result = .count n ∧ t.apll = { s.apll with
          fcVco := code, calEn := false, calDone := true, calCnt := n, lockDet := t.apll.lockDet }) ∨
        (t.hcpu.result = .error .timeout ∧ t.apll = { s.apll with
          fcVco := code, calEn := true, calDone := false, calCnt := t.apll.calCnt, lockDet := t.apll.lockDet })) ∧
      CalibratingOnly s t := by
  cases hm : measure code s with
  | got n t =>
    obtain ⟨⟨hframe, hapll⟩, hcode, hcnt⟩ := measure_counted hm
    rw [hcode, hcnt] at hapll
    exact ⟨_, exec_apllMeas_got hst hm, .inl ⟨n, rfl, hapll⟩, hframe.result _⟩
  | expired t =>
    obtain ⟨⟨hframe, hapll⟩, hcode⟩ := measure_timedOut hm
    rw [hcode] at hapll
    exact ⟨_, exec_apllMeas_expired hst hm, .inr ⟨rfl, hapll⟩, hframe.result _⟩

/-- Settles O44. -/
theorem measurementCompletesOrTimesOut : Obligations.MeasurementCompletesOrTimesOut := fun code s hst =>
  ⟨exec_apllMeas_outcome code hst,
    fun n es henv => exec_apllMeas_got hst (measure_answered code s n es henv),
    fun es henv => exec_apllMeas_expired hst (measure_timeout code s es henv)⟩

/-! ### One iteration of the search -/

/-- The state a search step leaves when its measurement got the count `n` in state `t` (R205). -/
def movedOn (n : BitVec 16) (t : State) : State :=
  { t with apll := { t.apll with code := nextCode n t.apll.code t.apll.step, step := t.apll.step >>> 1 } }

section
variable {s t : State} (hst : s.apll.st = .openLoopCalibrating) (hstep : s.apll.step ≠ 0#4)
include hst hstep

theorem calstep_requirement : (s.apll.st = .openLoopCalibrating && s.apll.step != 0#4) = true := by
  simp [hst, hstep]

theorem exec_apllCalstep_got {n : BitVec 16} (hm : measure s.apll.code s = .got n t) :
    exec .apllCalstep s = .next ((movedOn n t).withResult .hcpu .done) := by
  show execApllCalstep s = _
  rw [execApllCalstep, requiring_of (calstep_requirement hst hstep), hm]
  rfl

theorem exec_apllCalstep_expired (hm : measure s.apll.code s = .expired t) :
    exec .apllCalstep s = .next (t.withResult .hcpu (.error .timeout)) := by
  show execApllCalstep s = _
  rw [execApllCalstep, requiring_of (calstep_requirement hst hstep), hm]
  rfl

/-- What APLL.CALSTEP does, whatever the environment does (R205, R216). -/
theorem exec_apllCalstep_outcome :
    ∃ t, exec .apllCalstep s = .next t ∧
      ((t.hcpu.result = .done ∧ t.apll = { s.apll with
          fcVco := s.apll.code, calDone := true, calEn := false, calCnt := t.apll.calCnt, lockDet := t.apll.lockDet,
          code := nextCode t.apll.calCnt s.apll.code s.apll.step, step := s.apll.step >>> 1 }) ∨
        (t.hcpu.result = .error .timeout ∧ t.apll = { s.apll with
          fcVco := s.apll.code, calDone := false, calEn := true, calCnt := t.apll.calCnt,
          lockDet := t.apll.lockDet })) ∧
      CalibratingOnly s t := by
  cases hm : measure s.apll.code s with
  | got n t =>
    obtain ⟨⟨hframe, hapll⟩, hcode, rfl⟩ := measure_counted hm
    rw [hcode] at hapll
    have hmoved : (movedOn t.apll.calCnt t).apll = { s.apll with
        fcVco := s.apll.code, calDone := true, calEn := false, calCnt := t.apll.calCnt, lockDet := t.apll.lockDet,
        code := nextCode t.apll.calCnt s.apll.code s.apll.step, step := s.apll.step >>> 1 } := by
      rw [movedOn, hapll]
    exact ⟨_, exec_apllCalstep_got hst hstep hm, .inl ⟨rfl, hmoved⟩, (hframe.setApll _).result _⟩
  | expired t =>
    obtain ⟨⟨hframe, hapll⟩, hcode⟩ := measure_timedOut hm
    rw [hcode] at hapll
    exact ⟨_, exec_apllCalstep_expired hst hstep hm, .inr ⟨rfl, hapll⟩, hframe.result _⟩

end

/-- Settles O45. -/
theorem searchStepMovesTowardTheTarget : Obligations.SearchStepMovesTowardTheTarget := fun s hst hstep =>
  ⟨fun n es henv => exec_apllCalstep_got hst hstep (measure_answered s.apll.code s n es henv),
    fun es henv => exec_apllCalstep_expired hst hstep (measure_timeout s.apll.code s es henv),
    exec_apllCalstep_outcome hst hstep⟩

/-! ### The refinement -/

/-- The two ways of writing the deviation from the target agree (R208). -/
theorem deviation_eq_devFromTarget (n : BitVec 16) : deviation n = devFromTarget n := by
  unfold deviation devFromTarget Config.calTarget
  omega

/-- The choice between the converged code and both neighbours (R208). -/
theorem refinedCode_both (c : BitVec 5) (dMid dLo dHi : Nat) :
    refinedCode c dMid (some dLo) (some dHi) =
      if dLo ≤ dMid ∧ dLo ≤ dHi then c - 1#5 else if dHi ≤ dMid then c + 1#5 else c := by
  have hlo : some dLo = some (min (min dMid dLo) dHi) ↔ dLo ≤ dMid ∧ dLo ≤ dHi := by
    rw [Option.some.injEq]
    omega
  by_cases h : dLo ≤ dMid ∧ dLo ≤ dHi
  · exact (if_pos (hlo.2 h)).trans (if_pos h).symm
  · have hhi : some dHi = some (min (min dMid dLo) dHi) ↔ dHi ≤ dMid := by
      rw [Option.some.injEq]
      omega
    refine (if_neg (mt hlo.1 h)).trans (Eq.trans ?_ (if_neg h).symm)
    exact if_congr hhi rfl rfl

/-- The choice at the highest code, which has no higher neighbour (R208, D17). -/
theorem refinedCode_lower (c : BitVec 5) (dMid dLo : Nat) :
    refinedCode c dMid (some dLo) none = if dLo ≤ dMid then c - 1#5 else c := by
  have hlo : some dLo = some (min dMid dLo) ↔ dLo ≤ dMid := by
    rw [Option.some.injEq]
    omega
  exact if_congr hlo rfl rfl

/-- The state a refinement leaves on the code `c` when its last measurement ended in state `t` (R208). -/
def refinedTo (c : BitVec 5) (t : State) : State :=
  { t with apll := { t.apll with code := c, fcVco := c, calFin := true } }

/-- The measurement of a neighbour that exists, its answer waiting. -/
theorem measureNeighbour_answered (code : BitVec 5) (s : State) (n : BitVec 16) (es : List EnvEvent)
    (h : s.env = .calCnt n :: .calDone :: es) :
    measureNeighbour true code s = .got (some (devFromTarget n))
      { s with env := es, apll := { s.apll with fcVco := code, calDone := true, calEn := false, calCnt := n } } := by
  rw [measureNeighbour, if_pos rfl, measure_answered code s n es h, ← deviation_eq_devFromTarget]

section
variable {s s1 s2 s3 : State} (hst : s.apll.st = .openLoopCalibrating) (hstep : s.apll.step = 0#4)
  (hfin : s.apll.calFin = false)
include hst hstep hfin

theorem calrefine_requirement :
    (s.apll.st = .openLoopCalibrating && s.apll.step == 0#4 && !s.apll.calFin) = true := by
  simp [hst, hstep, hfin]

theorem exec_apllCalrefine_expired (hmid : measure s.apll.code s = .expired s1) :
    exec .apllCalrefine s = .next (s1.withResult .hcpu (.error .timeout)) := by
  show execApllCalrefine s = _
  rw [execApllCalrefine, requiring_of (calrefine_requirement hst hstep hfin), hmid]
  rfl

theorem exec_apllCalrefine_lower_expired {n : BitVec 16} (hmid : measure s.apll.code s = .got n s1)
    (hlo : measureNeighbour (s.apll.code != 0#5) (s.apll.code - 1#5) s1 = .expired s2) :
    exec .apllCalrefine s = .next (s2.withResult .hcpu (.error .timeout)) := by
  show execApllCalrefine s = _
  rw [execApllCalrefine, requiring_of (calrefine_requirement hst hstep hfin), hmid]
  simp only [hlo]
  rfl

theorem exec_apllCalrefine_higher_expired {n : BitVec 16} {dLo : Option Nat}
    (hmid : measure s.apll.code s = .got n s1)
    (hlo : measureNeighbour (s.apll.code != 0#5) (s.apll.code - 1#5) s1 = .got dLo s2)
    (hhi : measureNeighbour (s.apll.code != 31#5) (s.apll.code + 1#5) s2 = .expired s3) :
    exec .apllCalrefine s = .next (s3.withResult .hcpu (.error .timeout)) := by
  show execApllCalrefine s = _
  rw [execApllCalrefine, requiring_of (calrefine_requirement hst hstep hfin), hmid]
  simp only [hlo, hhi]
  rfl

theorem exec_apllCalrefine_got {n : BitVec 16} {dLo dHi : Option Nat} (hmid : measure s.apll.code s = .got n s1)
    (hlo : measureNeighbour (s.apll.code != 0#5) (s.apll.code - 1#5) s1 = .got dLo s2)
    (hhi : measureNeighbour (s.apll.code != 31#5) (s.apll.code + 1#5) s2 = .got dHi s3) :
    exec .apllCalrefine s = .next
      ((refinedTo (refinedCode s.apll.code (devFromTarget n) dLo dHi) s3).withResult .hcpu .done) := by
  show execApllCalrefine s = _
  rw [execApllCalrefine, requiring_of (calrefine_requirement hst hstep hfin), hmid, ← deviation_eq_devFromTarget]
  simp only [hlo, hhi]
  rfl

/-- What APLL.CALREFINE does, whatever the environment does: each of its measurements gets its count or ends it (R208, R216). -/
theorem exec_apllCalrefine_cases :
    (∃ c t, exec .apllCalrefine s = .next ((refinedTo c t).withResult .hcpu .done) ∧ Counted s t) ∨
    ∃ t, exec .apllCalrefine s = .next (t.withResult .hcpu (.error .timeout)) ∧ TimedOut s t := by
  cases hmid : measure s.apll.code s with
  | expired s1 => exact .inr ⟨s1, exec_apllCalrefine_expired hst hstep hfin hmid, (measure_timedOut hmid).1⟩
  | got n s1 =>
    have h1 : Counted s s1 := (measure_counted hmid).1
    cases hlo : measureNeighbour (s.apll.code != 0#5) (s.apll.code - 1#5) s1 with
    | expired s2 =>
      exact .inr ⟨s2, exec_apllCalrefine_lower_expired hst hstep hfin hmid hlo, h1.neighbour_expired hlo⟩
    | got dLo s2 =>
      have h2 : Counted s s2 := h1.neighbour_got hlo
      cases hhi : measureNeighbour (s.apll.code != 31#5) (s.apll.code + 1#5) s2 with
      | expired s3 =>
        exact .inr ⟨s3, exec_apllCalrefine_higher_expired hst hstep hfin hmid hlo hhi, h2.neighbour_expired hhi⟩
      | got dHi s3 =>
        exact .inl ⟨_, s3, exec_apllCalrefine_got hst hstep hfin hmid hlo hhi, h2.neighbour_got hhi⟩

theorem exec_apllCalrefine_outcome :
    ∃ t, exec .apllCalrefine s = .next t ∧ CalibratingOnly s t ∧
      ((t.hcpu.result = .done ∧ t.apll = { s.apll with
          fcVco := t.apll.code, calDone := true, calEn := false, calCnt := t.apll.calCnt, lockDet := t.apll.lockDet,
          code := t.apll.code, calFin := true }) ∨
        (t.hcpu.result = .error .timeout ∧ t.apll = { s.apll with
          fcVco := t.apll.fcVco, calDone := false, calEn := true, calCnt := t.apll.calCnt,
          lockDet := t.apll.lockDet })) := by
  rcases exec_apllCalrefine_cases hst hstep hfin with ⟨c, t, hexec, hframe, hapll⟩ | ⟨t, hexec, hframe, hapll⟩
  · have hrefined : (refinedTo c t).apll = { s.apll with
        fcVco := c, calDone := true, calEn := false, calCnt := t.apll.calCnt, lockDet := t.apll.lockDet,
        code := c, calFin := true } := by
      rw [refinedTo, hapll]
    exact ⟨_, hexec, (hframe.setApll _).result _, .inl ⟨rfl, hrefined⟩⟩
  · exact ⟨_, hexec, hframe.result _, .inr ⟨rfl, hapll⟩⟩

/-- The refinement with both neighbours and the three counts waiting. -/
theorem exec_apllCalrefine_both (h0 : s.apll.code ≠ 0#5) (h31 : s.apll.code ≠ 31#5) (nMid nLo nHi : BitVec 16)
    (es : List EnvEvent) (henv : s.env = calAnswer nMid ++ calAnswer nLo ++ calAnswer nHi ++ es) :
    exec .apllCalrefine s = .next ((refinedTo
      (if devFromTarget nLo ≤ devFromTarget nMid ∧ devFromTarget nLo ≤ devFromTarget nHi then s.apll.code - 1#5
        else if devFromTarget nHi ≤ devFromTarget nMid then s.apll.code + 1#5 else s.apll.code)
      { s with env := es, apll := { s.apll with calDone := true, calEn := false, calCnt := nHi } }).withResult
        .hcpu .done) := by
  have hlo : (s.apll.code != 0#5) = true := bne_iff_ne.2 h0
  have hhi : (s.apll.code != 31#5) = true := bne_iff_ne.2 h31
  rw [exec_apllCalrefine_got hst hstep hfin (measure_answered s.apll.code s nMid _ henv)
      (by rw [hlo]; exact measureNeighbour_answered _ _ nLo _ rfl)
      (by rw [hhi]; exact measureNeighbour_answered _ _ nHi _ rfl), refinedCode_both]
  rfl

/-- The refinement from the highest code with its two counts waiting. -/
theorem exec_apllCalrefine_highest (h31 : s.apll.code = 31#5) (nMid nLo : BitVec 16) (es : List EnvEvent)
    (henv : s.env = calAnswer nMid ++ calAnswer nLo ++ es) :
    exec .apllCalrefine s = .next ((refinedTo (if devFromTarget nLo ≤ devFromTarget nMid then 30#5 else 31#5)
      { s with env := es, apll := { s.apll with calDone := true, calEn := false, calCnt := nLo } }).withResult
        .hcpu .done) := by
  have hlo : (s.apll.code != 0#5) = true := by rw [h31]; rfl
  have hhi : (s.apll.code != 31#5) = false := by rw [h31]; rfl
  rw [exec_apllCalrefine_got hst hstep hfin (measure_answered s.apll.code s nMid _ henv)
      (by rw [hlo]; exact measureNeighbour_answered _ _ nLo _ rfl) (by rw [hhi]; rfl), refinedCode_lower, h31]
  rfl

end

/-- Settles O46. -/
theorem refinementPicksTheNearestCode : Obligations.RefinementPicksTheNearestCode := by
  intro s hst hstep hfin
  refine ⟨fun h1 h30 nMid nLo nHi es henv => ?_, exec_apllCalrefine_highest hst hstep hfin, fun es henv => ?_,
    exec_apllCalrefine_outcome hst hstep hfin⟩
  · exact exec_apllCalrefine_both hst hstep hfin (by bv_omega) (by bv_omega) nMid nLo nHi es henv
  · exact exec_apllCalrefine_expired hst hstep hfin (measure_timeout s.apll.code s es henv)

/-- Settles O47: the choice is the least of the deviations measured, which here are the deviations of the codes. -/
theorem refinementIsNoWorse : Obligations.RefinementIsNoWorse := by
  intro g s es hst hstep hfin
  obtain ⟨hboth, hhighest, _, _⟩ := refinementPicksTheNearestCode s hst hstep hfin
  refine ⟨fun h1 h30 henv => ⟨_, hboth h1 h30 _ _ _ es henv, rfl, ?_⟩,
    fun h31 henv => ⟨_, hhighest h31 _ _ es henv, rfl, ?_⟩⟩
  · simp only [withResult_apll]
    split
    · omega
    · split <;> omega
  · simp only [withResult_apll]
    split <;> omega

end Sys2Proof.Machine
end

section
/-! PROOFS. The audio-PLL invariant (R46, R58, R60, R191, R207): no step breaks the agreement of the enables with the chain,
the range of the search, or the cached frequency. -/

namespace Sys2Proof.Machine

/-! ### What the invariant does not speak of -/

/-- The search and what it measures are outside the chain. -/
theorem ChainOk.searched {r : ApllRegs} (h : ChainOk r) (fc : BitVec 5) (en done : Bool) (n : BitVec 16) (lock : Bool)
    (c : BitVec 5) (d : BitVec 4) :
    ChainOk { r with fcVco := fc, calEn := en, calDone := done, calCnt := n, lockDet := lock, code := c, step := d } :=
  ⟨h.bg, h.ana, h.dig, h.taken, h.lfOn, h.lfOff, h.fin, h.sel, h.run, h.warned⟩

/-- The cache, and of the audio-PLL registers all but what a measurement and the environment write, are as before. -/
def PllUntouched (s t : State) : Prop :=
  t.audPllCache = s.audPllCache ∧ t.apll = { s.apll with
    fcVco := t.apll.fcVco, calEn := t.apll.calEn, calDone := t.apll.calDone, calCnt := t.apll.calCnt,
    lockDet := t.apll.lockDet }

theorem pllUntouched_of_eq {s t : State} (hcache : t.audPllCache = s.audPllCache) (hapll : t.apll = s.apll) :
    PllUntouched s t := ⟨hcache, by rw [hapll]⟩

theorem EnvOnly.pllUntouched {s t : State} (h : EnvOnly s t) : PllUntouched s t := by
  refine ⟨h.cache, ?_⟩
  rw [h.apll]

theorem PllUntouched.keeps_pllOk {s t : State} (h : PllUntouched s t) (hs : s.PllOk) : t.PllOk := by
  obtain ⟨hcache, hapll⟩ := h
  obtain ⟨hchain, hsearch, hcacheOk⟩ := hs
  refine ⟨?_, ?_, ?_⟩
  · rw [hapll]
    exact hchain.searched _ _ _ _ _ _ _
  · rw [hapll]
    exact hsearch
  · rw [State.CacheOk, hapll, hcache]
    exact hcacheOk

/-! ### The search stays in range -/

/-- A search step moves the code by at most the step, so the distance of two steps from either end leaves one (R205, R207). -/
theorem nextCode_range (n : BitVec 16) (c : BitVec 5) (d : BitVec 4) (hd : d ≠ 0#4) (hlo : 2 * d.toNat ≤ c.toNat)
    (hhi : c.toNat + 2 * d.toNat ≤ 32) :
    d.toNat ≤ (nextCode n c d).toNat ∧ (nextCode n c d).toNat + d.toNat ≤ 32 := by
  have hpos : d.toNat ≠ 0 := fun h => hd (BitVec.eq_of_toNat_eq h)
  have hwide : (d.setWidth 5).toNat = d.toNat := by
    rw [BitVec.toNat_setWidth]
    omega
  unfold nextCode
  split
  · rw [BitVec.toNat_add, hwide]
    omega
  · split
    · rw [BitVec.toNat_sub, hwide]
      omega
    · omega

/-- A search step on a range of `SearchOk` leads to the next one: each range is two steps away from either end (R46, R207). -/
theorem SearchOk.calstep {r : ApllRegs} (h : SearchOk r) (hst : r.st = .openLoopCalibrating) (hstep : r.step ≠ 0#4)
    (n : BitVec 16) : SearchOk { r with code := nextCode n r.code r.step, step := r.step >>> 1 } := by
  intro _
  have hrange := nextCode_range n r.code r.step hstep
  dsimp only
  rcases h hst with ⟨h8, hcode, hfin⟩ | ⟨h4, hlo, hhi, hfin⟩ | ⟨h2, hlo, hhi, hfin⟩ | ⟨h1, hlo, hhi, hfin⟩ | ⟨h0, _⟩
  · rw [h8, hcode] at hrange ⊢
    obtain ⟨hlo', hhi'⟩ := hrange (by decide) (by decide)
    exact .inr (.inl ⟨rfl, hlo', Nat.le_sub_of_add_le hhi', hfin⟩)
  · rw [h4] at hrange ⊢
    obtain ⟨hlo', hhi'⟩ := hrange hlo (Nat.add_le_of_le_sub (by decide) hhi)
    exact .inr (.inr (.inl ⟨rfl, hlo', Nat.le_sub_of_add_le hhi', hfin⟩))
  · rw [h2] at hrange ⊢
    obtain ⟨hlo', hhi'⟩ := hrange hlo (Nat.add_le_of_le_sub (by decide) hhi)
    exact .inr (.inr (.inr (.inl ⟨rfl, hlo', Nat.le_sub_of_add_le hhi', hfin⟩)))
  · rw [h1] at hrange ⊢
    obtain ⟨hlo', _⟩ := hrange hlo (Nat.add_le_of_le_sub (by decide) hhi)
    exact .inr (.inr (.inr (.inr ⟨rfl, fun _ => hlo'⟩)))
  · exact absurd h0 hstep

/-! ### The steps of the chain -/

section
variable {r : ApllRegs} (h : ChainOk r)
include h

/-- Before the calibration nothing of it is set (R60, R191). -/
theorem ChainOk.uncalibrated (hst : pllRank r.st < 4) :
    r.calFin = false ∧ r.freqSel = none ∧ r.lockWarn = false := by
  have hfin : r.calFin = false := Bool.eq_false_iff.2 fun e => absurd (h.fin e) (by omega)
  refine ⟨hfin, ?_, Bool.eq_false_iff.2 fun e => absurd (h.warned e) (by omega)⟩
  by_contra hsel
  rw [h.sel hsel] at hfin
  cases hfin

theorem ChainOk.unfiltered (hst : pllRank r.st < 3) : r.lfCfg = false :=
  Bool.eq_false_iff.2 fun e => absurd (h.lfOff e) (by omega)

theorem ChainOk.take : ChainOk { r with taken := true } :=
  ⟨h.bg, h.ana, h.dig, fun _ => rfl, h.lfOn, h.lfOff, h.fin, h.sel, h.run, h.warned⟩

theorem ChainOk.bgon (hst : r.st = .uninitialized) (htaken : r.taken = true) :
    ChainOk { r with enBg := true, st := .bandgapEnabled } := by
  obtain ⟨hfin, hsel, hwarn⟩ := h.uncalibrated (by rw [hst]; decide)
  have hlf := h.unfiltered (by rw [hst]; decide)
  constructor <;> simp [pllRank, hst, hfin, hsel, hwarn, hlf, htaken, h.ana, h.dig]

theorem ChainOk.anaon (hst : r.st = .bandgapEnabled) :
    ChainOk { r with enAna := true, st := .analogPllEnabled } := by
  obtain ⟨hfin, hsel, hwarn⟩ := h.uncalibrated (by rw [hst]; decide)
  have hlf := h.unfiltered (by rw [hst]; decide)
  constructor <;> simp [pllRank, hst, hfin, hsel, hwarn, hlf, h.bg, h.dig, h.taken]

theorem ChainOk.digon (hst : r.st = .analogPllEnabled) :
    ChainOk { r with enDig := true, st := .digitalPllEnabled } := by
  obtain ⟨hfin, hsel, hwarn⟩ := h.uncalibrated (by rw [hst]; decide)
  have hlf := h.unfiltered (by rw [hst]; decide)
  constructor <;> simp [pllRank, hst, hfin, hsel, hwarn, hlf, h.bg, h.ana, h.taken]

theorem ChainOk.lfcfg (hst : r.st = .digitalPllEnabled) : ChainOk { r with lfCfg := true } :=
  ⟨h.bg, h.ana, h.dig, h.taken, fun _ => rfl, fun _ => by rw [hst]; decide, h.fin, h.sel, h.run, h.warned⟩

theorem ChainOk.calstart (hst : r.st = .digitalPllEnabled) (hlf : r.lfCfg = true) (c : BitVec 5) (d : BitVec 4) :
    ChainOk { r with code := c, step := d, calFin := false, st := .openLoopCalibrating } := by
  obtain ⟨_, hsel, hwarn⟩ := h.uncalibrated (by rw [hst]; decide)
  constructor <;> simp [pllRank, hst, hsel, hwarn, hlf, h.bg, h.ana, h.dig, h.taken]

theorem ChainOk.finish (hst : r.st = .openLoopCalibrating) : ChainOk { r with calFin := true } :=
  ⟨h.bg, h.ana, h.dig, h.taken, h.lfOn, h.lfOff, fun _ => by rw [hst]; decide, fun _ => rfl, h.run, h.warned⟩

theorem ChainOk.sdmprog (hfin : r.calFin = true) (k : Fin 3) (f : BitVec 4) (i : BitVec 20) :
    ChainOk { r with fcw := f, sdin := i, sdmFcw := f, sdmSdin := i, freqSel := some k } :=
  ⟨h.bg, h.ana, h.dig, h.taken, h.lfOn, h.lfOff, h.fin, fun _ => hfin, fun _ => Option.some_ne_none k, h.warned⟩

theorem ChainOk.lock (hst : r.st = .openLoopCalibrating) (hsel : r.freqSel ≠ none) (w : Bool) :
    ChainOk { r with st := .closedLoopLocked, lockWarn := w } := by
  constructor <;> simp [pllRank, hst, hsel, h.sel, h.bg, h.ana, h.dig, h.taken, h.lfOn]

end

/-- The teardown leaves a chain at its start (R215). -/
theorem chainOk_dropped (r : ApllRegs) :
    ChainOk { r with enDig := false, enAna := false, enBg := false, lfCfg := false, calEn := false, calFin := false,
                     freqSel := none, lockWarn := false, st := .uninitialized, taken := false } := by
  constructor <;> simp [pllRank]

/-! ### The invariant, by where the chain stands -/

theorem State.PllOk.chain {s : State} (h : s.PllOk) : ChainOk s.apll := h.1

theorem State.PllOk.search {s : State} (h : s.PllOk) : SearchOk s.apll := h.2.1

/-- Off the running PLL the cache is empty (R58). -/
theorem State.PllOk.cache_none {s : State} (h : s.PllOk) (hst : s.apll.st ≠ .closedLoopLocked) :
    s.audPllCache = none := by
  obtain ⟨_, _, _, hoff⟩ := h
  exact hoff hst

/-- Below the calibration the invariant is the chain and an empty cache. -/
theorem pllOk_below_calibration {t : State} (hrank : pllRank t.apll.st < 4) (hchain : ChainOk t.apll)
    (hcache : t.audPllCache = none) : t.PllOk :=
  ⟨hchain, fun e => by simp [e, pllRank] at hrank, fun e => by simp [e, pllRank] at hrank, fun _ => hcache⟩

/-- While calibrating the search is in range, too. -/
theorem pllOk_calibrating {t : State} (hst : t.apll.st = .openLoopCalibrating) (hchain : ChainOk t.apll)
    (hsearch : SearchOk t.apll) (hcache : t.audPllCache = none) : t.PllOk :=
  ⟨hchain, hsearch, fun e => by simp [hst] at e, fun _ => hcache⟩

/-- While running the cache holds the chosen frequency. -/
theorem pllOk_running {t : State} {k : Fin 3} (hst : t.apll.st = .closedLoopLocked) (hchain : ChainOk t.apll)
    (hsel : t.apll.freqSel = some k) (hcache : t.audPllCache = some (Config.apllHz k)) : t.PllOk :=
  ⟨hchain, fun e => by simp [hst] at e, fun _ => ⟨k, hsel, hcache⟩, fun e => absurd hst e⟩

/-- What is handed to HCPU is outside the invariant. -/
theorem answer_keeps_pllOk {r : Result} {u t : State} (h : answer .hcpu r u = .next t) (hu : u.PllOk) : t.PllOk := by
  rw [answer_next _ _ _ _ h]
  exact hu

theorem raiseFatal_keeps_pllOk {c : FatalCause} {s t : State} (h : raiseFatal .hcpu c s = .next t) (hs : s.PllOk) :
    t.PllOk := by
  rw [raiseFatal_next _ _ _ _ h]
  exact hs

/-! ### The operations of the family -/

/-- The teardown leads to the start of the chain from anywhere. -/
theorem execApllDrop_keeps_pllOk {s t : State} (h : execApllDrop s = .next t) : t.PllOk := by
  obtain ⟨_, h⟩ := requiring_eq _ _ _ h
  exact answer_keeps_pllOk h (pllOk_below_calibration (by simp [pllRank]) (chainOk_dropped s.apll) rfl)

section
variable {s t : State} (hs : s.PllOk)
include hs

theorem execApllTake_keeps_pllOk (h : execApllTake s = .next t) : t.PllOk := by
  cases htaken : s.apll.taken with
  | true =>
    rw [execApllTake_taken htaken] at h
    exact raiseFatal_keeps_pllOk h hs
  | false =>
    rw [execApllTake_free htaken] at h
    obtain ⟨_, h⟩ := requiring_eq _ _ _ h
    obtain ⟨hchain, hsearch, hcache⟩ := hs
    exact answer_keeps_pllOk h ⟨hchain.take, hsearch, hcache⟩

theorem execApllBgon_keeps_pllOk (h : execApllBgon s = .next t) : t.PllOk := by
  obtain ⟨hreq, h⟩ := requiring_eq _ _ _ h
  obtain ⟨hst, htaken⟩ : s.apll.st = .uninitialized ∧ s.apll.taken = true := by simpa using hreq
  exact answer_keeps_pllOk h
    (pllOk_below_calibration (by simp [pllRank]) (hs.chain.bgon hst htaken) (hs.cache_none (by simp [hst])))

theorem execApllAnaon_keeps_pllOk (h : execApllAnaon s = .next t) : t.PllOk := by
  obtain ⟨hreq, h⟩ := requiring_eq _ _ _ h
  have hst : s.apll.st = .bandgapEnabled := of_decide_eq_true hreq
  exact answer_keeps_pllOk h
    (pllOk_below_calibration (by simp [pllRank]) (hs.chain.anaon hst) (hs.cache_none (by simp [hst])))

theorem execApllDigon_keeps_pllOk (h : execApllDigon s = .next t) : t.PllOk := by
  obtain ⟨hreq, h⟩ := requiring_eq _ _ _ h
  have hst : s.apll.st = .analogPllEnabled := of_decide_eq_true hreq
  exact answer_keeps_pllOk h
    (pllOk_below_calibration (by simp [pllRank]) (hs.chain.digon hst) (hs.cache_none (by simp [hst])))

theorem execApllLfcfg_keeps_pllOk (h : execApllLfcfg s = .next t) : t.PllOk := by
  obtain ⟨hreq, h⟩ := requiring_eq _ _ _ h
  obtain ⟨hst, _⟩ : s.apll.st = .digitalPllEnabled ∧ s.apll.lfCfg = false := by simpa using hreq
  exact answer_keeps_pllOk h
    (pllOk_below_calibration (by simp [hst, pllRank]) (hs.chain.lfcfg hst) (hs.cache_none (by simp [hst])))

/-- The search starts in its first range (R204). -/
theorem execApllCalstart_keeps_pllOk (h : execApllCalstart s = .next t) : t.PllOk := by
  obtain ⟨hreq, h⟩ := requiring_eq _ _ _ h
  obtain ⟨hst, hlf⟩ : s.apll.st = .digitalPllEnabled ∧ s.apll.lfCfg = true := by simpa using hreq
  exact answer_keeps_pllOk h
    (pllOk_calibrating rfl (hs.chain.calstart hst hlf _ _) (fun _ => .inl ⟨rfl, rfl, rfl⟩)
      (hs.cache_none (by simp [hst])))

theorem execApllMeas_keeps_pllOk {code : BitVec 5} (h : exec (.apllMeas code) s = .next t) : t.PllOk := by
  obtain ⟨hreq, _⟩ := requiring_eq _ _ _ h
  obtain ⟨u, hu, hcases, hframe⟩ := exec_apllMeas_outcome code (of_decide_eq_true hreq)
  obtain rfl : u = t := Host.Outcome.next.inj (hu.symm.trans h)
  have huntouched : PllUntouched s u := by
    rcases hcases with ⟨n, _, hapll⟩ | ⟨_, hapll⟩ <;> exact ⟨hframe.cache, by rw [hapll]⟩
  exact huntouched.keeps_pllOk hs

theorem execApllCalstep_keeps_pllOk (h : exec .apllCalstep s = .next t) : t.PllOk := by
  obtain ⟨hreq, _⟩ := requiring_eq _ _ _ h
  obtain ⟨hst, hstep⟩ : s.apll.st = .openLoopCalibrating ∧ s.apll.step ≠ 0#4 := by simpa using hreq
  obtain ⟨u, hu, hcases, hframe⟩ := exec_apllCalstep_outcome hst hstep
  obtain rfl : u = t := Host.Outcome.next.inj (hu.symm.trans h)
  rcases hcases with ⟨_, hapll⟩ | ⟨_, hapll⟩
  · have hcache : u.audPllCache = none := hframe.cache.trans (hs.cache_none (by simp [hst]))
    refine pllOk_calibrating (by rw [hapll]; exact hst) ?_ ?_ hcache
    · rw [hapll]
      exact hs.chain.searched _ _ _ _ _ _ _
    · rw [hapll]
      exact hs.search.calstep hst hstep _
  · exact PllUntouched.keeps_pllOk ⟨hframe.cache, by rw [hapll]⟩ hs

/-- The refinement ends the search, whose step it found at 0 (R208). -/
theorem execApllCalrefine_keeps_pllOk (h : exec .apllCalrefine s = .next t) : t.PllOk := by
  obtain ⟨hreq, _⟩ := requiring_eq _ _ _ h
  obtain ⟨⟨hst, hstep⟩, hfin⟩ :
      (s.apll.st = .openLoopCalibrating ∧ s.apll.step = 0#4) ∧ s.apll.calFin = false := by simpa using hreq
  obtain ⟨u, hu, hframe, hcases⟩ := exec_apllCalrefine_outcome hst hstep hfin
  obtain rfl : u = t := Host.Outcome.next.inj (hu.symm.trans h)
  rcases hcases with ⟨_, hapll⟩ | ⟨_, hapll⟩
  · have hcache : u.audPllCache = none := hframe.cache.trans (hs.cache_none (by simp [hst]))
    refine pllOk_calibrating (by rw [hapll]; exact hst) ?_ ?_ hcache
    · rw [hapll]
      exact (hs.chain.finish hst).searched _ _ _ _ _ _ _
    · rw [hapll]
      exact fun _ => .inr (.inr (.inr (.inr ⟨hstep, fun e => by cases e⟩)))
  · exact PllUntouched.keeps_pllOk ⟨hframe.cache, by rw [hapll]⟩ hs

theorem execApllSdmprog_keeps_pllOk {k : Fin 3} (h : execApllSdmprog k s = .next t) : t.PllOk := by
  obtain ⟨hreq, h⟩ := requiring_eq _ _ _ h
  obtain ⟨⟨hst, hfin⟩, _⟩ :
      (s.apll.st = .openLoopCalibrating ∧ s.apll.calFin = true) ∧ s.apll.freqSel = none := by simpa using hreq
  exact answer_keeps_pllOk h
    (pllOk_calibrating hst (hs.chain.sdmprog hfin k _ _) hs.search (hs.cache_none (by simp [hst])))

theorem execApllLockchk_keeps_pllOk (h : exec .apllLockchk s = .next t) : t.PllOk := by
  by_cases hrefused : s.apll.st ≠ .openLoopCalibrating ∨ s.apll.freqSel = none
  · cases (execApllLockchk_refused hrefused).symm.trans h
  · obtain ⟨hst, hsel⟩ : s.apll.st = .openLoopCalibrating ∧ s.apll.freqSel ≠ none := by
      simpa only [not_or, ne_eq, not_not] using hrefused
    obtain ⟨k, hk⟩ := Option.ne_none_iff_exists'.1 hsel
    have ht := Host.Outcome.next.inj ((exec_apllLockchk_locks hst hk).symm.trans h)
    rw [← ht]
    exact pllOk_running rfl (hs.chain.lock hst hsel _) hk rfl

theorem execApllCheck_keeps_pllOk {sr : Fin 11} (h : execApllCheck sr s = .next t) : t.PllOk := by
  cases hsel : s.apll.freqSel with
  | none => cases (execApllCheck_none sr hsel).symm.trans h
  | some k =>
    obtain ⟨_, h⟩ := requiring_eq _ _ _ ((execApllCheck_some sr hsel).symm.trans h)
    split at h
    · exact answer_keeps_pllOk h hs
    · exact raiseFatal_keeps_pllOk h hs

/-! ### Every other operation of HCPU -/

theorem execClkFreq_keeps_pllOk (n : ClkNode) (h : exec (clkFreqInstr n) s = .next t) : t.PllOk := by
  cases hq : freqOf n s with
  | some q => exact answer_keeps_pllOk ((exec_clkFreqInstr_of_some hq).symm.trans h) hs
  | none => cases (exec_clkFreqInstr_of_none hq).symm.trans h

theorem installWith_keeps_pllOk {L : Config.PatchMap} {record code : List Byte}
    (h : installWith L record code s = .next t) : t.PllOk := by
  rcases installWith_next L record code s t h with ⟨e, rfl⟩ | ⟨p, _, _, rfl⟩
  · exact hs
  · obtain ⟨m, hm⟩ := installWrites_eq L p record code s
    rw [hm]
    exact hs

theorem exec_keeps_pllOk {j : Instr} (h : exec j s = .next t) : t.PllOk := by
  cases hj : mbxTarget j with
  | some target =>
    obtain ⟨ch, x, rfl, _⟩ := (exec_mbx_outcome j target.1 target.2 s t hj h).update
    exact (pllUntouched_of_eq (by simp) (by simp)).keeps_pllOk hs
  | none =>
    cases j <;> simp only [mbxTarget, reduceCtorEq] at hj
    case clkFreqHxt48 => exact execClkFreq_keeps_pllOk hs .hxt48 h
    case clkFreqHrc48 => exact execClkFreq_keeps_pllOk hs .hrc48 h
    case clkFreqClkDll1 => exact execClkFreq_keeps_pllOk hs .clkDll1 h
    case clkFreqClkDll2 => exact execClkFreq_keeps_pllOk hs .clkDll2 h
    case clkFreqClkSys => exact execClkFreq_keeps_pllOk hs .clkSys h
    case clkFreqClkPeri => exact execClkFreq_keeps_pllOk hs .clkPeri h
    case clkFreqClkPeriDiv2 => exact execClkFreq_keeps_pllOk hs .clkPeriDiv2 h
    case clkFreqHclk => exact execClkFreq_keeps_pllOk hs .hclk h
    case clkFreqPclk1 => exact execClkFreq_keeps_pllOk hs .pclk1 h
    case clkFreqPclk2 => exact execClkFreq_keeps_pllOk hs .pclk2 h
    case clkFreqClkUsb => exact execClkFreq_keeps_pllOk hs .clkUsb h
    case clkFreqClkAudPll => exact execClkFreq_keeps_pllOk hs .clkAudPll h
    case clkCfg f v => exact answer_keeps_pllOk h hs
    case clkDump => exact answer_keeps_pllOk h ((dump_envOnly s).pllUntouched.keeps_pllOk hs)
    case apllTake => exact execApllTake_keeps_pllOk hs h
    case apllBgon => exact execApllBgon_keeps_pllOk hs h
    case apllAnaon => exact execApllAnaon_keeps_pllOk hs h
    case apllDigon => exact execApllDigon_keeps_pllOk hs h
    case apllLfcfg => exact execApllLfcfg_keeps_pllOk hs h
    case apllCalstart => exact execApllCalstart_keeps_pllOk hs h
    case apllCalstep => exact execApllCalstep_keeps_pllOk hs h
    case apllCalrefine => exact execApllCalrefine_keeps_pllOk hs h
    case apllSdmprog k => exact execApllSdmprog_keeps_pllOk hs h
    case apllLockchk => exact execApllLockchk_keeps_pllOk hs h
    case apllFreqof sr => exact answer_keeps_pllOk h hs
    case apllCheck sr => exact execApllCheck_keeps_pllOk hs h
    case apllDrop => exact execApllDrop_keeps_pllOk h
    case apllMeas code => exact execApllMeas_keeps_pllOk hs h
    case revRdid => exact answer_keeps_pllOk h hs
    case revClass b => exact answer_keeps_pllOk h hs
    case revValid b => exact answer_keeps_pllOk h hs
    case revLetter b => exact answer_keeps_pllOk h hs
    case revPtype b => exact answer_keeps_pllOk h hs
    case revInstall record code => exact installWith_keeps_pllOk hs h

end

theorem pllOk_kept : Kept State.PllOk where
  result s a r := (pllUntouched_of_eq (withResult_audPllCache s a r) (withResult_apll s a r)).keeps_pllOk
  prog s a p := (pllUntouched_of_eq (withProg_audPllCache s a p) (withProg_apll s a p)).keeps_pllOk
  stop s a _ hs _ := (pllUntouched_of_eq (setAgent_audPllCache s a _) (setAgent_apll s a _)).keeps_pllOk hs
  turns _ _ hs := hs
  released _ hs := hs
  env s e es := (applyEnv_envOnly e { s with env := es }).pllUntouched.keeps_pllOk
  exec _ _ _ hs _ := exec_keeps_pllOk hs

/-- Settles O52: every operation of the family leads from one stage of the chain to another that meets the invariant, and
nothing else reaches the sequencer. -/
theorem stepKeepsThePllInvariant : Obligations.StepKeepsThePllInvariant := pllOk_kept.step

end Sys2Proof.Machine
end

section
/-! PROOFS. The eight mailbox operations (R240 to R249): their reads, their writes, the index check, and who wins a free
mutex (R258). -/

namespace Sys2Proof.Machine

/-! ### The index check of a mailbox operation -/

/-- Settles O16: each of the eight makes the index check before its register access. -/
theorem indexOutOfRangeIsFatal : Obligations.IndexOutOfRangeIsFatal := by
  intro a i c m s hc
  have hread := fun k => mbxRead_trap a i c.toNat k s hc
  have hwrite := fun k w => mbxWrite_trap a i c.toNat k w s hc
  exact ⟨hread .ier, hwrite .ier (zext32 m), hwrite .itr (zext32 m), hwrite .icr (zext32 m), hread .isr, hread .misr,
    hread .exr, hwrite .exr Config.exrUnlock⟩

/-! ### Reads and mask writes -/

/-- Settles O12: the three registers read without a side effect. -/
theorem mailboxReads : Obligations.MailboxReads := by
  intro a i c s hc
  exact ⟨mbxRead_some a i c.toNat .ier s hc _ s rfl, mbxRead_some a i c.toNat .isr s hc _ s rfl,
    mbxRead_some a i c.toNat .misr s hc _ s rfl⟩

/-- A write of `IER` replaces it whole by its mask (R94). -/
theorem regWrite_ier_mask (i : MbxInst) (c : Nat) (m : BitVec 16) (s : State) :
    regWrite i c .ier (zext32 m) s = some (s.setChannel i c { s.channel i c with ier := m }) := by
  rw [regWrite, low16_zext32]

/-- A write of `ITR` sets its mask in the raw status (R94). -/
theorem regWrite_itr_mask (i : MbxInst) (c : Nat) (m : BitVec 16) (s : State) :
    regWrite i c .itr (zext32 m) s =
      some (s.setChannel i c { s.channel i c with isr := (s.channel i c).isr ||| m }) := by
  rw [regWrite, low16_zext32]

/-- A write of `ICR` resets its mask in the raw status (R94). -/
theorem regWrite_icr_mask (i : MbxInst) (c : Nat) (m : BitVec 16) (s : State) :
    regWrite i c .icr (zext32 m) s =
      some (s.setChannel i c { s.channel i c with isr := (s.channel i c).isr &&& ~~~m }) := by
  rw [regWrite, low16_zext32]

/-- Settles O13: each is the register write of its mask, extended with zeros. -/
theorem mailboxMaskWrites : Obligations.MailboxMaskWrites := by
  intro a i c m s hc
  exact ⟨mbxWrite_some a i c.toNat .ier (zext32 m) s hc _ (regWrite_ier_mask i c.toNat m s),
    mbxWrite_some a i c.toNat .itr (zext32 m) s hc _ (regWrite_itr_mask i c.toNat m s),
    mbxWrite_some a i c.toNat .icr (zext32 m) s hc _ (regWrite_icr_mask i c.toNat m s)⟩

/-! ### The mutex -/

/-- A lock read of a free mutex hands back what it read and claims the mutex (R247). -/
theorem mbxRead_exr_free (a : Agent) (i : MbxInst) (c : Nat) (s : State) (hc : c < Config.nch i)
    (hfree : (s.channel i c).ex = true) :
    mbxRead a i c .exr s =
      .next ((s.setChannel i c ((s.channel i c).claim a)).withResult a (.word (exrValue (s.channel i c)))) :=
  mbxRead_some a i c .exr s hc _ _ (by rw [regRead, if_pos hfree])

/-- A lock read of a held mutex only hands back what it read (R247). -/
theorem mbxRead_exr_held (a : Agent) (i : MbxInst) (c : Nat) (s : State) (hc : c < Config.nch i)
    (hheld : (s.channel i c).ex = false) :
    mbxRead a i c .exr s = .next (s.withResult a (.word (exrValue (s.channel i c)))) :=
  mbxRead_some a i c .exr s hc _ _ (by rw [regRead, if_neg (by rw [hheld]; decide)])

/-- The unlock write releases the mutex whatever it finds there (R248). -/
theorem mbxWrite_exr_unlock (a : Agent) (i : MbxInst) (c : Nat) (s : State) (hc : c < Config.nch i) :
    mbxWrite a i c .exr Config.exrUnlock s = .next ((s.setChannel i c (s.channel i c).release).withResult a .done) :=
  mbxWrite_some a i c .exr Config.exrUnlock s hc _ (regWrite_exr_unlock i c _ s exBit_exrUnlock)

theorem exec_mbxLock (a : Agent) (i : MbxInst) (c : BitVec 5) (s : State) :
    exec (.mbxLock a i c) s = mbxRead a i c.toNat .exr s := rfl

theorem exec_mbxUnlock (a : Agent) (i : MbxInst) (c : BitVec 5) (s : State) :
    exec (.mbxUnlock a i c) s = mbxWrite a i c.toNat .exr Config.exrUnlock s := rfl

/-- Releasing a mutex that is free changes nothing. -/
theorem release_of_free (ch : Channel) (hex : ch.ex = true) (hid : ch.id = 0#2) : ch.release = ch := by
  rw [Channel.release, ← hex, ← hid]

/-- Settles O14: `EX` decides between the claim and the bare read; the claim writes the reader's core ID. -/
theorem lockIsTestAndSet : Obligations.LockIsTestAndSet := by
  intro a i c s hc ch v me
  have hvalue : exrValue ch = v := exrValue_eq ch
  have hclaim : ch.claim a = { ch with ex := false, id := me } := by cases a <;> rfl
  rw [← hvalue, ← hclaim]
  exact ⟨mbxRead_exr_free a i c.toNat s hc, mbxRead_exr_held a i c.toNat s hc⟩

/-- Settles O15: the write releases whatever was there, and on a free mutex it writes back what was there. -/
theorem unlockIsUnchecked : Obligations.UnlockIsUnchecked := by
  intro a i c s hc
  refine ⟨mbxWrite_exr_unlock a i c.toNat s hc, fun hex hid => ?_⟩
  rw [exec_mbxUnlock, mbxWrite_exr_unlock a i c.toNat s hc, release_of_free _ hex hid, setChannel_self]

/-! ### Lock reads one after another -/

/-- A lock read that hands back `v` puts `v` before what the later ones return. -/
theorem lockReads_cons (i : MbxInst) (c : BitVec 5) (a : Agent) (as : List Agent) (s t : State) (v : Word)
    (h : exec (.mbxLock a i c) s = .next (t.withResult a (.word v))) :
    lockReads i c (a :: as) s = v :: lockReads i c as (t.withResult a (.word v)) := by
  rw [lockReads, h]
  simp only [withResult_resultWord]

/-- Every lock read of a held mutex returns the value that was there, since none changes it. -/
theorem lockReads_held (i : MbxInst) (c : BitVec 5) (as : List Agent) (s : State) (hc : c.toNat < Config.nch i)
    (hheld : (s.channel i c.toNat).ex = false) :
    lockReads i c as s = List.replicate as.length (exrValue (s.channel i c.toNat)) := by
  induction as generalizing s with
  | nil => rfl
  | cons a as ih =>
    rw [lockReads_cons i c a as s s _ (mbxRead_exr_held a i c.toNat s hc hheld),
      ih _ (by rw [withResult_channel]; exact hheld), withResult_channel, List.length_cons, List.replicate_succ]

/-- The value of a free mutex is 0x1 (R37). -/
theorem exrValue_free (ch : Channel) (hex : ch.ex = true) (hid : ch.id = 0#2) : exrValue ch = 1#32 := by
  rw [exrValue_eq, hex, hid]
  decide

/-- The value of a mutex just claimed is the core ID of its new holder, shifted left by one (R247). -/
theorem exrValue_claim (ch : Channel) (a : Agent) : exrValue (ch.claim a) = 0#29 ++ a.code ++ 0#1 :=
  exrValue_eq (ch.claim a)

/-- Settles O25: the first read claims the mutex for its master, and the later ones find it held. -/
theorem onlyOneLockWins : Obligations.OnlyOneLockWins := by
  intro i c s a as hc hex hid
  rw [lockReads_cons i c a as s _ _ (mbxRead_exr_free a i c.toNat s hc hex), exrValue_free _ hex hid]
  have hclaimed : ((s.setChannel i c.toNat ((s.channel i c.toNat).claim a)).withResult a (.word 1#32)).channel i
      c.toNat = (s.channel i c.toNat).claim a := by
    rw [withResult_channel, setChannel_channel_same _ _ _ _ (Nat.lt_of_lt_of_le hc (nch_le_16 i))]
  rw [lockReads_held i c as _ hc (by rw [hclaimed]; rfl), hclaimed, exrValue_claim]

end Sys2Proof.Machine
end

section
/-! PROOFS. The mailbox pseudo-operations turn by turn: the enable and disable of R251 and R252, the attempt at the mutex of
R255 and the peek of R256. -/

namespace Sys2Proof.Machine

/-- What follows an operation that handed back no value to a master that runs. -/
theorem andThen_done (a : Agent) (s : State) (k : State → State) (h : (s.agent a).stopped = none) :
    andThen a (.next (s.withResult a .done)) k = .next (k (s.withResult a .done)) := by
  simp [andThen, State.failed, h]

/-- The last operation of a pseudo-operation runs as that operation (R134). -/
theorem runItem_ops_singleton (a : Agent) (j : Instr) (s : State) (h : j.agent = a) :
    runItem a (.ops [j]) s = exec j s := if_pos h

/-! ### Enable and disable -/

theorem exec_mbxRdier (a : Agent) (i : MbxInst) (c : BitVec 5) (s : State) :
    exec (.mbxRdier a i c) s = mbxRead a i c.toNat .ier s := rfl

theorem exec_mbxWrier (a : Agent) (i : MbxInst) (c : BitVec 5) (m : BitVec 16) (s : State) :
    exec (.mbxWrier a i c m) s = mbxWrite a i c.toNat .ier (zext32 m) s := rfl

/-- The first turn reads `IER` and leaves the write of the value computed from it (R102, R251, R252). -/
theorem readModifyIer_reads (a : Agent) (i : MbxInst) (c : Nat) (f : BitVec 16 → BitVec 16) (s : State)
    (hc : c < Config.nch i) (h : (s.agent a).stopped = none) :
    readModifyIer a i (BitVec.ofNat 5 c) f s =
      .next ((s.withResult a (.word (zext32 (s.channel i c).ier))).pushItem a
        (.ops [.mbxWrier a i (BitVec.ofNat 5 c) (f (s.channel i c).ier)])) := by
  have hread : exec (.mbxRdier a i (BitVec.ofNat 5 c)) s =
      .next (s.withResult a (.word (zext32 (s.channel i c).ier))) := by
    rw [exec_mbxRdier, toNat_ofNat_channel i c hc]
    exact mbxRead_some a i c .ier s hc _ _ rfl
  rw [readModifyIer, hread, andThen_word a s _ _ h, withResult_resultWord, low16_zext32]

/-- Settles O28: the value written was fixed at the read, so the second turn writes it whatever it finds. -/
theorem enableIsTwoTransactions : Obligations.EnableIsTwoTransactions := by
  intro a i c m s hc hst
  have hrange : chanOk i c = true := (chanOk_iff i c).2 hc
  refine ⟨?_, ?_, fun v u => ?_⟩
  · rw [runItem_pseudo_inRange a (.en i c m) s hrange]
    exact readModifyIer_reads a i c (fun e => e ||| m) s hc hst
  · rw [runItem_pseudo_inRange a (.dis i c m) s hrange]
    exact readModifyIer_reads a i c (fun e => e &&& ~~~m) s hc hst
  · have hwrite : runItem a (.ops [.mbxWrier a i (BitVec.ofNat 5 c) v]) u =
        .next ((u.setChannel i c { u.channel i c with ier := v }).withResult a .done) := by
      rw [runItem_ops_singleton a _ u rfl, exec_mbxWrier, toNat_ofNat_channel i c hc]
      exact mbxWrite_some a i c .ier (zext32 v) u hc _ (regWrite_ier_mask i c v u)
    refine ⟨_, hwrite, ?_⟩
    rw [withResult_channel, setChannel_channel_same _ _ _ _ (Nat.lt_of_lt_of_le hc (nch_le_16 i))]
    exact ⟨rfl, rfl⟩

/-! ### The peek and the attempt -/

/-- The value of a held mutex decodes to its holder (R135). -/
theorem lockCoreOf_exrValue_held (ch : Channel) (hheld : ch.ex = false) :
    lockCoreOf (exrValue ch) = lockOwner ch.id := by
  rw [lockCoreOf_exrValue, hheld]
  rfl

section
variable (a : Agent) (i : MbxInst) (c : Nat) (s : State) (hc : c < Config.nch i) (hst : (s.agent a).stopped = none)
include hc hst

/-- A lock read of a free mutex that begins a pseudo-operation claims the mutex before what follows (R134, R247). -/
theorem andThen_mbxLock_free (k : State → State) (hfree : (s.channel i c).ex = true) :
    andThen a (exec (.mbxLock a i (BitVec.ofNat 5 c)) s) k =
      .next (k ((s.setChannel i c ((s.channel i c).claim a)).withResult a (.word (exrValue (s.channel i c))))) := by
  rw [exec_mbxLock, toNat_ofNat_channel i c hc, mbxRead_exr_free a i c s hc hfree,
    andThen_word a _ _ _ (by rw [setChannel_agent]; exact hst)]

/-- A lock read of a held mutex that begins a pseudo-operation only hands its value to what follows (R134, R247). -/
theorem andThen_mbxLock_held (k : State → State) (hheld : (s.channel i c).ex = false) :
    andThen a (exec (.mbxLock a i (BitVec.ofNat 5 c)) s) k =
      .next (k (s.withResult a (.word (exrValue (s.channel i c))))) := by
  rw [exec_mbxLock, toNat_ofNat_channel i c hc, mbxRead_exr_held a i c s hc hheld, andThen_word a s _ _ hst]

/-- An attempt at a free mutex claims it and reports that it was free (R255). -/
theorem startPseudo_tryacq_free (hfree : (s.channel i c).ex = true) :
    startPseudo a (.tryacq i c) s =
      .next ((s.setChannel i c ((s.channel i c).claim a)).withResult a (.lock .unlocked)) := by
  rw [startPseudo, andThen_mbxLock_free a i c s hc hst _ hfree, withResult_resultWord, withResult_withResult,
    lockCoreOf_exrValue, if_pos hfree]

/-- An attempt at a held mutex reports its holder (R255). -/
theorem startPseudo_tryacq_held (hheld : (s.channel i c).ex = false) :
    startPseudo a (.tryacq i c) s = .next (s.withResult a (.lock (lockOwner (s.channel i c).id))) := by
  rw [startPseudo, andThen_mbxLock_held a i c s hc hst _ hheld, withResult_resultWord, withResult_withResult,
    lockCoreOf_exrValue_held _ hheld]

/-- A peek at a free mutex claims it and leaves its release (R256). -/
theorem startPseudo_status_free (hfree : (s.channel i c).ex = true) :
    startPseudo a (.status i c) s =
      .next (((s.setChannel i c ((s.channel i c).claim a)).withResult a (.word (exrValue (s.channel i c)))).pushItem a
        (.statusRelease i (BitVec.ofNat 5 c) (exrValue (s.channel i c)))) := by
  rw [startPseudo, andThen_mbxLock_free a i c s hc hst _ hfree, withResult_resultWord, exBit_exrValue, if_pos hfree]

/-- A peek at a held mutex reports its holder, as an attempt does (R256). -/
theorem startPseudo_status_held (hheld : (s.channel i c).ex = false) :
    startPseudo a (.status i c) s = .next (s.withResult a (.lock (lockOwner (s.channel i c).id))) := by
  have hex : exBit (exrValue (s.channel i c)) ≠ true := by rw [exBit_exrValue, hheld]; decide
  rw [startPseudo, andThen_mbxLock_held a i c s hc hst _ hheld, withResult_resultWord, withResult_withResult, if_neg hex,
    lockCoreOf_exrValue_held _ hheld]

/-- The release a peek left frees the mutex and reports the value the peek read (R256, R397). -/
theorem runItem_statusRelease (v : Word) :
    runItem a (.statusRelease i (BitVec.ofNat 5 c) v) s =
      .next ((s.setChannel i c (s.channel i c).release).withResult a (.lock (lockCoreOf v))) := by
  rw [runItem, exec_mbxUnlock, toNat_ofNat_channel i c hc, mbxWrite_exr_unlock a i c s hc,
    andThen_done a _ _ (by rw [setChannel_agent]; exact hst), withResult_withResult]

end

/-- Settles O29: the value read decides between the release that is left and the report. -/
theorem statusReleasesWhatItTook : Obligations.StatusReleasesWhatItTook := by
  intro a i c s hc hst ch
  have hrange : chanOk i c = true := (chanOk_iff i c).2 hc
  rw [runItem_pseudo_inRange a (.status i c) s hrange, runItem_pseudo_inRange a (.tryacq i c) s hrange]
  refine ⟨fun hex hid => ?_, fun hheld => ⟨startPseudo_status_held a i c s hc hst hheld,
    startPseudo_tryacq_held a i c s hc hst hheld⟩, startPseudo_tryacq_free a i c s hc hst,
    runItem_statusRelease a i c s hc hst 1#32⟩
  rw [startPseudo_status_free a i c s hc hst hex, exrValue_free _ hex hid]
  rfl

end Sys2Proof.Machine
end

section
/-! PROOFS. The chip revision: the fields of `CHIPID`, the encodings of the comparator, and the classes of a revision
byte (R291 to R295). -/

namespace Sys2Proof.Machine

/-! ### The fields of `CHIPID` -/

/-- Four bytes put together into a word are its bytes from the top down. -/
theorem extractLsb'_append_bytes (a b c d : Byte) :
    (a ++ b ++ c ++ d).extractLsb' 24 8 = a ∧ (a ++ b ++ c ++ d).extractLsb' 16 8 = b ∧
      (a ++ b ++ c ++ d).extractLsb' 8 8 = c ∧ (a ++ b ++ c ++ d).extractLsb' 0 8 = d := by
  refine ⟨?_, ?_, ?_, BitVec.extractLsb'_append_eq_right⟩
  · rw [BitVec.extractLsb'_append_eq_of_le (by decide), BitVec.extractLsb'_append_eq_of_le (by decide)]
    exact BitVec.extractLsb'_append_eq_left
  · rw [BitVec.extractLsb'_append_eq_of_le (by decide), BitVec.extractLsb'_append_eq_of_le (by decide)]
    exact BitVec.extractLsb'_append_eq_right
  · rw [BitVec.extractLsb'_append_eq_of_le (by decide)]
    exact BitVec.extractLsb'_append_eq_right

/-- At reset `CHIPID` holds the part's constant, field by field (R70). -/
theorem reset_chipId_fields :
    State.reset.chipId.extractLsb' 24 8 = Config.seriesId ∧ State.reset.chipId.extractLsb' 16 8 = Config.companyId ∧
      State.reset.chipId.extractLsb' 8 8 = Config.packageId ∧ State.reset.chipId.extractLsb' 0 8 = Config.revId := by
  rw [show State.reset.chipId = _ from chipId_eq]
  exact extractLsb'_append_bytes ..

/-! ### The encodings -/

/-- The descriptor of an operation on a revision byte carries the byte alone in its low bits (R123, R126 (a)). -/
theorem opdWord_revisionByte (op : BitVec 4) (b : Byte) :
    opdWord 4#4 op Agent.hcpu.code 0#1 0#5 (b.setWidth 16) = 4#4 ++ op ++ 1#2 ++ 0#14 ++ b := by
  have hb : b.toNat % 2 ^ 16 = b.toNat := Nat.mod_eq_of_lt (by have := b.isLt; omega)
  apply BitVec.eq_of_toNat_eq
  calc (opdWord 4#4 op Agent.hcpu.code 0#1 0#5 (b.setWidth 16)).toNat
      = (4#4 ++ op ++ 1#2).toNat <<< 1 <<< 5 <<< 16 ||| b.toNat := by
        unfold opdWord
        rw [BitVec.toNat_append, BitVec.toNat_append, BitVec.toNat_append, BitVec.toNat_setWidth, hb]
        simp [Agent.code]
    _ = (4#4 ++ op ++ 1#2).toNat <<< 14 <<< 8 ||| b.toNat := by simp only [← Nat.shiftLeft_add]
    _ = (4#4 ++ op ++ 1#2 ++ 0#14 ++ b).toNat := by
        rw [BitVec.toNat_append (_ ++ 0#14), BitVec.toNat_append _ 0#14]
        simp

/-- The encoding of an operation of the comparator (R123). -/
theorem encodeHcpu_revisionByte (op : BitVec 4) (b : Byte) :
    encodeHcpu 4#4 op 0#5 (b.setWidth 16) = .opd (4#4 ++ op ++ 1#2 ++ 0#14 ++ b) [] [] :=
  congrArg (Encoded.opd · [] []) (opdWord_revisionByte op b)

/-! ### The classes -/

theorem mem_a3Bytes_iff (b : Byte) : b ∈ [0x00#8, 0x01#8, 0x02#8, 0x03#8] ↔ b.toNat ≤ 3 := by
  simp only [List.mem_cons, List.not_mem_nil, or_false]
  bv_omega

theorem mem_validBytes_iff (b : Byte) :
    b ∈ [0x00#8, 0x01#8, 0x02#8, 0x03#8, 0x07#8, 0x0F#8] ↔ b.toNat ≤ 3 ∨ b = 0x07#8 ∨ b = 0x0F#8 := by
  simp only [List.mem_cons, List.not_mem_nil, or_false]
  bv_omega

theorem mem_letterBytes_iff (b : Byte) : b ∈ [0x07#8, 0x0F#8] ↔ b = 0x07#8 ∨ b = 0x0F#8 := by
  simp only [List.mem_cons, List.not_mem_nil, or_false]

theorem classify_a3 {b : Byte} (h : b ∈ [0x00#8, 0x01#8, 0x02#8, 0x03#8]) : classify b = .a3OrEarlier b :=
  if_pos ((mem_a3Bytes_iff b).1 h)

theorem classify_a4 : classify 0x07#8 = .a4 := rfl

theorem classify_b4 : classify 0x0F#8 = .b4 := rfl

theorem classify_invalid {b : Byte} (h : b ∉ [0x00#8, 0x01#8, 0x02#8, 0x03#8, 0x07#8, 0x0F#8]) :
    classify b = .invalid b := by
  rw [mem_validBytes_iff, not_or, not_or] at h
  obtain ⟨ha3, ha4, hb4⟩ := h
  exact (if_neg ha3).trans ((if_neg ha4).trans (if_neg hb4))

/-- The comparator reports the class of its byte and what the tables make of that class (R292 to R295). -/
theorem exec_comparator {b : Byte} {r : ChipRevision} (h : classify b = r) (s : State) :
    exec (.revClass b) s = .next (s.withResult .hcpu (.revision r)) ∧
      exec (.revValid b) s = .next (s.withResult .hcpu (.bit (revisionValid r))) ∧
      exec (.revLetter b) s = .next (s.withResult .hcpu (.bit (revisionLetter r))) ∧
      exec (.revPtype b) s = .next (s.withResult .hcpu (.patch (revisionPatch r))) := by
  subst h
  exact ⟨rfl, rfl, rfl, rfl⟩

/-- Settles O53: the four classes are those of `classify`, and each operation reads its own table of them. -/
theorem revisionClassification : Obligations.RevisionClassification := by
  refine ⟨rfl, reset_chipId_fields, fun j s t h => (exec_chipId_lcpuRun j s t h).1, fun b => ?encodings,
    fun b s => ⟨exec_revRdid s, ?classes⟩⟩
  case encodings =>
    exact ⟨encodeHcpu_revisionByte 1#4 b, encodeHcpu_revisionByte 2#4 b, encodeHcpu_revisionByte 3#4 b,
      encodeHcpu_revisionByte 4#4 b⟩
  case classes =>
    refine ⟨fun h => exec_comparator (classify_a3 h) s, ?_, ?_, fun h => exec_comparator (classify_invalid h) s⟩
    · rintro rfl
      exact exec_comparator classify_a4 s
    · rintro rfl
      exact exec_comparator classify_b4 s

end Sys2Proof.Machine
end

section
/-! PROOFS. The patch installer: its window and its checks (R297 to R300, R304, R400), its writes (R301, R302), and what they
leave to be read back (R303). -/

namespace Sys2Proof.Machine

/-! ### The patch type of a revision byte -/

theorem revisionPatch_a3 {b : Byte} (h : b ∈ [0x00#8, 0x01#8, 0x02#8, 0x03#8]) :
    revisionPatch (classify b) = some .a3 := by
  rw [classify_a3 h, revisionPatch]

theorem revisionPatch_letterSeries {b : Byte} (h : b ∈ [0x07#8, 0x0F#8]) :
    revisionPatch (classify b) = some .letterSeries := by
  rcases (mem_letterBytes_iff b).1 h with rfl | rfl
  · rw [classify_a4, revisionPatch]
  · rw [classify_b4, revisionPatch]

theorem revisionPatch_invalid {b : Byte} (h : b ∉ [0x00#8, 0x01#8, 0x02#8, 0x03#8, 0x07#8, 0x0F#8]) :
    revisionPatch (classify b) = none := by
  rw [classify_invalid h, revisionPatch]

/-- The patch type tells the two series of valid revision bytes apart (R295). -/
theorem eq_a3_iff_of_revisionPatch {b : Byte} {p : PatchType} (h : revisionPatch (classify b) = some p) :
    p = .a3 ↔ b.toNat ≤ 3 := by
  rw [revisionPatch_classify] at h
  split at h
  · next hb => simpa [hb] using h.symm
  · next hb =>
    split at h
    · simp only [Option.some.injEq] at h
      simp [← h, hb]
    · cases h

/-! ### The window and the checks -/

theorem exec_revInstall (record code : List Byte) (s : State) :
    exec (.revInstall record code) s = installWith Config.patchMap record code s := rfl

/-- The installer is refused outside its window (R400). -/
theorem installWith_refused (L : Config.PatchMap) (record code : List Byte) (s : State)
    (h : s.lcpuRun = true ∨ s.iphase ≠ .idle) : installWith L record code s = .refused .installWindow := if_pos h

section
variable (L : Config.PatchMap) {record code : List Byte} {s : State} (hrun : s.lcpuRun = false)
  (hidle : s.iphase = .idle)
include hrun hidle

theorem window_open : ¬ (s.lcpuRun = true ∨ s.iphase ≠ .idle) := by simp [hrun, hidle]

/-- Step 1: the emptiness of the record is found first (R298). -/
theorem installWith_emptyRecord (hrecord : record = []) :
    installWith L record code s = .next (s.withResult .hcpu (.error .emptyRecord)) := by
  rw [installWith, if_neg (window_open hrun hidle), if_pos hrecord]
  rfl

/-- Step 1: then that of the code (R298). -/
theorem installWith_emptyCode (hrecord : record ≠ []) (hcode : code = []) :
    installWith L record code s = .next (s.withResult .hcpu (.error .emptyCode)) := by
  rw [installWith, if_neg (window_open hrun hidle), if_neg hrecord, if_pos hcode]
  rfl

/-- Step 2: the classification (R299). -/
theorem installWith_invalidRevision (hrecord : record ≠ []) (hcode : code ≠ [])
    (hpatch : revisionPatch (classify (revisionByte s.chipId)) = none) :
    installWith L record code s = .next (s.withResult .hcpu (.error .invalidRevision)) := by
  rw [installWith, if_neg (window_open hrun hidle), if_neg hrecord, if_neg hcode, hpatch]
  rfl

/-- Step 3: the size bound of the selected layout (R300). -/
theorem installWith_codeTooLarge (hrecord : record ≠ []) {p : PatchType}
    (hpatch : revisionPatch (classify (revisionByte s.chipId)) = some p) (hlarge : codeCapacity L p < code.length) :
    installWith L record code s = .next (s.withResult .hcpu (.error .codeTooLarge)) := by
  have hcode : code ≠ [] := List.ne_nil_of_length_pos (Nat.zero_lt_of_lt hlarge)
  rw [installWith, if_neg (window_open hrun hidle), if_neg hrecord, if_neg hcode, hpatch]
  exact if_pos hlarge

end

/-- Settles O54: the checks one by one, in their order. -/
theorem installerChecksInOrder : Obligations.InstallerChecksInOrder := by
  intro record code s b fails
  refine ⟨fun hrun hidle => ⟨?_, ?_, ?_, ?_, ?_⟩, installWith_refused Config.patchMap record code s⟩
  · exact installWith_emptyRecord Config.patchMap hrun hidle
  · exact installWith_emptyCode Config.patchMap hrun hidle
  · exact fun hrecord hcode hb =>
      installWith_invalidRevision Config.patchMap hrun hidle hrecord hcode (revisionPatch_invalid hb)
  · exact fun hrecord hb => installWith_codeTooLarge Config.patchMap hrun hidle hrecord (revisionPatch_a3 hb)
  · exact fun hrecord hb => installWith_codeTooLarge Config.patchMap hrun hidle hrecord (revisionPatch_letterSeries hb)

/-! ### The writes -/

/-- The address of the first write: the record's or the header's (R301, R302). -/
def headAddr (L : Config.PatchMap) : PatchType → Nat
  | .a3 => L.a3Record
  | .letterSeries => L.lsBuf

/-- The bytes of the first write: the record or the header (R301, R302). -/
def headBytes (L : Config.PatchMap) (record : List Byte) : PatchType → List Byte
  | .a3 => record
  | .letterSeries => letterHeader L

theorem installHead_mem (L : Config.PatchMap) (p : PatchType) (record : List Byte) (s : State) :
    (installHead L p record s).mem = s.mem.writeBytes (headAddr L p) (headBytes L record p) := by
  cases p <;> rfl

/-- What an address holds after an admitted install on patch memory `m`: the code region lies over the record or the header,
and that over what was there before (R301, R302). -/
def installedByte (L : Config.PatchMap) (p : PatchType) (record code : List Byte) (m : Memory) (x : Nat) : Byte :=
  if codeAddr L p ≤ x ∧ x < codeAddr L p + codeCapacity L p then code.getD (x - codeAddr L p) 0#8
  else if headAddr L p ≤ x ∧ x < headAddr L p + (headBytes L record p).length then
    (headBytes L record p).getD (x - headAddr L p) 0#8
  else m.read x

theorem installWrites_read_installedByte (L : Config.PatchMap) (p : PatchType) (record code : List Byte) (s : State)
    (hfits : code.length ≤ codeCapacity L p) (x : Nat) :
    (installWrites L p record code s).mem.read x = installedByte L p record code s.mem x := by
  rw [installWrites_read L p record code s hfits, installHead_mem, memory_read_writeBytes, installedByte]

/-- From an idle installer an install changes patch memory alone. -/
theorem installWrites_frame (L : Config.PatchMap) (p : PatchType) (record code : List Byte) {s : State}
    (hidle : s.iphase = .idle) :
    installWrites L p record code s = { s with mem := (installWrites L p record code s).mem } := by
  obtain ⟨m, e⟩ := installWrites_eq L p record code s
  rw [e, ← hidle]

/-- An admitted install returns `Ok` and changes nothing but the result and patch memory (R301 to R303). -/
theorem installWith_writes (L : Config.PatchMap) {record code : List Byte} {s : State} (hrun : s.lcpuRun = false)
    (hidle : s.iphase = .idle) (hrecord : record ≠ []) (hcode : code ≠ []) {p : PatchType}
    (hpatch : revisionPatch (classify (revisionByte s.chipId)) = some p) (hfits : code.length ≤ codeCapacity L p) :
    ∃ t, installWith L record code s = .next t ∧ t = { s with mem := t.mem }.withResult .hcpu .ok ∧
      ∀ x, t.mem.read x = installedByte L p record code s.mem x := by
  refine ⟨_, installWith_admitted L record code s p hrun hidle hrecord hcode hpatch hfits, ?frame, fun x => ?read⟩
  case frame =>
    rw [withResult_mem]
    exact congrArg (State.withResult · .hcpu .ok) (installWrites_frame L p record code hidle)
  case read =>
    rw [withResult_mem]
    exact installWrites_read_installedByte L p record code s hfits x

/-- The header begins with the four letters of its magic at ascending addresses (R91). -/
theorem letterHeader_eq (L : Config.PatchMap) :
    letterHeader L = [0x50#8, 0x41#8, 0x43#8, 0x48#8] ++ le32 L.lsEntryCount ++ le32 (L.lsCode ||| 1#32) := rfl

/-- Settles O55: the two patch types are the two layouts, and REV.INSTALL is the installer on the part's own. -/
theorem installerWritesTheLayout : Obligations.InstallerWritesTheLayout := by
  intro record code s hrun hidle hrecord hcode b done writes
  have any : ∀ L : Config.PatchMap, writes L (installWith L record code s) := by
    refine fun L => ⟨fun hb hfits => ?a3, fun hb hfits => ?letterSeries⟩
    case a3 => exact installWith_writes L hrun hidle hrecord hcode (revisionPatch_a3 hb) hfits
    case letterSeries =>
      rw [← letterHeader_eq]
      exact installWith_writes L hrun hidle hrecord hcode (revisionPatch_letterSeries hb) hfits
  exact ⟨any Config.patchMap, any⟩

/-! ### What reads back -/

theorem getD_append_zeros (bs : List Byte) (n k : Nat) :
    (bs ++ List.replicate n 0#8).getD k 0#8 = bs.getD k 0#8 := by
  by_cases hk : k < bs.length
  · rw [List.getD_append _ _ _ _ hk]
  · rw [List.getD_append_right _ _ _ _ (by omega), List.getD_eq_default bs _ (by omega)]
    simp

section
variable (L : Config.PatchMap) (p : PatchType) (record code : List Byte) (s : State)
  (hfits : code.length ≤ codeCapacity L p)
include hfits

/-- The code region reads back as the code blob followed by zeros (R303). -/
theorem installWrites_readBytes_code :
    (installWrites L p record code s).mem.readBytes (codeAddr L p) (codeCapacity L p) =
      code ++ List.replicate (codeCapacity L p - code.length) 0#8 := by
  have hlen : (code ++ List.replicate (codeCapacity L p - code.length) 0#8).length = codeCapacity L p := by
    rw [List.length_append, List.length_replicate]
    omega
  have hread := memory_readBytes_of (installWrites L p record code s).mem (codeAddr L p)
    (code ++ List.replicate (codeCapacity L p - code.length) 0#8) fun k hk => by
      rw [installWrites_read_installedByte L p record code s hfits, installedByte, if_pos (by omega),
        Nat.add_sub_cancel_left, getD_append_zeros]
  rwa [hlen] at hread

/-- Clear of the code region, the record or the header reads back whole (R98, R303). -/
theorem installWrites_readBytes_head
    (hdisj : RangesDisjoint (headAddr L p) (headBytes L record p).length (codeAddr L p) (codeCapacity L p)) :
    (installWrites L p record code s).mem.readBytes (headAddr L p) (headBytes L record p).length =
      headBytes L record p := by
  unfold RangesDisjoint at hdisj
  apply memory_readBytes_of
  intro k hk
  rw [installWrites_read_installedByte L p record code s hfits, installedByte, if_neg (by omega), if_pos (by omega),
    Nat.add_sub_cancel_left]

end

/-- An install that returned `Ok` passed every check and wrote (R303). -/
theorem installWith_ok {L : Config.PatchMap} {record code : List Byte} {s t : State}
    (h : installWith L record code s = .next t) (hok : t.hcpu.result = .ok) :
    ∃ p, revisionPatch (classify (revisionByte s.chipId)) = some p ∧ code.length ≤ codeCapacity L p ∧
      t = (installWrites L p record code s).withResult .hcpu .ok := by
  rcases installWith_next L record code s t h with ⟨e, rfl⟩ | hwrites
  · exact absurd hok (by simp [State.withResult, State.setAgent])
  · exact hwrites

theorem installWrites_iphase (L : Config.PatchMap) (p : PatchType) (record code : List Byte) (s : State) :
    (installWrites L p record code s).iphase = .idle := rfl

/-- Settles O56: the revision byte selects the layout the install wrote, whose two regions read back. -/
theorem installPostcondition : Obligations.InstallPostcondition := by
  intro L record code s t h hok
  obtain ⟨p, hpatch, hfits, rfl⟩ := installWith_ok h hok
  have ha3 := eq_a3_iff_of_revisionPatch hpatch
  rw [withResult_iphase, withResult_mem]
  refine ⟨installWrites_iphase L p record code s, fun hb hdisj => ?a3, fun hb hdisj => ?letterSeries⟩
  case a3 =>
    obtain rfl : p = .a3 := ha3.2 hb
    exact ⟨installWrites_readBytes_head L .a3 record code s hfits hdisj,
      installWrites_readBytes_code L .a3 record code s hfits⟩
  case letterSeries =>
    cases p with
    | a3 => exact absurd (ha3.1 rfl) (Nat.not_le_of_lt hb)
    | letterSeries =>
      exact ⟨installWrites_readBytes_head L .letterSeries record code s hfits hdisj,
        installWrites_readBytes_code L .letterSeries record code s hfits⟩

end Sys2Proof.Machine
end

section
/-! PROOFS. Failures: what ends a pseudo-operation (R346), what a fatal violation changes (R331, R334), that a stopped master
stays stopped (R331), and the entry of an interrupt handler (R352, R355). -/

namespace Sys2Proof.Machine

/-! ### What a fatal violation changes -/

/-- Only the mailbox operations are issued by a master other than HCPU (R11). -/
theorem agent_of_mbxTarget_none {j : Instr} (h : mbxTarget j = none) : j.agent = .hcpu := by
  revert h
  cases j <;> simp [mbxTarget, Instr.agent]

/-- The stop of HCPU is as it was, or the state is the one before with HCPU stopped. -/
def HcpuStopOutcome (s t : State) : Prop :=
  t.hcpu.stopped = s.hcpu.stopped ∨ ∃ cause, t = s.setAgent .hcpu { s.hcpu with stopped := some cause }

section
variable {s t u : State}

theorem answer_stopOutcome {r : Result} (h : answer .hcpu r u = .next t) (hu : u.hcpu.stopped = s.hcpu.stopped) :
    HcpuStopOutcome s t := by
  rw [answer_next _ _ _ _ h]
  exact .inl hu

theorem raiseFatal_stopOutcome {cause : FatalCause} (h : raiseFatal .hcpu cause s = .next t) : HcpuStopOutcome s t :=
  .inr ⟨cause, raiseFatal_next _ _ _ _ h⟩

theorem answerFreq_stopOutcome {q : Option (Option Frequency)} (h : answerFreq q s = .next t) :
    HcpuStopOutcome s t := by
  cases q with
  | none => cases h
  | some f => exact answer_stopOutcome (r := .freq f) h rfl

/-- An operation with a requirement that answers a result where the requirement holds. -/
theorem requiring_stopOutcome {p : Bool} {r : Result} (h : requiring p (answer .hcpu r u) = .next t)
    (hu : u.hcpu.stopped = s.hcpu.stopped) : HcpuStopOutcome s t :=
  answer_stopOutcome (requiring_eq _ _ _ h).2 hu

/-- A calibration hands a result to HCPU and beyond that leaves it alone (R203, R216). -/
theorem CalibratingOnly.stopOutcome (h : CalibratingOnly s t) : HcpuStopOutcome s t := .inl (by rw [h.hcpu])

theorem execApllTake_stopOutcome (h : execApllTake s = .next t) : HcpuStopOutcome s t := by
  cases htaken : s.apll.taken with
  | true => exact raiseFatal_stopOutcome ((execApllTake_taken htaken).symm.trans h)
  | false => exact requiring_stopOutcome ((execApllTake_free htaken).symm.trans h) rfl

theorem execApllMeas_stopOutcome {code : BitVec 5} (h : exec (.apllMeas code) s = .next t) : HcpuStopOutcome s t := by
  obtain ⟨hreq, _⟩ := requiring_eq _ _ _ h
  obtain ⟨v, hv, _, hframe⟩ := exec_apllMeas_outcome code (of_decide_eq_true hreq)
  obtain rfl : v = t := Host.Outcome.next.inj (hv.symm.trans h)
  exact hframe.stopOutcome

theorem execApllCalstep_stopOutcome (h : exec .apllCalstep s = .next t) : HcpuStopOutcome s t := by
  obtain ⟨hreq, _⟩ := requiring_eq _ _ _ h
  obtain ⟨hst, hstep⟩ : s.apll.st = .openLoopCalibrating ∧ s.apll.step ≠ 0#4 := by simpa using hreq
  obtain ⟨v, hv, _, hframe⟩ := exec_apllCalstep_outcome hst hstep
  obtain rfl : v = t := Host.Outcome.next.inj (hv.symm.trans h)
  exact hframe.stopOutcome

theorem execApllCalrefine_stopOutcome (h : exec .apllCalrefine s = .next t) : HcpuStopOutcome s t := by
  obtain ⟨hreq, _⟩ := requiring_eq _ _ _ h
  obtain ⟨⟨hst, hstep⟩, hfin⟩ :
      (s.apll.st = .openLoopCalibrating ∧ s.apll.step = 0#4) ∧ s.apll.calFin = false := by simpa using hreq
  obtain ⟨v, hv, hframe, _⟩ := exec_apllCalrefine_outcome hst hstep hfin
  obtain rfl : v = t := Host.Outcome.next.inj (hv.symm.trans h)
  exact hframe.stopOutcome

theorem execApllLockchk_stopOutcome (h : execApllLockchk s = .next t) : HcpuStopOutcome s t := by
  cases hsel : s.apll.freqSel with
  | none => cases (execApllLockchk_none hsel).symm.trans h
  | some k =>
    refine requiring_stopOutcome ((execApllLockchk_some hsel).symm.trans h) ?_
    cases s.apll.lockDet <;> rfl

theorem execApllCheck_stopOutcome {sr : Fin 11} (h : execApllCheck sr s = .next t) : HcpuStopOutcome s t := by
  cases hsel : s.apll.freqSel with
  | none => cases (execApllCheck_none sr hsel).symm.trans h
  | some k =>
    obtain ⟨_, h⟩ := requiring_eq _ _ _ ((execApllCheck_some sr hsel).symm.trans h)
    split at h
    · exact answer_stopOutcome h rfl
    · exact raiseFatal_stopOutcome h

theorem installWith_stopOutcome {L : Config.PatchMap} {record code : List Byte}
    (h : installWith L record code s = .next t) : HcpuStopOutcome s t := by
  rcases installWith_next L record code s t h with ⟨e, rfl⟩ | ⟨p, _, _, rfl⟩
  · exact .inl rfl
  · obtain ⟨m, hm⟩ := installWrites_eq L p record code s
    rw [hm]
    exact .inl rfl

/-- An operation of family CLK, APLL or REV leaves HCPU's stop alone or does nothing but stop it; only APLL.TAKE and
APLL.CHECK can do the latter (R334). -/
theorem exec_hcpu_stopOutcome {j : Instr} (hj : mbxTarget j = none) (h : exec j s = .next t) : HcpuStopOutcome s t := by
  cases j <;> simp only [mbxTarget, reduceCtorEq] at hj
  case clkFreqHclk | clkFreqPclk1 | clkFreqPclk2 => exact answerFreq_stopOutcome h
  case clkFreqHxt48 | clkFreqHrc48 | clkFreqClkDll1 | clkFreqClkDll2 | clkFreqClkSys | clkFreqClkPeri
    | clkFreqClkPeriDiv2 | clkFreqClkUsb | clkFreqClkAudPll | clkCfg | apllFreqof | revRdid | revClass | revValid
    | revLetter | revPtype =>
    exact answer_stopOutcome h rfl
  case clkDump => exact answer_stopOutcome h (by rw [(dump_envOnly s).hcpu])
  case apllBgon | apllAnaon | apllDigon | apllLfcfg | apllCalstart | apllSdmprog | apllDrop =>
    exact requiring_stopOutcome h rfl
  case apllTake => exact execApllTake_stopOutcome h
  case apllMeas => exact execApllMeas_stopOutcome h
  case apllCalstep => exact execApllCalstep_stopOutcome h
  case apllCalrefine => exact execApllCalrefine_stopOutcome h
  case apllLockchk => exact execApllLockchk_stopOutcome h
  case apllCheck => exact execApllCheck_stopOutcome h
  case revInstall => exact installWith_stopOutcome h

end

/-- Settles O31: a mailbox operation updates its channel and hands over a result, or its index check stops the master; an
operation of HCPU alone leaves the other masters as they are, and HCPU's stop goes by `exec_hcpu_stopOutcome`. -/
theorem fatalViolationOnlyStopsItsMaster : Obligations.FatalViolationOnlyStopsItsMaster := by
  intro j s t h
  cases hj : mbxTarget j with
  | some target =>
    rcases exec_mbx_outcome j target.1 target.2 s t hj h with ⟨_, ch, r, _, rfl⟩ | hstop
    · exact .inl fun a => by rw [withResult_stopped, setChannel_agent]
    · exact .inr ⟨_, hstop⟩
  | none =>
    rw [agent_of_mbxTarget_none hj]
    have hframe := exec_hcpuOnly j s t hj h
    refine (exec_hcpu_stopOutcome hj h).imp (fun hstop a => ?_) id
    cases a with
    | hcpu => exact hstop
    | lcpu => exact congrArg AgentState.stopped hframe.lcpu
    | bcpu => exact congrArg AgentState.stopped hframe.bcpu

/-! ### The end of a pseudo-operation -/

/-- An operation failed if it stopped its master or returned an error (R346). -/
theorem failed_iff (s : State) (a : Agent) :
    s.failed a = true ↔ (s.agent a).stopped ≠ none ∨ ∃ e, (s.agent a).result = .error e := by
  unfold State.failed
  rw [Bool.or_eq_true, Option.isSome_iff_ne_none]
  cases (s.agent a).result <;> simp

theorem andThen_failed {a : Agent} {t : State} (k : State → State) (h : t.failed a = true) :
    andThen a (.next t) k = .next t := by
  simp [andThen, h]

theorem andThen_not_failed {a : Agent} {t : State} (k : State → State) (h : t.failed a = false) :
    andThen a (.next t) k = .next (k t) := by
  simp [andThen, h]

/-- An operation that is not the last of its pseudo-operation runs with the others as what follows it (R134). -/
theorem runItem_ops_cons (a : Agent) (i j : Instr) (js : List Instr) (s : State) (h : i.agent = a) :
    runItem a (.ops (i :: j :: js)) s = andThen a (exec i s) fun t => t.pushItem a (.ops (j :: js)) := if_pos h

/-- Settles O30. -/
theorem failedPartEndsThePseudoOperation : Obligations.FailedPartEndsThePseudoOperation := by
  intro a i j js s t hagent h
  have hcons := runItem_ops_cons a i j js s hagent
  rw [h] at hcons
  refine ⟨fun hfailed => ?_, fun hrun hok => ?_, (runItem_ops_singleton a i s hagent).trans h⟩
  · exact hcons.trans (andThen_failed _ ((failed_iff t a).2 hfailed))
  · have hnot : t.failed a = false := by
      rw [Bool.eq_false_iff, ne_eq, failed_iff, not_or, not_exists]
      exact ⟨not_not.2 hrun, hok⟩
    exact hcons.trans (andThen_not_failed _ hnot)

/-! ### Handler entry -/

/-- Entry needs the line, and puts the handler's program first (R355, R356). -/
theorem enterHandler_entered {s : State} {a : Agent} (hline : s.irqTo a = true) (hst : (s.agent a).stopped = none)
    (hrun : a = .lcpu → s.lcpuRun = true) :
    enterHandler a s = s.withProg a ((s.agent a).handler ++ (s.agent a).prog) := if_pos ⟨hline, hst, hrun⟩

theorem enterHandler_no_line {s : State} {a : Agent} (hline : s.irqTo a = false) : enterHandler a s = s :=
  if_neg fun h => by simp [hline] at h

theorem enterHandler_stopped {s : State} {a : Agent} {cause : FatalCause} (hst : (s.agent a).stopped = some cause) :
    enterHandler a s = s :=
  if_neg fun h => by simp [hst] at h

/-- The wiring of the two instances (R12, R257, R352). -/
theorem irqTo_wiring (s : State) :
    s.irqTo .lcpu = s.irq .mbx1 ∧ s.irqTo .hcpu = s.irq .mbx2 ∧ s.irqTo .bcpu = false := by
  simp [State.irqTo, Config.irqTarget]

/-- Settles O10. -/
theorem handlerEntryNeedsTheLine : Obligations.HandlerEntryNeedsTheLine :=
  ⟨fun _ _ hline hst hrun => congrArg Host.Outcome.next (enterHandler_entered hline hst hrun),
    fun _ _ hline => congrArg Host.Outcome.next (enterHandler_no_line hline), irqTo_wiring⟩

/-! ### A stopped master -/

/-- Master `a` is stopped by `cause`. -/
def StoppedBy (a : Agent) (cause : FatalCause) (s : State) : Prop := (s.agent a).stopped = some cause

section
variable {a : Agent} {cause : FatalCause}

/-- A stop that is raised on a running master leaves the stopped one as it is. -/
theorem StoppedBy.setStopped {s : State} (h : StoppedBy a cause s) {b : Agent} (hb : (s.agent b).stopped = none)
    (x : AgentState) : StoppedBy a cause (s.setAgent b x) := by
  have hne : a ≠ b := by
    rintro rfl
    cases hb.symm.trans h
  rw [StoppedBy, setAgent_agent_other s b a x hne]
  exact h

/-- An operation of a running master raises at most its own master's stop (R331). -/
theorem exec_keeps_stoppedBy {j : Instr} {s t : State} (hs : StoppedBy a cause s)
    (hrun : (s.agent j.agent).stopped = none) (h : exec j s = .next t) : StoppedBy a cause t := by
  rcases fatalViolationOnlyStopsItsMaster j s t h with hkeep | ⟨_, rfl⟩
  · exact (hkeep a).trans hs
  · exact hs.setStopped hrun _

theorem stoppedBy_of_agent {s t : State} (h : t.agent a = s.agent a) (hs : StoppedBy a cause s) :
    StoppedBy a cause t := (congrArg AgentState.stopped h).trans hs

theorem stoppedBy_kept : Kept (StoppedBy a cause) where
  result s b r hs := (withResult_stopped s b a r).trans hs
  prog s b p hs := (withProg_stopped s b a p).trans hs
  stop _ _ _ hs hrun := hs.setStopped hrun _
  turns s ts := stoppedBy_of_agent (turns_agent s ts a)
  released _ := stoppedBy_of_agent (by cases a <;> rfl)
  env s e es := stoppedBy_of_agent (((applyEnv_envOnly e { s with env := es }).agent a).trans (by cases a <;> rfl))
  exec _ _ _ := exec_keeps_stoppedBy

/-- The turn of a stopped master is the fault that names it and its cause (R331). -/
theorem agentTurn_stopped {s : State} (h : (s.agent a).stopped = some cause) :
    agentTurn a s = .fault (.fatal a cause) := by
  rw [agentTurn, h]

/-- A run with a stopped master has not come to its end (R20). -/
theorem not_endsNormally_of_stopped {s : State} (h : (s.agent a).stopped = some cause) : s.endsNormally = false := by
  rw [State.endsNormally, List.all_eq_false]
  exact ⟨a, by cases a <;> simp, by simp [h]⟩

end

/-- Settles O32: the stop survives every part of a step, since an operation is only run for a master that is not stopped. -/
theorem fatalStopIsForever : Obligations.FatalStopIsForever := by
  refine ⟨fun s t a cause hst h => stoppedBy_kept.step s t hst h, fun _ _ _ => not_endsNormally_of_stopped,
    fun s a cause ts hst => ⟨fun hturn => ?_, fun hturn => ?_⟩⟩
  · rw [step_of_turns s _ ts hturn]
    exact agentTurn_stopped (by rw [turns_agent]; exact hst)
  · rw [step_of_turns s _ ts hturn]
    exact congrArg Host.Outcome.next (enterHandler_stopped (by rw [turns_agent]; exact hst))

end Sys2Proof.Machine
end

section
/-! PROOFS. The state a run starts in (R380): the lines (R381), the audio PLL (R383), `CHIPID` (R384) and the platform bit
(R386). -/

namespace Sys2Proof.Machine

/-- A line that is up has a latched bit behind it (R40), and no channel has one at reset (R381). -/
theorem reset_irq (i : MbxInst) : State.reset.irq i = false := by
  refine Bool.eq_false_iff.mpr fun hup => ?_
  obtain ⟨c, b, _, _, hlatched, _⟩ := (interruptLineIsTheOrOfPendingBits State.reset i).mp hup
  rw [reset_channel] at hlatched
  simp [Channel.reset] at hlatched

/-- Settles O11: the lines follow from the channels, and `CHIPID` from where its four bytes stand; the stage, the flags and
the absences (R383, R386) are written out in the state after reset. -/
theorem resetState : Obligations.ResetState :=
  ⟨reset_channel, reset_irq, rfl, rfl, rfl, rfl, rfl, rfl, rfl, rfl, rfl, rfl, rfl, rfl, rfl, rfl, chipId_eq⟩

end Sys2Proof.Machine
end
